-- ==== Sys2Proof/Word.lean ====
section
/-!
DEFINITION. The engine's data words: the 16-bit character of the ports (00_scope.md R5, R9) and strings of them (R7).
Digits and counters are natural numbers (92_eei_decisions.md D19).
-/

namespace Sys2Proof

/-- One character at an engine port, `CHAR_W` = 16 bits (R5, R9). -/
abbrev Char16 := BitVec 16

/-- A string: a finite list of characters, `ε` being `[]` (R7). -/
abbrev Str := List Char16

end Sys2Proof
end

