-- ==== Sys2Proof/Config.lean ====
section
/-!
DEFINITION. The implementation parameters of 00_scope.md R5: the ones with one value for this hardware as constants, the three
OPEN capacities as a structure that State carries (log entry 2), and the one free value of the model (log entry 7).
-/

namespace Sys2Proof.Config

/-- The order in which the bits of a multi-bit value enter the stream (R5, R62). -/
inductive CodeOrder where
  | msbFirst
  | lsbFirst
  deriving DecidableEq, Repr

/-- `CODE_ORDER` = `MSB_FIRST`, this hardware's value (R5, R6). -/
def codeOrder : CodeOrder := .msbFirst

/-- `LIT8_LIMIT` = 128 (R5). -/
def lit8Limit : Nat := 128

/-- `FIRST_W` = 2, the width of the first token's selector (R5, R41). -/
def firstW : Nat := 2

/-- The capacities D18 leaves OPEN; `none` is unbounded. -/
structure Caps where
  /-- `DICT_CAPACITY`: `NEXT_CODE` may not pass it. -/
  dict : Option Nat
  /-- `OUT_CAPACITY`: largest length of `DOUT` and of `COUT`. -/
  out : Option Nat
  /-- `LEN_MAX`: largest `N` and `CFG_LENGTH` a START accepts. -/
  lenMax : Option Nat
  deriving DecidableEq, Repr

/-- The default of R5: every capacity unbounded. -/
def Caps.unbounded : Caps := ⟨none, none, none⟩

/-- FREE VALUE. What `DIN[j]` holds for an index the host has never written (I16: any value; log entry 7). No body: no proof can
see it. One value per index, because two reads of one index return the same digit (R67). -/
opaque powerOnDin : Nat → Nat

end Sys2Proof.Config
end

