-- ==== Sys2Proof/Syntax.lean ====
section
/-!
DEFINITION. The instructions: one constructor per row of spec/opcode_table.json (30_encoding.md R96), and the three formats a word
is read in. The format of a word is not in the word: it is the engine's situation (R84), so it is an argument of the decoder.
-/

namespace Sys2Proof

/-- The token forms and the host commands (R96). Payloads `P` are carried at their field's width, codes as natural numbers (R85). -/
inductive Instr where
  /-- `F_LIT8`, first token, `SEL` = 0 (R202). -/
  | fLit8 (p : BitVec 8)
  /-- `F_LIT16`, first token, `SEL` = 1 (R203). -/
  | fLit16 (p : BitVec 16)
  /-- `F_EOS`, first token, `SEL` = 2 (R204). -/
  | fEos
  /-- `F_ILLEGAL`, first token, `SEL` = 3 (R205). -/
  | fIllegal
  /-- `LIT8`, `CODE` = 0 (R208). -/
  | lit8 (p : BitVec 8)
  /-- `LIT16`, `CODE` = 1 (R209). -/
  | lit16 (p : BitVec 16)
  /-- `EOS`, `CODE` = 2 (R210). -/
  | eos
  /-- `REF`, 3 ≤ `CODE` < `NEXT_CODE` (R211). -/
  | ref (code : Nat)
  /-- `REF_NEXT`, `CODE` = `NEXT_CODE` (R212): the code is the context's, so it is no operand. -/
  | refNext
  /-- `ILLEGAL`, `CODE` > `NEXT_CODE` (R213). -/
  | illegal (code : Nat)
  /-- `CMD_NONE`, `CMD` = 0 (R244). -/
  | cmdNone
  /-- `START_COMPRESS`, `CMD` = 1 (R241). -/
  | startCompress
  /-- `START_DECOMPRESS`, `CMD` = 2 (R242). -/
  | startDecompress
  /-- `RESET`, `CMD` = 3 (R245). -/
  | reset
  deriving DecidableEq, Repr

/-- What a word is read as: a command (R93), the first token of a stream (T0, R81), or a later token (TN, R83) under the current
`NUM_BITS` and `NEXT_CODE` (R82, R84). -/
inductive Format where
  | cmd
  | first
  | loop (numBits nextCode : Nat)
  deriving DecidableEq, Repr

end Sys2Proof
end

