-- ==== Sys2Proof/WellFormed.lean ====
section
/-!
DEFINITION. Which instructions a format can express: the form belongs to the format (R96), and its code fits the field and has the
meaning R82 gives it there.
-/

namespace Sys2Proof

/-- A command word (R93). -/
def Format.isCmd : Format → Bool
  | .cmd => true
  | .first => false
  | .loop _ _ => false

/-- A first-token word (R81). -/
def Format.isFirst : Format → Bool
  | .cmd => false
  | .first => true
  | .loop _ _ => false

/-- A later-token word whose width and next code meet a condition (R83). -/
def Format.isLoop (cond : Nat → Nat → Bool) : Format → Bool
  | .cmd => false
  | .first => false
  | .loop numBits nextCode => cond numBits nextCode

/-- The well-formed instructions of a format: the conditions of R82 and R96, with every code below `2^NUM_BITS` (R83). -/
def Instr.wf (f : Format) : Instr → Bool
  | .fLit8 _ => f.isFirst
  | .fLit16 _ => f.isFirst
  | .fEos => f.isFirst
  | .fIllegal => f.isFirst
  | .lit8 _ => f.isLoop fun _ _ => true
  | .lit16 _ => f.isLoop fun nb _ => decide (1 < 2 ^ nb)
  | .eos => f.isLoop fun nb _ => decide (2 < 2 ^ nb)
  | .ref code => f.isLoop fun nb nc => decide (3 ≤ code ∧ code < nc ∧ code < 2 ^ nb)
  | .refNext => f.isLoop fun nb nc => decide (3 ≤ nc ∧ nc < 2 ^ nb)
  | .illegal code => f.isLoop fun nb nc => decide (3 ≤ code ∧ nc < code ∧ code < 2 ^ nb)
  | .cmdNone => f.isCmd
  | .startCompress => f.isCmd
  | .startDecompress => f.isCmd
  | .reset => f.isCmd

end Sys2Proof
end

