-- ==== Sys2Proof/Decode.lean ====
section
/-!
DEFINITION. Bit fields (R7, R62, R85), the decoder of the three formats (R81 to R84, R93, R207), total on every bit sequence (R94), and
after it the encoder, from the same tables.
-/

namespace Sys2Proof

/-! ### Fields -/

/-- The n-bit field of `v`, most significant bit first: bits n-1 down to 0 (R62, R112). -/
def msbBits : Nat → Nat → List Bool
  | 0, _ => []
  | n + 1, v => v.testBit n :: msbBits n v

/-- `v` read as bits in stream order; only bits n-1 to 0 of `v` are written (R112). -/
def bitsOf (o : Config.CodeOrder) (n v : Nat) : List Bool :=
  match o with
  | .msbFirst => msbBits n v
  | .lsbFirst => (msbBits n v).reverse

/-- `r <- 2 * r + bit`, bit by bit (R132). -/
def msbValue (r : Nat) : List Bool → Nat
  | [] => r
  | b :: bs => msbValue (2 * r + b.toNat) bs

/-- The unsigned value of a field read in stream order (R132). -/
def valueOf (o : Config.CodeOrder) (bits : List Bool) : Nat :=
  match o with
  | .msbFirst => msbValue 0 bits
  | .lsbFirst => msbValue 0 bits.reverse

/-- `zext_16` of an 8-bit payload: the only extension the engine has (R7, R85). -/
def zext16 (p : BitVec 8) : Char16 := p.setWidth 16

/-! ### The decoder -/

/-- The width of the field that classifies a word: `SEL` (R81), `CODE` (R83), `CMD` (R93). -/
def headWidth : Format → Nat
  | .cmd => 2
  | .first => Config.firstW
  | .loop numBits _ => numBits

/-- The payload after the classifying value of a token: 8 bits after 0, 16 bits after 1, none otherwise (R81, R83). -/
def literalWidth : Nat → Nat
  | 0 => 8
  | 1 => 16
  | _ => 0

/-- The payload that follows the classifying field; a command has none. -/
def payloadWidth (f : Format) (head : Nat) : Nat := if f.isCmd then 0 else literalWidth head

/-- The command a value of `CMD` means; all four values have a meaning (R93, R94). -/
def commandOf : Nat → Instr
  | 0 => .cmdNone
  | 1 => .startCompress
  | 2 => .startDecompress
  | _ => .reset

/-- The first token a selector means (R81, R88, R201). -/
def firstToken (sel payload : Nat) : Instr :=
  match sel with
  | 0 => .fLit8 (BitVec.ofNat 8 payload)
  | 1 => .fLit16 (BitVec.ofNat 16 payload)
  | 2 => .fEos
  | _ => .fIllegal

/-- The code dispatch of the loop: the controls 0, 1 and 2 are tested first (R82, R207). -/
def loopToken (nextCode code payload : Nat) : Instr :=
  match code with
  | 0 => .lit8 (BitVec.ofNat 8 payload)
  | 1 => .lit16 (BitVec.ofNat 16 payload)
  | 2 => .eos
  | c => if c < nextCode then .ref c else if c = nextCode then .refNext else .illegal c

/-- The instruction a word of a format is, from the values of its two fields. -/
def assemble (f : Format) (head payload : Nat) : Instr :=
  match f with
  | .cmd => commandOf head
  | .first => firstToken head payload
  | .loop _ nextCode => loopToken nextCode head payload

/-- The first `n` bits; bits past the end of the sequence read as zeros (R94, R135). -/
def takeBits (n : Nat) (bits : List Bool) : List Bool :=
  (bits ++ List.replicate n false).take n

/-- The decoder: the instruction at the head of a bit sequence, and how many bits it has. Total (R94): every bit pattern is exactly
one row of R96, and the two illegal encodings are rows of their own (`F_ILLEGAL`, `ILLEGAL`, R88). -/
def decode (f : Format) (bits : List Bool) : Instr × Nat :=
  let head := valueOf Config.codeOrder (takeBits (headWidth f) bits)
  let width := payloadWidth f head
  let payload := valueOf Config.codeOrder (takeBits width (bits.drop (headWidth f)))
  (assemble f head payload, headWidth f + width)

/-- The decoder of the 2-bit command port (R93). -/
def decodeCmd (c : BitVec 2) : Instr := assemble .cmd c.toNat 0

/-! ### The encoder -/

/-- The value of the classifying field: the `CMD`, `SEL` or `CODE` column of R93 and R96. -/
def headValue (f : Format) : Instr → Nat
  | .cmdNone => 0
  | .startCompress => 1
  | .startDecompress => 2
  | .reset => 3
  | .fLit8 _ => 0
  | .fLit16 _ => 1
  | .fEos => 2
  | .fIllegal => 3
  | .lit8 _ => 0
  | .lit16 _ => 1
  | .eos => 2
  | .ref code => code
  | .refNext => match f with
    | .loop _ nextCode => nextCode
    | _ => 0
  | .illegal code => code

/-- The payload field of a literal, absent in every other form (R81, R83). -/
def payloadBits : Instr → List Bool
  | .fLit8 p => bitsOf Config.codeOrder 8 p.toNat
  | .fLit16 p => bitsOf Config.codeOrder 16 p.toNat
  | .lit8 p => bitsOf Config.codeOrder 8 p.toNat
  | .lit16 p => bitsOf Config.codeOrder 16 p.toNat
  | _ => []

/-- The bits of a word, in stream order: the classifying field, then the payload (R81, R83). -/
def encode (f : Format) (i : Instr) : List Bool :=
  bitsOf Config.codeOrder (headWidth f) (headValue f i) ++ payloadBits i

/-! ### Digits -/

/-- Digit k of a bit sequence: the sum of `s[k*DIGIT_W + i] * 2^(DIGIT_W-1-i)`, bits past the end being zeros (R80, R115). -/
def digitOf (w : Nat) (bits : List Bool) (k : Nat) : Nat :=
  msbValue 0 (takeBits w (bits.drop (k * w)))

/-- The digits a bit sequence fills, the last one padded with 1 to `DIGIT_W` zeros (R80, R115). -/
def digitsOf (w : Nat) (bits : List Bool) : List Nat :=
  (List.range (bits.length / w + 1)).map (digitOf w bits)

/-! ### The table's numbering of a word -/

/-- The format in which a word of the opcode table of `nbits` bits is read (log entry 15): a command port value up to one byte, a
first token with its payload up to three bytes. The table gives the loop rows no number. -/
def tableFormat (nbits : Nat) : Option Format :=
  if nbits ≤ 8 then some .cmd else if nbits ≤ 24 then some .first else none

/-- The word's bits in stream order: the classifying field is the number's two low bits, the payload the bits above it. -/
def tableBits (f : Format) (w : Nat) : List Bool :=
  bitsOf Config.codeOrder 2 (w % 4) ++ bitsOf Config.codeOrder (payloadWidth f (w % 4)) (w / 4)

/-- The instruction the decoder reads from a word numbered as spec/opcode_table.json numbers it. -/
def decodeTableWord (nbits w : Nat) : Option Instr :=
  (tableFormat nbits).map fun f => (decode f (tableBits f w)).1

end Sys2Proof
end

