-- ==== Sys2Proof/Machine/State.lean ====
section
/-!
DEFINITION. The engine's state (10_state.md R20), every element the spec names, the inputs the host owns, and the host's coming moves;
the state at power-on (R42, 70_reset_and_hazards.md R300); why a step can stop.

An element that "holds no value" is `none`: R40 says a model represents it as absent rather than as zero, and that a read of an
absent element is a fault of the model (log entry 1).
-/

namespace Sys2Proof.Machine

/-! ### Control and status -/

/-- `STATUS` (R21). Its 2-bit encoding is `Status.code` in Flags.lean. -/
inductive Status where
  | idle
  | busy
  | doneOk
  | doneFail
  deriving DecidableEq, Repr

/-- `CAUSE` (R22, R270). Its 3-bit encoding is `Cause.code`; the reserved values 5 to 7 are never written (I3). -/
inductive Cause where
  | none
  | corruptCode
  | badSelector
  | badConfig
  | capacity
  deriving DecidableEq, Repr

/-- `PHASE`, the engine's program counter (R24). -/
inductive Phase where
  | pIdle
  | pCScan
  | pCFinal
  | pDFirst
  | pDLoop
  | pHalt
  deriving DecidableEq, Repr

/-- `MODE` (R25). Its 1-bit encoding is `Mode.code`. -/
inductive Mode where
  | compress
  | decompress
  deriving DecidableEq, Repr

/-! ### Working state -/

/-- The code-width schedule `NUM_BITS`, `ENLARGE_IN`, `NEXT_CODE` (R27 to R29): one register set, always written together at a seed. -/
structure Sched where
  numBits : Nat
  enlargeIn : Nat
  nextCode : Nat
  deriving DecidableEq, Repr

/-- The bit-packer `SINK_ACC`, `SINK_CNT` (R30, R31). -/
structure Sink where
  acc : Nat
  cnt : Nat
  deriving DecidableEq, Repr

/-- The compressor dictionary: keys with their codes in insertion order (R34, R54; log entry 14). -/
abbrev CDict := List (Str × Nat)

/-- The pending-literal set: the characters of its one-character strings, strictly rising (R35, R56; log entry 14). -/
abbrev Pending := List Char16

/-- A `DDICT` entry: the placeholder `RSV`, which is not a string, or a string (R57). -/
inductive DEntry where
  | rsv
  | str (s : Str)
  deriving DecidableEq, Repr

/-- The decompressor dictionary: a table indexed by code, codes rising (R37, R57; log entry 14). -/
abbrev DDict := List (Nat × DEntry)

/-! ### The host -/

/-- A move of the host (R240, R304). Its reads change nothing and are `State.hostReads`. `yield` is no host move at all: it gives the
turn to the engine, so that a list of moves can place a command between any two engine steps (log entry 3). -/
inductive HostMove where
  /-- Fill `IN`; its length is `N` at the next START. -/
  | writeIn (text : Str)
  /-- Fill `DIN[0]`, `DIN[1]`, ...; entries past the written ones keep what they hold (log entry 8). -/
  | writeDin (digits : List Nat)
  | writeDigitW (w : BitVec 5)
  | writeLength (len : Nat)
  /-- Drive `CMD` for one command (R93). -/
  | issue (c : BitVec 2)
  | yield
  deriving DecidableEq, Repr

/-! ### The state -/

/-- The engine, the inputs the host owns, and the host's coming moves. -/
@[ext]
structure State where
  /-- `STATUS` -/
  status : Status
  /-- `CAUSE` -/
  cause : Cause
  /-- `FAULT_INFO` (R23) -/
  faultInfo : Nat
  /-- `PHASE` -/
  phase : Phase
  /-- `MODE` -/
  mode : Option Mode
  /-- `DIGIT_W`, latched (R25) -/
  digitW : Option (BitVec 5)
  /-- `LENGTH`, latched (R25) -/
  length : Option Nat
  /-- `N`, latched (R25) -/
  n : Option Nat
  /-- `II` (R26) -/
  ii : Option Nat
  /-- `NUM_BITS`, `ENLARGE_IN`, `NEXT_CODE` -/
  sched : Option Sched
  /-- `SINK_ACC`, `SINK_CNT` -/
  sink : Option Sink
  /-- `SRC_POS` (R32) -/
  srcPos : Option Nat
  /-- `C_W` (R33) -/
  cW : Option Str
  /-- `CDICT` -/
  cdict : Option CDict
  /-- `PENDING` -/
  pending : Option Pending
  /-- `D_W` (R36) -/
  dW : Option Str
  /-- `DDICT` -/
  ddict : Option DDict
  /-- `DOUT` (R52) -/
  dout : List Nat
  /-- `COUT` (R53) -/
  cout : Str
  /-- `IN`, host-owned (R50) -/
  inBuf : Str
  /-- `DIN`, host-owned: the digits written so far (R51) -/
  din : List Nat
  /-- `CFG_DIGIT_W`, host-owned (R93) -/
  cfgDigitW : BitVec 5
  /-- `CFG_LENGTH`, host-owned (R93) -/
  cfgLength : Nat
  /-- `DICT_CAPACITY`, `OUT_CAPACITY`, `LEN_MAX`: parameters of the implementation that no rule writes (R5; log entry 2) -/
  caps : Config.Caps
  /-- MODEL'S OWN: the host's coming moves (log entry 3) -/
  host : List HostMove
  deriving DecidableEq, Repr

/-! ### One write each

Each write of one element has a name, and `simps` gives, beside it, one lemma for each field: the written one and the ones it leaves. -/

@[simps] def State.setPhase (s : State) (v : Phase) : State := { s with phase := v }
@[simps] def State.setDigitW (s : State) (v : Option (BitVec 5)) : State := { s with digitW := v }
@[simps] def State.setLength (s : State) (v : Option Nat) : State := { s with length := v }
@[simps] def State.setN (s : State) (v : Option Nat) : State := { s with n := v }
@[simps] def State.setIi (s : State) (v : Option Nat) : State := { s with ii := v }
@[simps] def State.setSched (s : State) (v : Option Sched) : State := { s with sched := v }
@[simps] def State.setSink (s : State) (v : Option Sink) : State := { s with sink := v }
@[simps] def State.setSrcPos (s : State) (v : Option Nat) : State := { s with srcPos := v }
@[simps] def State.setCW (s : State) (v : Option Str) : State := { s with cW := v }
@[simps] def State.setCdict (s : State) (v : Option CDict) : State := { s with cdict := v }
@[simps] def State.setPending (s : State) (v : Option Pending) : State := { s with pending := v }
@[simps] def State.setDW (s : State) (v : Option Str) : State := { s with dW := v }
@[simps] def State.setDdict (s : State) (v : Option DDict) : State := { s with ddict := v }
@[simps] def State.setDout (s : State) (v : List Nat) : State := { s with dout := v }
@[simps] def State.setCout (s : State) (v : Str) : State := { s with cout := v }
@[simps] def State.setInBuf (s : State) (v : Str) : State := { s with inBuf := v }
@[simps] def State.setDin (s : State) (v : List Nat) : State := { s with din := v }
@[simps] def State.setCfgDigitW (s : State) (v : BitVec 5) : State := { s with cfgDigitW := v }
@[simps] def State.setCfgLength (s : State) (v : Nat) : State := { s with cfgLength := v }
@[simps] def State.setHost (s : State) (v : List HostMove) : State := { s with host := v }

/-! ### Power-on -/

/-- Power-on (R300, R42). The spec gives no value for the host-owned inputs (I16): the ones here are log entry 6. -/
def State.reset : State where
  status := .idle
  cause := .none
  faultInfo := 0
  phase := .pIdle
  mode := none
  digitW := none
  length := none
  n := none
  ii := none
  sched := none
  sink := none
  srcPos := none
  cW := none
  cdict := none
  pending := none
  dW := none
  ddict := none
  dout := []
  cout := []
  inBuf := []
  din := []
  cfgDigitW := 0
  cfgLength := 0
  caps := Config.Caps.unbounded
  host := []

/-! ### Why a step can stop -/

/-- The elements that can be absent (R40). -/
inductive Element where
  | digitW
  | length
  | n
  | ii
  | sched
  | sink
  | srcPos
  | cW
  | cdict
  | pending
  | dW
  | ddict
  deriving DecidableEq, Repr

/-- Faults OF THE MODEL. None happens on a path the rules allow (R40; log entry 18); the engine's own faults (R270) are next states,
because 60_exceptions.md R276 describes their entry. -/
inductive Fault where
  /-- A rule read an element that holds no value (R40). Raised by `need`. Safe: the model stops. -/
  | absent (e : Element)
  /-- `head(ε)`, which R7 says is never applied. Raised by `headOf`. Safe. -/
  | headOfEmpty
  /-- A placeholder read as an entry (R57, I1). Raised by `entryAt`. Safe. -/
  | placeholderRead (code : Nat)
  /-- A code at which `DDICT` holds nothing (R57). Raised by `entryAt`. Safe. -/
  | noEntry (code : Nat)
  /-- `CDICT[s]` of a string that is no key (R54). Raised by `codeOf`. Safe. -/
  | notAKey
  /-- `CharIn(i)` for an i that is not below `N` (R50, R67). Raised by `charIn`. Safe. -/
  | charInPastEnd (i : Nat)
  deriving DecidableEq, Repr

/-- Why a step has no meaning. -/
inductive Refusal where
  /-- An instruction that has no meaning in this model yet. Raised by a refused arm of `exec`. Safe. -/
  | notModelled (mnemonic : String)
  /-- A host write while `STATUS` = `BUSY`: the spec gives the host no such move (R250, R305, I10, I11; log entry 5). Raised by
  `hostWrite`. Safe: the model stops. -/
  | hostWriteWhileBusy
  deriving DecidableEq, Repr

/-- How a step can end before its last line. -/
inductive Stop where
  /-- `raise Fault`: the step is over, and the state is the one the fault entry left (R276). -/
  | raised (s : State)
  /-- A fault of the model. -/
  | model (f : Fault)
  deriving DecidableEq, Repr

/-- A value, or the end of the step. -/
abbrev Res (α : Type) := Except Stop α

end Sys2Proof.Machine
end

