-- ==== Sys2Proof/Machine/Dict.lean ====
section
/-!
DEFINITION. The three dictionary structures as plain data (20_memory.md R54, R56, R57): lookup, insertion, removal, and the canonical
form of each, which makes equal contents equal data (log entry 14).
-/

namespace Sys2Proof.Machine

/-! ### CDICT -/

/-- `CDICT[s]`, if s is a key (R54). -/
def CDict.get? : CDict → Str → Option Nat
  | [], _ => none
  | (k, c) :: t, s => if k = s then some c else CDict.get? t s

/-- Whether s is a key of `CDICT` (R171). -/
def CDict.isKey (d : CDict) (s : Str) : Bool := (d.get? s).isSome

/-- `CDICT[s] <- c` for an s that is no key: the newest key stands last (R54, R184). -/
def CDict.insert (d : CDict) (s : Str) (c : Nat) : CDict := d ++ [(s, c)]

/-- Canonical form: no key twice, and the codes exactly 3, 4, ... in insertion order (R54). -/
def CDict.wf (d : CDict) : Bool :=
  decide ((d.map (·.1)).Nodup) && decide (d.map (·.2) = List.range' 3 d.length)

/-! ### PENDING -/

/-- Whether the string is a pending one-character string (R56, R175). -/
def Pending.has (p : Pending) : Str → Bool
  | [v] => decide (v ∈ p)
  | _ => false

/-- `PENDING ∪ {[v]}` (R171). -/
def Pending.add (v : Char16) : Pending → Pending
  | [] => [v]
  | x :: t => if v < x then v :: x :: t else if v = x then x :: t else x :: Pending.add v t

/-- `PENDING \ {[v]}` (R176, R177). -/
def Pending.remove (v : Char16) (p : Pending) : Pending := p.filter (· ≠ v)

/-- Canonical form: strictly rising. -/
def Pending.wf (p : Pending) : Bool := decide (p.Pairwise (· < ·))

/-! ### DDICT -/

/-- `DDICT[k]`, if there is an entry (R57). -/
def DDict.get? : DDict → Nat → Option DEntry
  | [], _ => none
  | (j, e) :: t, k => if j = k then some e else DDict.get? t k

/-- `DDICT[k] <- e` (R219). -/
def DDict.put (k : Nat) (e : DEntry) : DDict → DDict
  | [] => [(k, e)]
  | (j, x) :: t => if k < j then (k, e) :: (j, x) :: t else if k = j then (k, e) :: t else (j, x) :: DDict.put k e t

/-- The three placeholders at codes 0, 1 and 2 (R200). -/
def DDict.seed : DDict := [(0, .rsv), (1, .rsv), (2, .rsv)]

/-- Canonical form: codes strictly rising. -/
def DDict.wf (d : DDict) : Bool := decide ((d.map (·.1)).Pairwise (· < ·))

end Sys2Proof.Machine
end

