-- ==== Sys2Proof/Machine/Flags.lean ====
section
/-!
DEFINITION. The engine has no condition codes (10_state.md R39): its only flags are `STATUS` and `CAUSE`. Their encodings, the
encoding of `MODE`, what the host observes and reads (10_state.md R38, 45_host_interface.md R240), and the result of a call (R249).
-/

namespace Sys2Proof.Machine

/-- The 2-bit encoding of `STATUS` (R21). -/
def Status.code : Status → BitVec 2
  | .idle => 0
  | .busy => 1
  | .doneOk => 2
  | .doneFail => 3

/-- The 3-bit encoding of `CAUSE` (R22, R270). -/
def Cause.code : Cause → BitVec 3
  | .none => 0
  | .corruptCode => 1
  | .badSelector => 2
  | .badConfig => 3
  | .capacity => 4

/-- The 1-bit encoding of `MODE` (R25). -/
def Mode.code : Mode → BitVec 1
  | .compress => 0
  | .decompress => 1

/-- The elements of the engine the host reads (R240): the first and the third row of the table of R38. -/
structure Observation where
  status : BitVec 2
  cause : BitVec 3
  faultInfo : Nat
  dout : List Nat
  cout : Str
  deriving DecidableEq, Repr

/-- What the engine shows the host (R38, R240). Reading changes nothing. -/
def State.observe (s : State) : Observation where
  status := s.status.code
  cause := s.cause.code
  faultInfo := s.faultInfo
  dout := s.dout
  cout := s.cout

/-- Every element with a yes in the host-read column of R38: what the engine shows, and the ports and buffers the host owns (log entry
25). `din` is the digits written so far; the digit at any one index is `State.readDin`. -/
structure HostReads extends Observation where
  cfgDigitW : BitVec 5
  cfgLength : Nat
  inBuf : Str
  din : List Nat
  deriving DecidableEq, Repr

/-- What the host reads, in any state (R38, R281). Reading changes nothing. -/
def State.hostReads (s : State) : HostReads where
  toObservation := s.observe
  cfgDigitW := s.cfgDigitW
  cfgLength := s.cfgLength
  inBuf := s.inBuf
  din := s.din

/-- The result of a call that is over (R248, R249). -/
inductive Result where
  /-- A compression's result: `DOUT`, in order. -/
  | digits (dout : List Nat)
  /-- A decompression's result: `COUT`. -/
  | text (cout : Str)
  /-- Failure, with its cause and information: the buffers are then no result (R221). -/
  | failure (cause : Cause) (info : Nat)
  deriving DecidableEq, Repr

/-- `none` while the call is not over or none has started: the buffers are then no result (R249, R306). Which buffer is the result is
`MODE`, which every START writes. -/
def State.result? (s : State) : Option Result :=
  match s.status with
  | .idle => none
  | .busy => none
  | .doneOk => s.mode.map fun
    | .compress => .digits s.dout
    | .decompress => .text s.cout
  | .doneFail => some (.failure s.cause s.faultInfo)

/-- What stands on the `CMD` port: the command the host is issuing, `NONE` (0) whenever it issues none (R244; log entry 4). -/
def State.cmdPort (s : State) : BitVec 2 :=
  match s.host with
  | .issue c :: _ => c
  | _ => 0

end Sys2Proof.Machine
end

