-- ==== Sys2Proof/Machine/Ops.lean ====
section
/-!
DEFINITION. The named operations over the engine's elements and buffers: reading an element that may be absent (R40), taking a fault
(60_exceptions.md R276), ending a call (45_host_interface.md R247), the four port primitives and the dictionary insertions. There is
no return from a fault (R278): only START and RESET lead on.
-/

namespace Sys2Proof.Machine

/-! ### How a step ends -/

/-- The outcome of a meaning: a completed step and a step a fault entry ended are both next states (R276). -/
def Res.outcome (r : Res State) : Host.Outcome State Fault Refusal :=
  match r with
  | .ok s => .next s
  | .error (.raised s) => .next s
  | .error (.model f) => .fault f

/-- The read of an element: a fault of the model if it holds no value (R40). -/
def need {α : Type} (e : Element) (o : Option α) : Res α :=
  match o with
  | some a => .ok a
  | none => .error (.model (.absent e))

/-- Fault entry: `CAUSE`, `FAULT_INFO`, `STATUS` and `PHASE` are written, and every write the step made before stays (R276). -/
@[simps] def State.enterFault (s : State) (cause : Cause) (info : Nat) : State :=
  { s with cause := cause, faultInfo := info, status := .doneFail, phase := .pHalt }

/-- `raise Fault(cause, info)`: the entry, and nothing after the raise point runs (R276, R277). -/
def raise {α : Type} (cause : Cause) (info : Nat) (s : State) : Res α :=
  .error (.raised (s.enterFault cause info))

/-- `Finish()` (R247). -/
@[simps] def State.finish (s : State) : State := { s with status := .doneOk, phase := .pHalt }

/-- `head(s)` (R7). -/
def headOf (s : Str) : Res Char16 :=
  match s with
  | c :: _ => .ok c
  | [] => .error (.model .headOfEmpty)

/-! ### Capacities -/

/-- Whether a bounded capacity is used up by `used` things already there (R274). -/
def full (cap : Option Nat) (used : Nat) : Bool :=
  match cap with
  | none => false
  | some bound => decide (bound ≤ used)

/-- Whether a bounded capacity is less than what is asked for (R274). -/
def overfull (cap : Option Nat) (asked : Nat) : Bool :=
  match cap with
  | none => false
  | some bound => decide (bound < asked)

/-! ### Port primitives -/

/-- `CharIn(i)`: `IN[i]` for i < N (R50, R67). -/
def charIn (i : Nat) (s : State) : Res Char16 := do
  let n ← need .n s.n
  if i < n then
    match s.inBuf[i]? with
    | some c => .ok c
    | none => .error (.model (.charInPastEnd i))
  else .error (.model (.charInPastEnd i))

/-- What the host's `DIN[j]` holds: the digit written there, or a free value where the host never wrote (I16; log entry 7). -/
def dinAt (din : List Nat) (j : Nat) : Nat := din[j]?.getD (Config.powerOnDin j)

/-- The host's read of `DIN[j]` (R38): the digit whole, where the engine's own read masks it (R134). -/
def State.readDin (s : State) (j : Nat) : Nat := dinAt s.din j

/-- `DigitIn(j)` of a `DIN` for a width and a length: the low `DIGIT_W` bits of the host's digit (R134), 0 from `LENGTH` up without
asking the host (R135). -/
def digitInOf (w len : Nat) (din : List Nat) (j : Nat) : Nat :=
  if j < len then dinAt din j % 2 ^ w else 0

/-- `DigitIn(j)` (R134, R135). -/
def digitIn (j : Nat) (s : State) : Res Nat := do
  let w ← need .digitW s.digitW
  let len ← need .length s.length
  .ok (digitInOf w.toNat len s.din j)

/-- `DigitOut(d)` (R52, R72, R114; log entry 21). -/
def digitOut (d : Nat) (s : State) : Res State :=
  if full s.caps.out s.dout.length then raise .capacity 2 s
  else .ok (s.setDout (s.dout ++ [d]))

/-- `CharOut(t)`: nothing of t is appended when it faults (R53, R220). -/
def charOut (t : Str) (s : State) : Res State :=
  if overfull s.caps.out (s.cout.length + t.length) then raise .capacity 3 s
  else .ok (s.setCout (s.cout ++ t))

/-! ### Dictionary insertions and reads -/

/-- `NEXT_CODE <- NEXT_CODE + 1` (R29). -/
@[simps] def Sched.bump (sc : Sched) : Sched := { sc with nextCode := sc.nextCode + 1 }

/-- `CInsert(t)`: a code at or past `DICT_CAPACITY` faults (R72, R184, R274; log entry 21). -/
def cInsert (t : Str) (s : State) : Res State := do
  let sc ← need .sched s.sched
  let d ← need .cdict s.cdict
  if full s.caps.dict sc.nextCode then raise .capacity 1 s
  else .ok ((s.setCdict (some (d.insert t sc.nextCode))).setSched (some sc.bump))

/-- `CDICT[t]` of a key (R178). -/
def codeOf (t : Str) (s : State) : Res Nat := do
  let d ← need .cdict s.cdict
  match d.get? t with
  | some c => .ok c
  | none => .error (.model .notAKey)

/-- `DInsert(t)` (R219). -/
def dInsert (t : Str) (s : State) : Res State := do
  let sc ← need .sched s.sched
  let d ← need .ddict s.ddict
  if full s.caps.dict sc.nextCode then raise .capacity 1 s
  else .ok ((s.setDdict (some (d.put sc.nextCode (.str t)))).setSched (some sc.bump))

/-- `DInsertAt3(t)`, the first token's insertion (R219). -/
def dInsertAt3 (t : Str) (s : State) : Res State := do
  let d ← need .ddict s.ddict
  if full s.caps.dict 3 then raise .capacity 1 s
  else .ok (s.setDdict (some (d.put 3 (.str t))))

/-- `DDICT[code]` as a string: never a placeholder (R57, R207, I1). -/
def entryAt (code : Nat) (s : State) : Res Str := do
  let d ← need .ddict s.ddict
  match d.get? code with
  | some (.str t) => .ok t
  | some .rsv => .error (.model (.placeholderRead code))
  | none => .error (.model (.noEntry code))

end Sys2Proof.Machine
end

