-- ==== Sys2Proof/Machine/Operands.lean ====
section
/-!
DEFINITION. Operand fields in the stream: the bit-packer (40_bitsink.md R110 to R113) that writes them, and the bit-unpacker
(41_bitsource.md R130 to R133) that reads them. Every field is unsigned, in `CODE_ORDER` (30_encoding.md R85).
-/

namespace Sys2Proof.Machine

/-! ### Bit-packer -/

/-- `SinkInit()` (R110). -/
def sinkInit (s : State) : State := s.setSink (some ⟨0, 0⟩)

/-- `PutBit(b)`: the accumulator is written before the digit goes out, so a fault of `DigitOut` finds it written (R111, R276). -/
def putBit (b : Bool) (s : State) : Res State := do
  let k ← need .sink s.sink
  let w ← need .digitW s.digitW
  if k.cnt = w.toNat - 1 then do
    let s ← digitOut (2 * k.acc + b.toNat) (s.setSink (some ⟨2 * k.acc + b.toNat, k.cnt⟩))
    .ok (s.setSink (some ⟨0, 0⟩))
  else .ok (s.setSink (some ⟨2 * k.acc + b.toNat, k.cnt + 1⟩))

/-- `PutBit` for each bit of a sequence, in order. -/
def putBits : List Bool → State → Res State
  | [], s => .ok s
  | b :: bs, s => do
    let s ← putBit b s
    putBits bs s

/-- `PutValue(v, n)` (R112). -/
def putValue (v n : Nat) (s : State) : Res State := putBits (bitsOf Config.codeOrder n v) s

/-- `Flush()`: always one digit, the rest of it zeros (R113). -/
def flush (s : State) : Res State := do
  let k ← need .sink s.sink
  let w ← need .digitW s.digitW
  let s ← digitOut (k.acc * 2 ^ (w.toNat - k.cnt)) s
  .ok (s.setSink (some ⟨0, 0⟩))

/-! ### Bit-unpacker -/

/-- `SrcInit()` (R130). -/
def srcInit (s : State) : State := s.setSrcPos (some 0)

/-- Stream bit number `pos` of a `DIN`: bit `DIGIT_W - 1 - (pos mod DIGIT_W)` of digit `pos div DIGIT_W` (R32, R80, R131). -/
def streamBit (w len : Nat) (din : List Nat) (pos : Nat) : Bool :=
  (digitInOf w len din (pos / w)).testBit (w - 1 - pos % w)

/-- The `n` stream bits from `pos` on. -/
def streamBits (w len : Nat) (din : List Nat) (pos n : Nat) : List Bool :=
  (List.range n).map fun k => streamBit w len din (pos + k)

/-- `GetBit()` (R131). It never faults and never stops on its own (R137). -/
def getBit (s : State) : Res (Bool × State) := do
  let pos ← need .srcPos s.srcPos
  let w ← need .digitW s.digitW
  let d ← digitIn (pos / w.toNat) s
  .ok (d.testBit (w.toNat - 1 - pos % w.toNat), s.setSrcPos (some (pos + 1)))

/-- `GetBit` n times, in order. -/
def getBits : Nat → State → Res (List Bool × State)
  | 0, s => .ok ([], s)
  | n + 1, s => do
    let b ← getBit s
    let r ← getBits n b.2
    .ok (b.1 :: r.1, r.2)

/-- `GetValue(n)` (R132). -/
def getValue (n : Nat) (s : State) : Res (Nat × State) := do
  let r ← getBits n s
  .ok (valueOf Config.codeOrder r.1, r.2)

/-- `Exhausted()`: every digit of the budget has been read to its last bit (R133). -/
def exhausted (s : State) : Res Bool := do
  let pos ← need .srcPos s.srcPos
  let len ← need .length s.length
  let w ← need .digitW s.digitW
  .ok (decide (len * w.toNat ≤ pos))

/-! ### The eager form of the unpacker

R136: the source's "integer value plus a fill-count" form, which fetches a digit as soon as the one before it is used up. No rule
holds it: it is the form an implementation may take, and a statement says that it gives the same bits. -/

/-- `SRC_VAL`, `SRC_MASK`, `SRC_IDX` (R136). -/
structure Eager where
  val : Nat
  mask : Nat
  idx : Nat
  deriving DecidableEq, Repr

/-- The eager form at a stream position (R136). -/
def eagerAt (w len : Nat) (din : List Nat) (pos : Nat) : Eager :=
  ⟨digitInOf w len din (pos / w), 2 ^ (w - 1 - pos % w), pos / w + 1⟩

/-- `GetBit` of the eager form (R136). -/
def eagerGetBit (w len : Nat) (din : List Nat) (e : Eager) : Bool × Eager :=
  (decide (e.val &&& e.mask ≠ 0),
    if e.mask / 2 = 0 then ⟨digitInOf w len din e.idx, 2 ^ (w - 1), e.idx + 1⟩ else { e with mask := e.mask / 2 })

end Sys2Proof.Machine
end

