-- ==== Sys2Proof/Machine/Schedule.lean ====
section
/-!
DEFINITION. The code-width schedule (42_width_schedule.md): `Dec`, `Grow` and `Tick` (R150, R151) and the two seeds (R152, R153).
-/

namespace Sys2Proof.Machine

/-- `Dec()`: `ENLARGE_IN` is at least 1 here, so it never goes below 0 (R150, R151; log entry 13). -/
def Sched.dec (sc : Sched) : Sched := { sc with enlargeIn := sc.enlargeIn - 1 }

/-- `Grow()`: the reset uses the width before the increment (R151, 90_conflicts.md C4). -/
def Sched.grow (sc : Sched) : Sched :=
  if sc.enlargeIn = 0 then { sc with enlargeIn := 2 ^ sc.numBits, numBits := sc.numBits + 1 } else sc

/-- `Tick()` (R150). -/
def Sched.tick (sc : Sched) : Sched := sc.dec.grow

/-- k schedule events. -/
def Sched.ticks : Nat → Sched → Sched
  | 0, sc => sc
  | k + 1, sc => Sched.ticks k sc.tick

/-- The compressor's seed (R153). -/
def Sched.compressorSeed : Sched := ⟨2, 2, 3⟩

/-- The decompressor's seed, written by the first token (R152). -/
def Sched.decompressorSeed : Sched := ⟨3, 4, 4⟩

/-- A schedule operation on the engine. -/
def onSched (f : Sched → Sched) (s : State) : Res State := do
  let sc ← need .sched s.sched
  .ok (s.setSched (some (f sc)))

/-- `Dec()` on the engine. -/
def dec (s : State) : Res State := onSched Sched.dec s

/-- `Grow()` on the engine. -/
def grow (s : State) : Res State := onSched Sched.grow s

/-- `Tick()` on the engine. -/
def tick (s : State) : Res State := onSched Sched.tick s

end Sys2Proof.Machine
end

