-- ==== Sys2Proof/Machine/Compressor.lean ====
section
/-!
DEFINITION. The compressor (43_compressor.md): its init step (R170), the character step (R171 to R174), the token forms it writes (R175
to R178) and its final step (R179). These steps are no rows of the opcode table: they are what `PHASE` runs.
-/

namespace Sys2Proof.Machine

/-! ### Init -/

/-- The working state `C_INIT` writes, and, emptied, the elements R42 leaves unused in a compression (R40, R170, R303; log entry 9). -/
@[simps] def State.initCompress (s : State) : State :=
  { s with
    ii := some 0, cW := some [], cdict := some [], pending := some [], sched := some Sched.compressorSeed,
    length := none, srcPos := none, dW := none, ddict := none }

/-- `C_INIT` (R170, R180). -/
def cInit (s : State) : Res State := do
  let n ← need .n s.n
  if n = 0 then .ok (sinkInit s.initCompress).finish else .ok ((sinkInit s.initCompress).setPhase .pCScan)

/-! ### Token emission -/

/-- `PENDING <- PENDING \ {[v]}`, then the two schedule events of a literal (R154, R176). -/
def literalSent (v : Char16) (s : State) : Res State := do
  let p ← need .pending s.pending
  let s ← tick (s.setPending (some (p.remove v)))
  tick s

/-- `EMIT_LIT8([v], v)` (R176). -/
def emitLit8 (v : Char16) (s : State) : Res State := do
  let sc ← need .sched s.sched
  let s ← putValue 0 sc.numBits s
  let s ← putValue v.toNat 8 s
  literalSent v s

/-- `EMIT_LIT16([v], v)` (R177). -/
def emitLit16 (v : Char16) (s : State) : Res State := do
  let sc ← need .sched s.sched
  let s ← putValue 1 sc.numBits s
  let s ← putValue v.toNat 16 s
  literalSent v s

/-- `EMIT_REF(t)` (R178). -/
def emitRef (t : Str) (s : State) : Res State := do
  let code ← codeOf t s
  let sc ← need .sched s.sched
  let s ← putValue code sc.numBits s
  tick s

/-- `EMIT(t)` (R175). -/
def emit (t : Str) (s : State) : Res State := do
  let p ← need .pending s.pending
  if p.has t then do
    let v ← headOf t
    if v.toNat < Config.lit8Limit then emitLit8 v s else emitLit16 v s
  else emitRef t s

/-! ### Steps -/

/-- The registration of a new character: its code, and its pending mark (R171). -/
def registerChar (c : Char16) (s : State) : Res State := do
  let d ← need .cdict s.cdict
  if d.isKey [c] then .ok s
  else do
    let s ← cInsert [c] s
    let p ← need .pending s.pending
    .ok (s.setPending (some (p.add c)))

/-- The extending step (R172) or the non-extending one (R173), whose token goes out before `wc` is inserted (R185). -/
def extendMatch (c : Char16) (s : State) : Res State := do
  let d ← need .cdict s.cdict
  let w ← need .cW s.cW
  if d.isKey (w ++ [c]) then .ok (s.setCW (some (w ++ [c])))
  else do
    let s ← emit w s
    let s ← cInsert (w ++ [c]) s
    .ok (s.setCW (some [c]))

/-- `C_SCAN`, one step per input character (R171, R174). -/
def cScan (s : State) : Res State := do
  let i ← need .ii s.ii
  let n ← need .n s.n
  let c ← charIn i s
  let s ← registerChar c (s.setIi (some (i + 1)))
  let s ← extendMatch c s
  if i + 1 = n then .ok (s.setPhase .pCFinal) else .ok s

/-- `C_FINAL`: the last token, `EOS` without a schedule event, the pad, the end (R179). -/
def cFinal (s : State) : Res State := do
  let w ← need .cW s.cW
  let s ← emit w s
  let sc ← need .sched s.sched
  let s ← putValue 2 sc.numBits s
  let s ← flush s
  .ok s.finish

end Sys2Proof.Machine
end

