-- ==== Sys2Proof/Machine/Decompressor.lean ====
section
/-!
DEFINITION. What the decompressor's token rules share (44_decompressor.md): its init step (R200), the first literal (R202), the loop
literal (R208) and the common end of a literal or reference token (R214).
-/

namespace Sys2Proof.Machine

/-- The elements R42 leaves unused until the first token, emptied (R40, R200, R303; log entry 9). -/
@[simps] def State.initDecompress (s : State) : State :=
  { s with
    n := none, ii := none, sched := none, sink := none, cW := none, cdict := none, pending := none, dW := none, ddict := none }

/-- `D_INIT` (R200). -/
def dInit (s : State) : Res State := do
  let len ← need .length s.length
  if len = 0 then .ok (srcInit s.initDecompress).finish
  else .ok (((srcInit s.initDecompress).setDdict (some DDict.seed)).setPhase .pDFirst)

/-- The first token as a literal of value v (R202, R203). -/
def firstLiteral (v : Char16) (s : State) : Res State := do
  let s ← dInsertAt3 [v] s
  let s ← charOut [v] (s.setDW (some [v]))
  .ok ((s.setSched (some Sched.decompressorSeed)).setPhase .pDLoop)

/-- `COMMON(entry)` (R214): `D_W` is the previous token's entry until the last line. -/
def common (entry : Str) (s : State) : Res State := do
  let s ← charOut entry s
  let w ← need .dW s.dW
  let c ← headOf entry
  let s ← dInsert (w ++ [c]) s
  let s ← tick s
  .ok (s.setDW (some entry))

/-- A literal of value v in the loop (R208, R209): registered at `NEXT_CODE`, one event and the growth check, then `COMMON`. -/
def loopLiteral (v : Char16) (s : State) : Res State := do
  let sc ← need .sched s.sched
  let s ← dInsert [v] s
  let s ← dec s
  let s ← grow s
  let entry ← entryAt sc.nextCode s
  common entry s

/-- A reference to a known entry (R211). -/
def loopRef (code : Nat) (s : State) : Res State := do
  let s ← grow s
  let entry ← entryAt code s
  common entry s

/-- A reference to the entry being created (R212). -/
def loopRefNext (s : State) : Res State := do
  let s ← grow s
  let w ← need .dW s.dW
  let c ← headOf w
  common (w ++ [c]) s

end Sys2Proof.Machine
end

