-- ==== Sys2Proof/Machine/Command.lean ====
section
/-!
DEFINITION. The four host commands (45_host_interface.md R241, R242, R244, R245) and the configuration check (R243).
-/

namespace Sys2Proof.Machine

/-- `ConfigCheck(dw, len)`: the width before the length (R243, R277). -/
def configCheck (dw : BitVec 5) (len : Nat) (s : State) : Res State :=
  if dw.toNat < 1 ∨ 16 < dw.toNat then raise .badConfig dw.toNat s
  else if overfull s.caps.lenMax len then raise .capacity 4 s
  else .ok s

/-- The lines both STARTs begin with, up to `MODE` (R241, R242). -/
@[simps] def beginCall (m : Mode) (s : State) : State :=
  { s with status := .busy, cause := .none, faultInfo := 0, dout := [], cout := [], mode := some m }

/-- `START_COMPRESS` of an engine that is not `BUSY` (R241). -/
def startCompress (s : State) : Res State := do
  let s ← configCheck s.cfgDigitW s.inBuf.length (beginCall .compress s)
  cInit ((s.setDigitW (some s.cfgDigitW)).setN (some s.inBuf.length))

/-- `START_DECOMPRESS` of an engine that is not `BUSY` (R242). -/
def startDecompress (s : State) : Res State := do
  let s ← configCheck s.cfgDigitW s.cfgLength (beginCall .decompress s)
  dInit ((s.setDigitW (some s.cfgDigitW)).setLength (some s.cfgLength))

/-- `CMD_NONE` (R244). -/
def execCmdNone (s : State) : Host.Outcome State Fault Refusal := .next s

/-- `START_COMPRESS`, ignored while `BUSY` (R241, R246). -/
def execStartCompress (s : State) : Host.Outcome State Fault Refusal :=
  if s.status = .busy then .next s else Res.outcome (startCompress s)

/-- `START_DECOMPRESS`, ignored while `BUSY` (R242, R246). -/
def execStartDecompress (s : State) : Host.Outcome State Fault Refusal :=
  if s.status = .busy then .next s else Res.outcome (startDecompress s)

/-- Every engine element at its power-on value; what the host owns and the parameters as they are (R245, R302). -/
@[simps] def State.powerOn (s : State) : State :=
  { State.reset with
    inBuf := s.inBuf, din := s.din, cfgDigitW := s.cfgDigitW, cfgLength := s.cfgLength, caps := s.caps, host := s.host }

/-- `RESET` (R245). -/
def execReset (s : State) : Host.Outcome State Fault Refusal := .next s.powerOn

end Sys2Proof.Machine
end

