-- ==== Sys2Proof/Machine/FirstToken.lean ====
section
/-!
DEFINITION. The four forms of the first token (44_decompressor.md R202 to R205). The token's bits have been read, and `SRC_POS` stands
after them, when a meaning runs (log entry 12).
-/

namespace Sys2Proof.Machine

/-- `F_LIT8` (R202). -/
def execFLit8 (p : BitVec 8) (s : State) : Host.Outcome State Fault Refusal := Res.outcome (firstLiteral (zext16 p) s)

/-- `F_LIT16` (R203). -/
def execFLit16 (p : BitVec 16) (s : State) : Host.Outcome State Fault Refusal := Res.outcome (firstLiteral p s)

/-- `F_EOS` (R204). -/
def execFEos (s : State) : Host.Outcome State Fault Refusal := .next s.finish

/-- `F_ILLEGAL`: `BAD_SELECTOR`, `FAULT_INFO` = 3 (R205, R272). -/
def execFIllegal (s : State) : Host.Outcome State Fault Refusal := Res.outcome (raise .badSelector 3 s)

end Sys2Proof.Machine
end

