-- ==== Sys2Proof/Machine/LoopToken.lean ====
section
/-!
DEFINITION. The six forms of a later token (44_decompressor.md R208 to R213). The token's bits have been read, and `SRC_POS` stands
after them, when a meaning runs (log entry 12).
-/

namespace Sys2Proof.Machine

/-- `LIT8` (R208). -/
def execLit8 (p : BitVec 8) (s : State) : Host.Outcome State Fault Refusal := Res.outcome (loopLiteral (zext16 p) s)

/-- `LIT16` (R209). -/
def execLit16 (p : BitVec 16) (s : State) : Host.Outcome State Fault Refusal := Res.outcome (loopLiteral p s)

/-- `EOS` (R210). -/
def execEos (s : State) : Host.Outcome State Fault Refusal := .next s.finish

/-- `REF` (R211). -/
def execRef (code : Nat) (s : State) : Host.Outcome State Fault Refusal := Res.outcome (loopRef code s)

/-- `REF_NEXT` (R212). -/
def execRefNext (s : State) : Host.Outcome State Fault Refusal := Res.outcome (loopRefNext s)

/-- `ILLEGAL`: `CORRUPT_CODE`, `FAULT_INFO` = the code (R213, R271). -/
def execIllegal (code : Nat) (s : State) : Host.Outcome State Fault Refusal := Res.outcome (raise .corruptCode code s)

end Sys2Proof.Machine
end

