-- ==== Sys2Proof/Machine/Dispatch.lean ====
section
/-! DEFINITION. One arm per instruction of spec/opcode_table.json. -/

namespace Sys2Proof.Machine

def exec (i : Instr) (s : State) : Host.Outcome State Fault Refusal :=
  match i with
  | .fLit8 p => Sys2Proof.Machine.execFLit8 p s
  | .fLit16 p => Sys2Proof.Machine.execFLit16 p s
  | .fEos => Sys2Proof.Machine.execFEos s
  | .fIllegal => Sys2Proof.Machine.execFIllegal s
  | .lit8 p => Sys2Proof.Machine.execLit8 p s
  | .lit16 p => Sys2Proof.Machine.execLit16 p s
  | .eos => Sys2Proof.Machine.execEos s
  | .ref code => Sys2Proof.Machine.execRef code s
  | .refNext => Sys2Proof.Machine.execRefNext s
  | .illegal code => Sys2Proof.Machine.execIllegal code s
  | .cmdNone => Sys2Proof.Machine.execCmdNone s
  | .startCompress => Sys2Proof.Machine.execStartCompress s
  | .startDecompress => Sys2Proof.Machine.execStartDecompress s
  | .reset => Sys2Proof.Machine.execReset s

end Sys2Proof.Machine
end

