-- ==== Sys2Proof/Machine/Engine.lean ====
section
/-!
DEFINITION. What a step does around `exec`: the engine's own move, the rule `PHASE` names run whole (45_host_interface.md R240, 10_state.md
R24), with the fetch of a token from the stream (44_decompressor.md R201, R206), and the host's moves (R240).
-/

namespace Sys2Proof.Machine

/-- The fetch of one token: its classifying field, then the payload that field calls for, each by `GetValue` (R201, R206), so that
`SRC_POS` moves past exactly the token's bits (R138). -/
def fetch (f : Format) (s : State) : Res (Instr × State) := do
  let h ← getValue (headWidth f) s
  let p ← getValue (payloadWidth f h.1) h.2
  .ok (assemble f h.1 p.1, p.2)

/-- Fetch a token and run it. -/
def runToken (f : Format) (s : State) : Host.Outcome State Fault Refusal :=
  match fetch f s with
  | .ok r => exec r.1 r.2
  | .error e => Res.outcome (.error e)

/-- `D_LOOP`: the exhaustion test, then one token under the current schedule (R206, R90). -/
def dLoop (s : State) : Host.Outcome State Fault Refusal :=
  match exhausted s, need .sched s.sched with
  | .ok true, _ => .next s.finish
  | .ok false, .ok sc => runToken (.loop sc.numBits sc.nextCode) s
  | .error e, _ => Res.outcome (.error e)
  | _, .error e => Res.outcome (.error e)

/-- The engine's move: the rule `PHASE` names (R24, R309). In `P_IDLE` and `P_HALT` the engine waits, and all its state stays (R248,
R286; log entry 11): that is `NONE`, the value of `CMD` whenever no command is issued (R244). -/
def engineStep (s : State) : Host.Outcome State Fault Refusal :=
  match s.phase with
  | .pIdle => exec .cmdNone s
  | .pCScan => Res.outcome (cScan s)
  | .pCFinal => Res.outcome (cFinal s)
  | .pDFirst => runToken .first s
  | .pDLoop => dLoop s
  | .pHalt => exec .cmdNone s

/-- A host write, which the host has only while `STATUS` ≠ `BUSY` (R38, R240, R305). -/
def hostWrite (written s : State) : Host.Outcome State Fault Refusal :=
  if s.status = .busy then .refused .hostWriteWhileBusy else .next written

/-- One move: the host's next one, or the engine's where the host has none to make (R240; log entry 3). -/
def advance (s : State) : Host.Outcome State Fault Refusal :=
  match s.host with
  | [] => engineStep s
  | .yield :: rest => engineStep (s.setHost rest)
  | .issue c :: rest => exec (decodeCmd c) (s.setHost rest)
  | .writeIn text :: rest => hostWrite ((s.setHost rest).setInBuf text) s
  | .writeDin digits :: rest => hostWrite ((s.setHost rest).setDin (digits ++ s.din.drop digits.length)) s
  | .writeDigitW w :: rest => hostWrite ((s.setHost rest).setCfgDigitW w) s
  | .writeLength len :: rest => hostWrite ((s.setHost rest).setCfgLength len) s

/-- A decompression whose stream begins with the given bits, in 16-bit digits, right after its START (R200), with the turn given to
the engine (log entry 16). -/
def State.withFirstToken (s : State) (bits : List Bool) : State :=
  { s with
    host := .yield :: s.host, status := .busy, phase := .pDFirst, mode := some .decompress, digitW := some 16,
    din := digitsOf 16 bits, length := some (digitsOf 16 bits).length, srcPos := some 0, ddict := some DDict.seed }

end Sys2Proof.Machine
end

