-- ==== Sys2Proof/Machine/Step.lean ====
section
/-! DEFINITION. The step, and the placing of one instruction where the next step fetches it. -/

namespace Sys2Proof.Machine

/-- One move of the host or of the engine (45_host_interface.md R240). -/
def step (s : State) : Host.Outcome State Fault Refusal := advance s

/-- The instruction whose table number is `w`, placed so that the very next step runs it: a command is issued on `CMD`, a first token
stands at the head of a decompression's stream (log entries 15 and 16). -/
def State.withFetchWord (s : State) (nbits w : Nat) : State :=
  match tableFormat nbits with
  | some .cmd => s.setHost (.issue (BitVec.ofNat 2 w) :: s.host)
  | some f => s.withFirstToken (tableBits f w)
  | none => s

end Sys2Proof.Machine
end

