-- ==== Sys2Proof/Safety.lean ====
section
/-!
DEFINITION. What holds between two moves of a run the rules allow: the invariants the spec states for the control fields (10_state.md R21
to R24, 45_host_interface.md R248), the absent elements (R40, R42), the compressor (40_bitsink.md R116, 42_width_schedule.md R156,
43_compressor.md R183, 20_memory.md R54 to R56) and the decompressor (42 R155, 44_decompressor.md R222), in one predicate `State.Inv`.
From a state that has it, no model fault can happen.
-/

namespace Sys2Proof.Machine

/-! ### Control -/

/-- What `FAULT_INFO` can be for a cause (R23, R270): a corrupt code is past a `NEXT_CODE` of at least 4. -/
def infoLegal : Cause → Nat → Prop
  | .none, i => i = 0
  | .corruptCode, i => 5 ≤ i
  | .badSelector, i => i = 3
  | .badConfig, i => i = 0 ∨ (17 ≤ i ∧ i ≤ 31)
  | .capacity, i => 1 ≤ i ∧ i ≤ 4

/-- `STATUS`, `PHASE`, `CAUSE` and `FAULT_INFO` agree (R21 to R24, R248). -/
structure State.ControlOk (s : State) : Prop where
  idle : s.phase = .pIdle ↔ s.status = .idle
  ended : s.phase = .pHalt ↔ s.status = .doneOk ∨ s.status = .doneFail
  failed : s.status = .doneFail ↔ s.cause ≠ .none
  info : infoLegal s.cause s.faultInfo

/-- The legal digit widths (R5, R25). -/
abbrev legalWidth (dw : BitVec 5) : Prop := 1 ≤ dw.toNat ∧ dw.toNat ≤ 16

/-! ### Power-on -/

/-- Every working element absent, both outputs empty (R300). -/
structure State.IdleOk (s : State) : Prop where
  mode : s.mode = none
  digitW : s.digitW = none
  length : s.length = none
  n : s.n = none
  ii : s.ii = none
  sched : s.sched = none
  sink : s.sink = none
  srcPos : s.srcPos = none
  cW : s.cW = none
  cdict : s.cdict = none
  pending : s.pending = none
  dW : s.dW = none
  ddict : s.ddict = none
  dout : s.dout = []
  cout : s.cout = []

/-! ### A compression -/

/-- The packer between two operations, with the digits it has output (R116). -/
structure PackerOk (dw : BitVec 5) (k : Sink) (dout : List Nat) : Prop where
  acc : k.acc < 2 ^ k.cnt
  cnt : k.cnt < dw.toNat
  digits : ∀ x ∈ dout, x < 2 ^ dw.toNat

/-- The compressor dictionary (R54, R55): canonical, codes 3 to `NEXT_CODE` - 1, keys nonempty, every longer key an extension of a key. -/
structure CDictOk (d : CDict) (nextCode : Nat) : Prop where
  wf : d.wf = true
  next : nextCode = d.length + 3
  nonempty : d.isKey [] = false
  prefixes : ∀ key c, key ≠ [] → d.isKey (key ++ [c]) = true → d.isKey key = true
  /-- R171 registers a character before any string that ends with it is inserted. -/
  lasts : ∀ key c, d.isKey (key ++ [c]) = true → d.isKey [c] = true

/-- The pending set (R56): canonical, its strings keys; and, because a character is sent when its match ends (R186), a pending
character is the current match and begins no longer key. -/
structure PendingOk (p : Pending) (d : CDict) (w : Str) : Prop where
  wf : p.wf = true
  key : ∀ v ∈ p, d.isKey [v] = true
  current : ∀ v ∈ p, w = [v]
  unextended : ∀ v ∈ p, ∀ t, d.isKey (v :: t) = true → t = []

/-- The compressor's schedule (R27 to R29) and its balance with the dictionary (R156). -/
structure CSchedOk (sc : Sched) (p : Pending) (w : Str) : Prop where
  numBits : 2 ≤ sc.numBits
  enlargeIn : 1 ≤ sc.enlargeIn
  balance : sc.nextCode + sc.enlargeIn + p.length = 2 ^ sc.numBits + 1 + 2 * (p.has w).toNat

/-- A compression between two steps: the elements present with the values given, those R42 calls unused absent. -/
structure CompOk (s : State) (dw : BitVec 5) (i : Nat) (sc : Sched) (k : Sink) (w : Str) (d : CDict) (p : Pending) : Prop where
  mode : s.mode = some .compress
  digitW : s.digitW = some dw
  width : legalWidth dw
  n : s.n = some s.inBuf.length
  ii : s.ii = some i
  sched : s.sched = some sc
  sink : s.sink = some k
  cW : s.cW = some w
  cdict : s.cdict = some d
  pending : s.pending = some p
  length : s.length = none
  srcPos : s.srcPos = none
  dW : s.dW = none
  ddict : s.ddict = none
  cout : s.cout = []
  packer : PackerOk dw k s.dout
  dictOk : CDictOk d sc.nextCode
  pendingOk : PendingOk p d w
  schedOk : CSchedOk sc p w
  /-- R183: `C_W` is `ε` before the first character and a key from then on. -/
  current : (i = 0 ∧ w = [] ∧ d = [] ∧ p = []) ∨ (0 < i ∧ d.isKey w = true)

/-! ### A decompression -/

/-- Before the first token (R42, R200). -/
structure FirstOk (s : State) (dw : BitVec 5) (len : Nat) : Prop where
  mode : s.mode = some .decompress
  digitW : s.digitW = some dw
  width : legalWidth dw
  length : s.length = some len
  lengthPos : 1 ≤ len
  srcPos : s.srcPos = some 0
  ddict : s.ddict = some DDict.seed
  n : s.n = none
  ii : s.ii = none
  sched : s.sched = none
  sink : s.sink = none
  cW : s.cW = none
  cdict : s.cdict = none
  pending : s.pending = none
  dW : s.dW = none
  dout : s.dout = []
  cout : s.cout = []

/-- The decompressor dictionary (R57, R222): canonical, one entry for each code below `NEXT_CODE`, placeholders at 0, 1 and 2, nonempty
strings from 3 up. -/
structure DDictOk (d : DDict) (nextCode : Nat) : Prop where
  codes : d.map (·.1) = List.range nextCode
  placeholders : ∀ k, k < 3 → d.get? k = some .rsv
  entries : ∀ k, 3 ≤ k → k < nextCode → ∃ t, t ≠ [] ∧ d.get? k = some (.str t)

/-- A decompression at a loop head: R155 and R222. -/
structure LoopOk (s : State) (dw : BitVec 5) (len pos : Nat) (sc : Sched) (w : Str) (d : DDict) : Prop where
  mode : s.mode = some .decompress
  digitW : s.digitW = some dw
  width : legalWidth dw
  length : s.length = some len
  lengthPos : 1 ≤ len
  srcPos : s.srcPos = some pos
  sched : s.sched = some sc
  dW : s.dW = some w
  ddict : s.ddict = some d
  n : s.n = none
  ii : s.ii = none
  sink : s.sink = none
  cW : s.cW = none
  cdict : s.cdict = none
  pending : s.pending = none
  dout : s.dout = []
  numBits : 3 ≤ sc.numBits
  enlargeIn : 1 ≤ sc.enlargeIn
  nextCode : 4 ≤ sc.nextCode
  balance : sc.nextCode + sc.enlargeIn = 2 ^ sc.numBits
  current : w ≠ []
  dictOk : DDictOk d sc.nextCode

/-! ### The invariant -/

/-- What each phase requires of the working state. -/
def State.PhaseOk (s : State) : Prop :=
  match s.phase with
  | .pIdle => s.IdleOk
  | .pCScan => ∃ dw i sc k w d p, CompOk s dw i sc k w d p ∧ i < s.inBuf.length
  | .pCFinal => ∃ dw i sc k w d p, CompOk s dw i sc k w d p ∧ i = s.inBuf.length ∧ 0 < i
  | .pDFirst => ∃ dw len, FirstOk s dw len
  | .pDLoop => ∃ dw len pos sc w d, LoopOk s dw len pos sc w d
  | .pHalt => True

/-- The invariant of a run: it holds at power-on, and every move keeps it. -/
structure State.Inv (s : State) : Prop where
  control : s.ControlOk
  work : s.PhaseOk

/-! ### The token of a match -/

/-- The token that stands for the match w in a compression: a literal of the form its value asks for while w is pending, else the
reference to its code (R86, R175). None for a w that is neither. -/
def matchToken (p : Pending) (d : CDict) (w : Str) : Option Instr :=
  if p.has w then
    match w with
    | [v] => some (if v.toNat < 128 then .lit8 (v.setWidth 8) else .lit16 v)
    | _ => none
  else (d.get? w).map .ref

/-- The schedule events of a token: two for a literal, one for a reference, none for an end (R154). -/
def tokenEvents : Instr → Nat
  | .lit8 _ => 2
  | .lit16 _ => 2
  | .ref _ => 1
  | .refNext => 1
  | _ => 0

/-- The token a stream holds at a bit position, and its length: the decoder on a window no token is longer than (R84). -/
def tokenAt (f : Format) (w len : Nat) (din : List Nat) (pos : Nat) : Instr × Nat :=
  decode f (streamBits w len din pos (headWidth f + 16))

/-! ### Runs -/

/-- The turn is the engine's: the host has no move to make, or leaves this one to the engine (log entry 3). -/
def State.engineTurn (s : State) : Prop := s.host = [] ∨ s.host.head? = some .yield

/-- The state in which a move begins: the host's move is taken off its list. -/
def State.taken (s : State) : State := s.setHost s.host.tail

/-- The host's next move is one R240 gives it: a write only while `STATUS` ≠ `BUSY` (R305). -/
def State.hostKeepsDuty (s : State) : Prop :=
  match s.host with
  | .writeIn _ :: _ => s.status ≠ .busy
  | .writeDin _ :: _ => s.status ≠ .busy
  | .writeDigitW _ :: _ => s.status ≠ .busy
  | .writeLength _ :: _ => s.status ≠ .busy
  | _ => True

/-- The outcome of k moves, stopping at the first fault or refusal. -/
def moves (k : Nat) (s : State) : Host.Outcome State Fault Refusal := Host.Core.run Sys2Proof.core k s

/-- Two digit buffers give the engine the same digits: the low w bits of the first len entries (R134, R135). -/
def sameDigits (w len : Nat) (a b : List Nat) : Prop := ∀ j < len, dinAt a j % 2 ^ w = dinAt b j % 2 ^ w

/-- `STATUS` is a DONE status: the call is over (R248). -/
def State.ended (s : State) : Prop := s.status = .doneOk ∨ s.status = .doneFail

/-- The default of D18: no capacity is bounded. -/
def State.unbounded (s : State) : Prop := s.caps = Config.Caps.unbounded

end Sys2Proof.Machine
end

