-- ==== Sys2Proof/Certificates/Slice0/Obligations.lean ====
section
/-!
DEFINITION. The statements for the provers: encodings, commands, token rules, compressor steps, packer, unpacker, schedule, faults,
invariants and whole-machine rules of the spec, each with the rule it formalises.
-/

open Sys2Proof Sys2Proof.Machine

/-! ### Encoding -/

/-- Words written out bit by bit from R81, R83 and R93 decode to the rows of R96 they stand for. -/
def Obligations.SampleWordsDecode : Prop :=
  decode .first [false, false, false, true, true, false, false, false, false, true] = (.fLit8 0x61, 10) ∧
  decode .first [false, true, false, false, true, false, false, true, true, false, false, false, false, false, false, true, false, true]
    = (.fLit16 0x2605, 18) ∧
  decode .first [true, false] = (.fEos, 2) ∧
  decode .first [true, true] = (.fIllegal, 2) ∧
  decode (.loop 3 4) [false, false, false, false, true, true, false, false, false, true, false] = (.lit8 0x62, 11) ∧
  decode (.loop 3 4) [false, true, false] = (.eos, 3) ∧
  decode (.loop 3 6) [true, false, true] = (.ref 5, 3) ∧
  decode (.loop 3 4) [true, false, false] = (.refNext, 3) ∧
  decode (.loop 3 4) [true, false, true] = (.illegal 5, 3) ∧
  decodeCmd 0 = .cmdNone ∧ decodeCmd 1 = .startCompress ∧ decodeCmd 2 = .startDecompress ∧ decodeCmd 3 = .reset

/-- Decoding an encoded well-formed instruction gives it back, with its length, whatever bits follow it: all formats, all operands. -/
def Obligations.DecodeEncodeRoundTrip : Prop :=
  ∀ (f : Format) (i : Instr) (rest : List Bool), i.wf f = true → decode f (encode f i ++ rest) = (i, (encode f i).length)

/-- R88, R94: every bit sequence decodes to exactly one row. What the decoder gives is well-formed, its bits are the ones read (zeros past
the end), and no other well-formed instruction has them. -/
def Obligations.EveryBitPatternIsOneRow : Prop :=
  ∀ (f : Format) (bits : List Bool),
    (decode f bits).1.wf f = true ∧
    encode f (decode f bits).1 = takeBits (decode f bits).2 bits ∧
    ∀ j : Instr, j.wf f = true → takeBits (encode f j).length bits = encode f j → j = (decode f bits).1

/-- R82, R84: what the code of a later token means, and how long the token is. The payload is the unsigned value of the 8 or 16 bits after
the code (R83). -/
def Obligations.CodeMeanings : Prop :=
  ∀ (numBits nextCode code : Nat) (bits : List Bool), 3 ≤ nextCode →
    valueOf Config.codeOrder (takeBits numBits bits) = code →
    (code = 0 → decode (.loop numBits nextCode) bits =
      (.lit8 (BitVec.ofNat 8 (valueOf Config.codeOrder (takeBits 8 (bits.drop numBits)))), numBits + 8)) ∧
    (code = 1 → decode (.loop numBits nextCode) bits =
      (.lit16 (BitVec.ofNat 16 (valueOf Config.codeOrder (takeBits 16 (bits.drop numBits)))), numBits + 16)) ∧
    (code = 2 → decode (.loop numBits nextCode) bits = (.eos, numBits)) ∧
    (3 ≤ code ∧ code < nextCode → decode (.loop numBits nextCode) bits = (.ref code, numBits)) ∧
    (code = nextCode → decode (.loop numBits nextCode) bits = (.refNext, numBits)) ∧
    (nextCode < code → decode (.loop numBits nextCode) bits = (.illegal code, numBits))

/-! ### The step -/

/-- A command the host issues is decoded and executed, its move taken off the host's list. -/
def Obligations.StepRunsIssuedCommand : Prop :=
  ∀ (s : State) (c : BitVec 2) (rest : List HostMove), s.host = .issue c :: rest →
    step s = exec (decodeCmd c) (s.setHost rest)

/-- R201: in `P_D_FIRST` the step executes the T0 token at `SRC_POS`, with `SRC_POS` moved past exactly its bits. -/
def Obligations.StepRunsFirstToken : Prop :=
  ∀ (s : State) (dw : BitVec 5) (len pos : Nat), s.engineTurn → s.phase = .pDFirst →
    s.digitW = some dw → s.length = some len → s.srcPos = some pos →
    step s = exec (tokenAt .first dw.toNat len s.din pos).1
      (s.taken.setSrcPos (some (pos + (tokenAt .first dw.toNat len s.din pos).2)))

/-- R206, R133, R90: in `P_D_LOOP` the step ends the call when the digit budget is used up, and else executes the token at `SRC_POS` under
the current schedule. That `SRC_POS` is past exactly the token's bits, payload included, when its meaning begins is log entry 12. -/
def Obligations.StepRunsLoopToken : Prop :=
  ∀ (s : State) (dw : BitVec 5) (len pos : Nat) (sc : Sched), s.engineTurn → s.phase = .pDLoop →
    s.digitW = some dw → s.length = some len → s.srcPos = some pos → s.sched = some sc →
    (len * dw.toNat ≤ pos → step s = .next { s.taken with status := .doneOk, phase := .pHalt }) ∧
    (pos < len * dw.toNat → step s = exec (tokenAt (.loop sc.numBits sc.nextCode) dw.toNat len s.din pos).1
      (s.taken.setSrcPos (some (pos + (tokenAt (.loop sc.numBits sc.nextCode) dw.toNat len s.din pos).2))))

/-- In `P_IDLE` and `P_HALT` the engine waits: its turn changes no element (R248, R286). That a turn passes at all is the model's
choice (log entry 11). -/
def Obligations.EngineWaitsWithoutACall : Prop :=
  ∀ s : State, s.engineTurn → (s.phase = .pIdle ∨ s.phase = .pHalt) → step s = .next s.taken

/-- The host's four writes change only what they name, and only while `STATUS` ≠ `BUSY`; a write while `BUSY` is refused (R240, R305). The
refusal (log entry 5) and what a write of `DIN` keeps (log entry 8) are the model's choice. -/
def Obligations.HostWritesOnlyWhileNotBusy : Prop :=
  ∀ (s : State) (rest : List HostMove) (text : Str) (digits : List Nat) (w : BitVec 5) (len : Nat),
    (s.status ≠ .busy →
      (s.host = .writeIn text :: rest → step s = .next { s with host := rest, inBuf := text }) ∧
      (s.host = .writeDin digits :: rest →
        ∃ din, step s = .next { s with host := rest, din := din } ∧
          ∀ j, dinAt din j = if h : j < digits.length then digits[j] else dinAt s.din j) ∧
      (s.host = .writeDigitW w :: rest → step s = .next { s with host := rest, cfgDigitW := w }) ∧
      (s.host = .writeLength len :: rest → step s = .next { s with host := rest, cfgLength := len })) ∧
    (s.status = .busy →
      (s.host = .writeIn text :: rest ∨ s.host = .writeDin digits :: rest ∨ s.host = .writeDigitW w :: rest ∨
        s.host = .writeLength len :: rest) → step s = .refused .hostWriteWhileBusy)

/-! ### Commands -/

/-- R244: `NONE` does nothing, in any state. -/
def Obligations.CmdNoneChangesNothing : Prop :=
  ∀ s : State, exec .cmdNone s = .next s

/-- R300, R42: the state at power-on, every working element absent. -/
def Obligations.PowerOnState : Prop :=
  State.reset.status = .idle ∧ State.reset.cause = .none ∧ State.reset.faultInfo = 0 ∧ State.reset.phase = .pIdle ∧
  State.reset.dout = [] ∧ State.reset.cout = [] ∧ State.reset.mode = none ∧ State.reset.digitW = none ∧
  State.reset.length = none ∧ State.reset.n = none ∧ State.reset.ii = none ∧ State.reset.sched = none ∧
  State.reset.sink = none ∧ State.reset.srcPos = none ∧ State.reset.cW = none ∧ State.reset.cdict = none ∧
  State.reset.pending = none ∧ State.reset.dW = none ∧ State.reset.ddict = none

/-- R245, R302: `RESET` in any state, also while `BUSY`, puts every engine element to its power-on value and leaves what the host owns. -/
def Obligations.ResetReturnsToPowerOn : Prop :=
  ∀ s : State, exec .reset s = .next { State.reset with
    inBuf := s.inBuf, din := s.din, cfgDigitW := s.cfgDigitW, cfgLength := s.cfgLength, caps := s.caps, host := s.host }

/-- R246: a START while `BUSY` changes no state. -/
def Obligations.StartWhileBusyIsIgnored : Prop :=
  ∀ s : State, s.status = .busy → exec .startCompress s = .next s ∧ exec .startDecompress s = .next s

/-- R170, R180: `START_COMPRESS` that passes the configuration check. With input left to read it leaves `P_C_SCAN` and the compressor's
seed; an empty `IN` ends the call at once. -/
def Obligations.StartCompressBegins : Prop :=
  ∀ s : State, s.status ≠ .busy → legalWidth s.cfgDigitW → overfull s.caps.lenMax s.inBuf.length = false →
    ∃ t, exec .startCompress s = .next t ∧
      t.cause = .none ∧ t.faultInfo = 0 ∧ t.mode = some .compress ∧ t.digitW = some s.cfgDigitW ∧ t.n = some s.inBuf.length ∧
      t.dout = [] ∧ t.cout = [] ∧ t.ii = some 0 ∧ t.cW = some [] ∧ t.cdict = some [] ∧ t.pending = some [] ∧
      t.sched = some ⟨2, 2, 3⟩ ∧ t.sink = some ⟨0, 0⟩ ∧
      (s.inBuf ≠ [] → t.status = .busy ∧ t.phase = .pCScan) ∧
      (s.inBuf = [] → t.status = .doneOk ∧ t.phase = .pHalt) ∧
      t.inBuf = s.inBuf ∧ t.din = s.din ∧ t.cfgDigitW = s.cfgDigitW ∧ t.cfgLength = s.cfgLength ∧ t.caps = s.caps ∧ t.host = s.host

/-- R200: `START_DECOMPRESS` that passes the configuration check. With a digit to read it leaves `P_D_FIRST` and the three placeholders;
a length of 0 ends the call at once. -/
def Obligations.StartDecompressBegins : Prop :=
  ∀ s : State, s.status ≠ .busy → legalWidth s.cfgDigitW → overfull s.caps.lenMax s.cfgLength = false →
    ∃ t, exec .startDecompress s = .next t ∧
      t.cause = .none ∧ t.faultInfo = 0 ∧ t.mode = some .decompress ∧ t.digitW = some s.cfgDigitW ∧ t.length = some s.cfgLength ∧
      t.dout = [] ∧ t.cout = [] ∧ t.srcPos = some 0 ∧ t.sched = none ∧ t.dW = none ∧
      (0 < s.cfgLength → t.status = .busy ∧ t.phase = .pDFirst ∧ t.ddict = some [(0, .rsv), (1, .rsv), (2, .rsv)]) ∧
      (s.cfgLength = 0 → t.status = .doneOk ∧ t.phase = .pHalt) ∧
      t.inBuf = s.inBuf ∧ t.din = s.din ∧ t.cfgDigitW = s.cfgDigitW ∧ t.cfgLength = s.cfgLength ∧ t.caps = s.caps ∧ t.host = s.host

/-- R243: the configuration check of both STARTs, the width before the length; a refused START leaves `DOUT` and `COUT` empty. That it
leaves the other elements as they were is read from the pseudocode (log entry 10). -/
def Obligations.ConfigCheckRefuses : Prop :=
  ∀ (s : State) (m : Mode) (len : Nat) (i : Instr),
    (m = .compress ∧ i = .startCompress ∧ len = s.inBuf.length) ∨ (m = .decompress ∧ i = .startDecompress ∧ len = s.cfgLength) →
    s.status ≠ .busy →
    (s.cfgDigitW.toNat < 1 ∨ 16 < s.cfgDigitW.toNat → exec i s = .next { s with
      status := .doneFail, phase := .pHalt, cause := .badConfig, faultInfo := s.cfgDigitW.toNat,
      dout := [], cout := [], mode := some m }) ∧
    (1 ≤ s.cfgDigitW.toNat ∧ s.cfgDigitW.toNat ≤ 16 → overfull s.caps.lenMax len = true → exec i s = .next { s with
      status := .doneFail, phase := .pHalt, cause := .capacity, faultInfo := 4, dout := [], cout := [], mode := some m })

/-- R303: a START that is not ignored and passes its check makes the whole state from the host-owned inputs, whatever came before. That
the elements R42 calls unused are emptied too is log entry 9. -/
def Obligations.StartForgetsHistory : Prop :=
  ∀ s r : State, s.status ≠ .busy → r.status ≠ .busy →
    r.inBuf = s.inBuf → r.din = s.din → r.cfgDigitW = s.cfgDigitW → r.cfgLength = s.cfgLength → r.caps = s.caps → r.host = s.host →
    legalWidth s.cfgDigitW →
    (overfull s.caps.lenMax s.inBuf.length = false → exec .startCompress r = exec .startCompress s) ∧
    (overfull s.caps.lenMax s.cfgLength = false → exec .startDecompress r = exec .startDecompress s)

/-! ### The first token -/

/-- R202, R203: a first token that is a literal of value v, when the bounded capacities have room. -/
def Obligations.FirstLiterals : Prop :=
  ∀ (s : State) (d : DDict) (i : Instr) (v : Char16), (∃ p : BitVec 8, i = .fLit8 p ∧ v = p.setWidth 16) ∨ i = .fLit16 v →
    s.ddict = some d → full s.caps.dict 3 = false → overfull s.caps.out (s.cout.length + 1) = false →
    exec i s = .next { s with
      ddict := some (d.put 3 (.str [v])), dW := some [v], cout := s.cout ++ [v], sched := some ⟨3, 4, 4⟩, phase := .pDLoop }

/-- R204, R210, R247: the two end tokens end the call normally, in any state: no insertion, no output, no schedule event. -/
def Obligations.EndTokensFinish : Prop :=
  ∀ s : State,
    exec .fEos s = .next { s with status := .doneOk, phase := .pHalt } ∧
    exec .eos s = .next { s with status := .doneOk, phase := .pHalt }

/-- R205, R213: the two illegal tokens raise their faults, in any state, and do nothing else. -/
def Obligations.IllegalTokensFault : Prop :=
  ∀ (s : State) (code : Nat),
    exec .fIllegal s = .next { s with cause := .badSelector, faultInfo := 3, status := .doneFail, phase := .pHalt } ∧
    exec (.illegal code) s = .next { s with cause := .corruptCode, faultInfo := code, status := .doneFail, phase := .pHalt }

/-! ### Later tokens -/

/-- R208, R209, with R214: a loop literal of value v makes two insertions and two schedule events, when the bounded capacities have room. -/
def Obligations.LoopLiterals : Prop :=
  ∀ (s : State) (sc : Sched) (d : DDict) (w : Str) (i : Instr) (v : Char16),
    (∃ p : BitVec 8, i = .lit8 p ∧ v = p.setWidth 16) ∨ i = .lit16 v →
    s.sched = some sc → s.ddict = some d → s.dW = some w →
    full s.caps.dict sc.nextCode = false → full s.caps.dict (sc.nextCode + 1) = false →
    overfull s.caps.out (s.cout.length + 1) = false →
    exec i s = .next { s with
      ddict := some ((d.put sc.nextCode (.str [v])).put (sc.nextCode + 1) (.str (w ++ [v]))),
      sched := some { Sched.ticks 2 sc with nextCode := sc.nextCode + 2 },
      cout := s.cout ++ [v], dW := some [v] }

/-- R211, with R214: a reference to the entry `DDICT[code]`, when the bounded capacities have room. -/
def Obligations.References : Prop :=
  ∀ (s : State) (sc : Sched) (d : DDict) (w e : Str) (c : Char16) (code : Nat),
    s.sched = some sc → 1 ≤ sc.enlargeIn → s.ddict = some d → s.dW = some w →
    d.get? code = some (.str e) → e.head? = some c →
    full s.caps.dict sc.nextCode = false → overfull s.caps.out (s.cout.length + e.length) = false →
    exec (.ref code) s = .next { s with
      ddict := some (d.put sc.nextCode (.str (w ++ [c]))), sched := some { sc.tick with nextCode := sc.nextCode + 1 },
      cout := s.cout ++ e, dW := some e }

/-- R212, with R214: a reference to the entry being created outputs and inserts the same string, `D_W` and its first character. -/
def Obligations.ReferencesToTheNextEntry : Prop :=
  ∀ (s : State) (sc : Sched) (d : DDict) (w : Str) (c : Char16),
    s.sched = some sc → 1 ≤ sc.enlargeIn → s.ddict = some d → s.dW = some w → w.head? = some c →
    full s.caps.dict sc.nextCode = false → overfull s.caps.out (s.cout.length + w.length + 1) = false →
    exec .refNext s = .next { s with
      ddict := some (d.put sc.nextCode (.str (w ++ [c]))), sched := some { sc.tick with nextCode := sc.nextCode + 1 },
      cout := s.cout ++ (w ++ [c]), dW := some (w ++ [c]) }

/-- R277: which capacity a decompressor token finds used up first. In a loop literal its own insertion comes before everything; in the
common part the output comes before the insertion. In the first token, which has no schedule yet, its insertion comes before its output. Each fault
leaves the writes made before it (R276). -/
def Obligations.CapacityFaultOrder : Prop :=
  -- the first token
  (∀ (s : State) (d : DDict) (v : Char16) (i : Instr), (∃ p : BitVec 8, i = .fLit8 p ∧ v = p.setWidth 16) ∨ i = .fLit16 v →
    s.ddict = some d →
    (full s.caps.dict 3 = true → exec i s = .next (s.enterFault .capacity 1)) ∧
    (full s.caps.dict 3 = false → overfull s.caps.out (s.cout.length + 1) = true →
      exec i s = .next (({ s with ddict := some (d.put 3 (.str [v])), dW := some [v] } : State).enterFault .capacity 3))) ∧
  ∀ (s : State) (sc : Sched) (d : DDict) (w e : Str) (c v : Char16) (code : Nat) (i : Instr),
    (∃ p : BitVec 8, i = .lit8 p ∧ v = p.setWidth 16) ∨ i = .lit16 v →
    s.sched = some sc → 1 ≤ sc.enlargeIn → s.ddict = some d → s.dW = some w → d.get? code = some (.str e) → e.head? = some c →
    -- a loop literal
    (full s.caps.dict sc.nextCode = true → exec i s = .next (s.enterFault .capacity 1)) ∧
    (full s.caps.dict sc.nextCode = false → overfull s.caps.out (s.cout.length + 1) = true →
      exec i s = .next (({ s with
        ddict := some (d.put sc.nextCode (.str [v])),
        sched := some { sc.tick with nextCode := sc.nextCode + 1 } } : State).enterFault .capacity 3)) ∧
    (full s.caps.dict sc.nextCode = false → overfull s.caps.out (s.cout.length + 1) = false →
      full s.caps.dict (sc.nextCode + 1) = true →
      exec i s = .next (({ s with
        ddict := some (d.put sc.nextCode (.str [v])),
        sched := some { sc.tick with nextCode := sc.nextCode + 1 }, cout := s.cout ++ [v] } : State).enterFault .capacity 1)) ∧
    -- the two references
    (overfull s.caps.out (s.cout.length + e.length) = true → exec (.ref code) s = .next (s.enterFault .capacity 3)) ∧
    (overfull s.caps.out (s.cout.length + e.length) = false → full s.caps.dict sc.nextCode = true →
      exec (.ref code) s = .next (({ s with cout := s.cout ++ e } : State).enterFault .capacity 1)) ∧
    (∀ x, w.head? = some x → overfull s.caps.out (s.cout.length + w.length + 1) = true →
      exec .refNext s = .next (s.enterFault .capacity 3)) ∧
    (∀ x, w.head? = some x → overfull s.caps.out (s.cout.length + w.length + 1) = false → full s.caps.dict sc.nextCode = true →
      exec .refNext s = .next (({ s with cout := s.cout ++ (w ++ [x]) } : State).enterFault .capacity 1))

/-! ### Compressor steps -/

/-- R172, in a step of R171: a known character that extends the match is read, and nothing else happens; `P_C_FINAL` after the last one
(R174). -/
def Obligations.ScanExtendsTheMatch : Prop :=
  ∀ (s : State) (i n : Nat) (c : Char16) (w : Str) (d : CDict), s.engineTurn → s.phase = .pCScan →
    s.ii = some i → s.n = some n → i < n → s.inBuf[i]? = some c → s.cW = some w → s.cdict = some d →
    d.isKey [c] = true → d.isKey (w ++ [c]) = true →
    step s = .next { s.taken with
      ii := some (i + 1), cW := some (w ++ [c]), phase := if i + 1 = n then .pCFinal else .pCScan }

/-- R171: a new character gets its code and its pending mark before anything else in its step (R185), so the step is the one of the state
in which it is registered; with no code left it is a fault, the character read. That no code is left where the next one is at or past
`DICT_CAPACITY` is R72 and R274, where R184 tests equality (log entry 21). -/
def Obligations.ScanRegistersANewCharacter : Prop :=
  ∀ (s : State) (i n : Nat) (c : Char16) (d : CDict) (p : Pending) (sc : Sched), s.engineTurn → s.phase = .pCScan →
    s.ii = some i → s.n = some n → i < n → s.inBuf[i]? = some c → s.cdict = some d → s.pending = some p → s.sched = some sc →
    d.isKey [c] = false →
    (full s.caps.dict sc.nextCode = false → step s = step { s with
      cdict := some (d.insert [c] sc.nextCode), pending := some (p.add c), sched := some { sc with nextCode := sc.nextCode + 1 } }) ∧
    (full s.caps.dict sc.nextCode = true → step s = .next (({ s.taken with ii := some (i + 1) } : State).enterFault .capacity 1))

/-- R173: a known character that does not extend the match. The token of the match goes out at the width in force (R175 to R178), then
come its schedule events (R154), then the candidate's insertion, and the character is the match. The two faults of the step come in the
order of R277: `CAPACITY` 2 inside the token leaves the digits that were output and no schedule event; `CAPACITY` 1 at the insertion comes
after the whole token, its pending mark and its events. -/
def Obligations.ScanSendsTheMatch : Prop :=
  ∀ (s : State) (i n : Nat) (c : Char16) (w : Str) (d : CDict) (p : Pending) (sc : Sched) (tok : Instr),
    s.engineTurn → s.phase = .pCScan → s.ii = some i → s.n = some n → i < n → s.inBuf[i]? = some c →
    s.cW = some w → s.cdict = some d → s.pending = some p → s.sched = some sc →
    d.isKey [c] = true → d.isKey (w ++ [c]) = false → matchToken p d w = some tok →
    (∀ u, putBits (encode (.loop sc.numBits sc.nextCode) tok) { s.taken with ii := some (i + 1) } = .ok u →
      (full s.caps.dict sc.nextCode = false → step s = .next { u with
        pending := some (p.filter fun v => w ≠ [v]),
        sched := some { Sched.ticks (tokenEvents tok) sc with nextCode := sc.nextCode + 1 },
        cdict := some (d.insert (w ++ [c]) sc.nextCode), cW := some [c],
        phase := if i + 1 = n then .pCFinal else .pCScan }) ∧
      (full s.caps.dict sc.nextCode = true → step s = .next (({ u with
        pending := some (p.filter fun v => w ≠ [v]),
        sched := some (Sched.ticks (tokenEvents tok) sc) } : State).enterFault .capacity 1))) ∧
    (∀ x, putBits (encode (.loop sc.numBits sc.nextCode) tok) { s.taken with ii := some (i + 1) } = .error (.raised x) →
      step s = .next x ∧
      ∃ dout sink, s.dout <+: dout ∧ full s.caps.out dout.length = true ∧
        x = ({ s.taken with ii := some (i + 1), dout := dout, sink := sink } : State).enterFault .capacity 2)

/-- R179: the last match's token, the end code at the width the token's events leave, the pad, the normal end. -/
def Obligations.FinalStepEndsTheStream : Prop :=
  ∀ (s u x : State) (w : Str) (d : CDict) (p : Pending) (sc : Sched) (tok : Instr),
    s.engineTurn → s.phase = .pCFinal → s.cW = some w → s.cdict = some d → s.pending = some p → s.sched = some sc →
    matchToken p d w = some tok →
    putBits (encode (.loop sc.numBits sc.nextCode) tok ++
      bitsOf Config.codeOrder (Sched.ticks (tokenEvents tok) sc).numBits 2) s.taken = .ok u → flush u = .ok x →
    step s = .next { x with
      pending := some (p.filter fun v => w ≠ [v]), sched := some (Sched.ticks (tokenEvents tok) sc),
      status := .doneOk, phase := .pHalt }

/-! ### The bit-packer -/

/-- R111: one bit, in its three cases. -/
def Obligations.PutBitAppendsOneBit : Prop :=
  ∀ (s : State) (dw : BitVec 5) (k : Sink) (b : Bool), s.digitW = some dw → 1 ≤ dw.toNat → s.sink = some k →
    (k.cnt ≠ dw.toNat - 1 → putBit b s = .ok { s with sink := some ⟨2 * k.acc + b.toNat, k.cnt + 1⟩ }) ∧
    (k.cnt = dw.toNat - 1 → full s.caps.out s.dout.length = false →
      putBit b s = .ok { s with dout := s.dout ++ [2 * k.acc + b.toNat], sink := some ⟨0, 0⟩ }) ∧
    (k.cnt = dw.toNat - 1 → full s.caps.out s.dout.length = true →
      putBit b s = .error (.raised (({ s with sink := some ⟨2 * k.acc + b.toNat, k.cnt⟩ } : State).enterFault .capacity 2)))

/-- R113: the pad, always one digit. -/
def Obligations.FlushPadsTheLastDigit : Prop :=
  ∀ (s : State) (dw : BitVec 5) (k : Sink), s.digitW = some dw → s.sink = some k →
    (full s.caps.out s.dout.length = false → flush s = .ok { s with
      dout := s.dout ++ [k.acc * 2 ^ (dw.toNat - k.cnt)], sink := some ⟨0, 0⟩ }) ∧
    (full s.caps.out s.dout.length = true → flush s = .error (.raised (s.enterFault .capacity 2)))

/-- R115: what the packer outputs for the bits put since `SinkInit`, and that the unpacker reads them back, followed by zeros. -/
def Obligations.PackerOutputsTheBits : Prop :=
  ∀ (s : State) (dw : BitVec 5) (bits : List Bool), s.digitW = some dw → 1 ≤ dw.toNat → s.caps.out = none →
    ∃ digits : List Nat,
      (putBits bits (sinkInit s) >>= flush) = .ok { s with dout := s.dout ++ digits, sink := some ⟨0, 0⟩ } ∧
      digits.length = bits.length / dw.toNat + 1 ∧
      (∀ k < digits.length, digits[k]? = some (((List.range dw.toNat).map fun i =>
        (bits.getD (k * dw.toNat + i) false).toNat * 2 ^ (dw.toNat - 1 - i)).sum)) ∧
      ∀ n, streamBit dw.toNat digits.length digits n = bits.getD n false

/-- R116: the packer's invariants hold after `SinkInit`, and every packer operation that completes keeps them. -/
def Obligations.PackerInvariantHolds : Prop :=
  ∀ (s t : State) (dw : BitVec 5) (k : Sink) (b : Bool), s.digitW = some dw → 1 ≤ dw.toNat → (∀ x ∈ s.dout, x < 2 ^ dw.toNat) →
    (∃ k₀, (sinkInit s).sink = some k₀ ∧ PackerOk dw k₀ (sinkInit s).dout) ∧
    (s.sink = some k → PackerOk dw k s.dout → (putBit b s = .ok t ∨ flush s = .ok t) →
      ∃ k', t.sink = some k' ∧ PackerOk dw k' t.dout)

/-! ### The bit-unpacker -/

/-- R134, R135: a digit of the budget is the host's, masked to `DIGIT_W` bits; from `LENGTH` up it is 0. The digit of an index the host has
never written is any value (log entry 7). -/
def Obligations.DigitInMasksAndPads : Prop :=
  ∀ (s : State) (dw : BitVec 5) (len j : Nat), s.digitW = some dw → s.length = some len →
    (∀ x, j < len → s.din[j]? = some x → digitIn j s = .ok (x % 2 ^ dw.toNat)) ∧
    (j < len → ∃ x, digitIn j s = .ok x ∧ x < 2 ^ dw.toNat) ∧
    (len ≤ j → digitIn j s = .ok 0)

/-- R132, with R131: n bits, the first read the most significant; `SRC_POS` grows by exactly n and nothing else changes. -/
def Obligations.GetValueReadsInOrder : Prop :=
  ∀ (s : State) (dw : BitVec 5) (len pos n : Nat), s.digitW = some dw → s.length = some len → s.srcPos = some pos →
    ∃ v, getValue n s = .ok (v, { s with srcPos := some (pos + n) }) ∧ v < 2 ^ n ∧
      v = (List.range n).foldl (fun r k =>
        2 * r + digitInOf dw.toNat len s.din ((pos + k) / dw.toNat) / 2 ^ (dw.toNat - 1 - (pos + k) % dw.toNat) % 2) 0

/-- R136: the eager form of the unpacker gives the same bit and stays the form of the position after it. -/
def Obligations.EagerUnpackerIsEquivalent : Prop :=
  ∀ (w len pos : Nat) (din : List Nat), 1 ≤ w →
    eagerGetBit w len din (eagerAt w len din pos) = (streamBit w len din pos, eagerAt w len din (pos + 1))

/-! ### The schedule -/

/-- R150: one schedule event; a growth uses the width before the increment. -/
def Obligations.TickCountsDownAndGrows : Prop :=
  ∀ numBits enlargeIn nextCode : Nat,
    Sched.tick ⟨numBits, 1, nextCode⟩ = ⟨numBits + 1, 2 ^ numBits, nextCode⟩ ∧
    (2 ≤ enlargeIn → Sched.tick ⟨numBits, enlargeIn, nextCode⟩ = ⟨numBits, enlargeIn - 1, nextCode⟩)

/-- The closed form of R159 from the compressor's seed, and the decompressor's seed as its row 2. -/
def Obligations.ScheduleClosedForm : Prop :=
  ∀ k : Nat,
    (Sched.ticks k ⟨2, 2, 3⟩).numBits = Nat.log2 (k + 2) + 1 ∧
    (Sched.ticks k ⟨2, 2, 3⟩).enlargeIn + 2 + k = 2 ^ (Sched.ticks k ⟨2, 2, 3⟩).numBits ∧
    Sched.ticks k ⟨3, 4, 4⟩ = { Sched.ticks (k + 2) ⟨2, 2, 3⟩ with nextCode := 4 }

/-! ### Faults -/

/-- R276: a fault entry writes four elements and keeps the rest, and nothing after the raise point runs. -/
def Obligations.FaultEntryEndsTheStep : Prop :=
  ∀ (s : State) (cause : Cause) (info : Nat) (rest : State → Res State),
    Res.outcome ((raise cause info s : Res State) >>= rest) =
      .next { s with cause := cause, faultInfo := info, status := .doneFail, phase := .pHalt }

/-- R274: the capacity checks of the four resources. Where the check fails the guarded write does not happen; where it passes, or the
capacity is unbounded, the write is the only effect. Each check has only the elements it reads as hypotheses. -/
def Obligations.CapacityChecksGuardTheWrite : Prop :=
  ∀ s : State,
    -- 1: a code at or past DICT_CAPACITY
    (∀ (sc : Sched) (d : CDict) (t : Str), s.sched = some sc → s.cdict = some d →
      (∀ bound, s.caps.dict = some bound → bound ≤ sc.nextCode → cInsert t s = .error (.raised (s.enterFault .capacity 1))) ∧
      ((∀ bound, s.caps.dict = some bound → sc.nextCode < bound) → cInsert t s = .ok { s with
        cdict := some (d.insert t sc.nextCode), sched := some { sc with nextCode := sc.nextCode + 1 } })) ∧
    (∀ (sc : Sched) (d : DDict) (t : Str), s.sched = some sc → s.ddict = some d →
      (∀ bound, s.caps.dict = some bound → bound ≤ sc.nextCode → dInsert t s = .error (.raised (s.enterFault .capacity 1))) ∧
      ((∀ bound, s.caps.dict = some bound → sc.nextCode < bound) → dInsert t s = .ok { s with
        ddict := some (d.put sc.nextCode (.str t)), sched := some { sc with nextCode := sc.nextCode + 1 } })) ∧
    (∀ (d : DDict) (t : Str), s.ddict = some d →
      (∀ bound, s.caps.dict = some bound → bound ≤ 3 → dInsertAt3 t s = .error (.raised (s.enterFault .capacity 1))) ∧
      ((∀ bound, s.caps.dict = some bound → 3 < bound) → dInsertAt3 t s = .ok { s with ddict := some (d.put 3 (.str t)) })) ∧
    -- 2: a digit where DOUT already holds OUT_CAPACITY
    (∀ x : Nat,
      (∀ bound, s.caps.out = some bound → bound ≤ s.dout.length → digitOut x s = .error (.raised (s.enterFault .capacity 2))) ∧
      ((∀ bound, s.caps.out = some bound → s.dout.length < bound) → digitOut x s = .ok { s with dout := s.dout ++ [x] })) ∧
    -- 3: an output that would make COUT longer than OUT_CAPACITY
    (∀ t : Str,
      (∀ bound, s.caps.out = some bound → bound < s.cout.length + t.length →
        charOut t s = .error (.raised (s.enterFault .capacity 3))) ∧
      ((∀ bound, s.caps.out = some bound → s.cout.length + t.length ≤ bound) → charOut t s = .ok { s with cout := s.cout ++ t })) ∧
    -- 4: a length greater than LEN_MAX
    (∀ (dw : BitVec 5) (len : Nat), legalWidth dw →
      (∀ bound, s.caps.lenMax = some bound → bound < len → configCheck dw len s = .error (.raised (s.enterFault .capacity 4))) ∧
      ((∀ bound, s.caps.lenMax = some bound → len ≤ bound) → configCheck dw len s = .ok s))

/-- R270, R275: a move that ends a call in failure has one of the four causes, where that cause is raised; `CAPACITY` needs a bound. -/
def Obligations.FaultsHaveTheirCauses : Prop :=
  ∀ s t : State, s.Inv → step s = .next t → s.status ≠ .doneFail → t.status = .doneFail →
    (t.cause = .corruptCode ∧ s.phase = .pDLoop ∧ ∃ sc, s.sched = some sc ∧ sc.nextCode < t.faultInfo) ∨
    (t.cause = .badSelector ∧ s.phase = .pDFirst ∧ t.faultInfo = 3) ∨
    (t.cause = .badConfig ∧ (s.cmdPort = 1 ∨ s.cmdPort = 2) ∧ t.faultInfo = s.cfgDigitW.toNat ∧ ¬ legalWidth s.cfgDigitW) ∨
    (t.cause = .capacity ∧ s.caps ≠ Config.Caps.unbounded ∧ 1 ≤ t.faultInfo ∧ t.faultInfo ≤ 4)

/-! ### What the host reads -/

/-- The encodings of R21, R22 and R25; the reads of R38, a digit of `DIN` as the host wrote it; and the result of a call (R249, R221):
none while it runs, at `DONE_OK` the digits of a compression or the text of a decompression, at `DONE_FAIL` the failure alone. -/
def Obligations.WhatTheHostReads : Prop :=
  ([Status.idle, Status.busy, Status.doneOk, Status.doneFail].map Status.code = [0, 1, 2, 3] ∧
    [Cause.none, Cause.corruptCode, Cause.badSelector, Cause.badConfig, Cause.capacity].map Cause.code = [0, 1, 2, 3, 4] ∧
    [Mode.compress, Mode.decompress].map Mode.code = [0, 1]) ∧
  (∀ s : State, s.hostReads.toObservation = ⟨s.status.code, s.cause.code, s.faultInfo, s.dout, s.cout⟩ ∧
    s.hostReads.cfgDigitW = s.cfgDigitW ∧ s.hostReads.cfgLength = s.cfgLength ∧ s.hostReads.inBuf = s.inBuf ∧
    s.hostReads.din = s.din ∧ ∀ j x, s.din[j]? = some x → s.readDin j = x) ∧
  ∀ s t : State, s.Inv → s.status = .busy → s.cmdPort ≠ 3 → step s = .next t →
    (t.status = .busy ∧ t.result? = none) ∨
    (t.status = .doneOk ∧ s.mode = some .compress ∧ t.result? = some (.digits t.dout)) ∨
    (t.status = .doneOk ∧ s.mode = some .decompress ∧ t.result? = some (.text t.cout)) ∨
    (t.status = .doneFail ∧ t.result? = some (.failure t.cause t.faultInfo))

/-! ### Invariants -/

/-- The invariant holds at power-on. -/
def Obligations.ResetHasInv : Prop := State.reset.Inv

/-- Every move that answers a next state keeps the invariant: from every state that has it. -/
def Obligations.StepKeepsInv : Prop :=
  ∀ s t : State, s.Inv → step s = .next t → t.Inv

/-- R309, R40: from every state that has the invariant the next move answers a next state, unless the host breaks its duty (R250 (a)): no
element is read while absent, and no running call gets stuck. -/
def Obligations.InvStepAnswersNext : Prop :=
  ∀ s : State, s.Inv → s.hostKeepsDuty → ∃ t, step s = .next t

/-- R155: the schedule and the dictionary at every loop head, and the codes that are illegal there (R96). -/
def Obligations.LoopHeadBalance : Prop :=
  ∀ (s t : State) (sc : Sched), s.Inv → step s = .next t → t.phase = .pDLoop → t.sched = some sc →
    sc.nextCode + sc.enlargeIn = 2 ^ sc.numBits ∧ 1 ≤ sc.enlargeIn ∧ sc.nextCode ≤ 2 ^ sc.numBits - 1 ∧
    (∀ code, code ≤ sc.nextCode → code < 2 ^ sc.numBits) ∧
    (∀ code, (Instr.illegal code).wf (.loop sc.numBits sc.nextCode) = true ↔
      sc.nextCode + 1 ≤ code ∧ code ≤ 2 ^ sc.numBits - 1)

/-- R156: the balance of the schedule, the dictionary and the pending set between two compressor steps. -/
def Obligations.CompressorBalance : Prop :=
  ∀ (s t : State) (sc : Sched) (p : Pending) (w : Str), s.Inv → step s = .next t → (t.phase = .pCScan ∨ t.phase = .pCFinal) →
    t.sched = some sc → t.pending = some p → t.cW = some w →
    sc.nextCode + sc.enlargeIn + p.length = 2 ^ sc.numBits + 1 + 2 * (if p.has w then 1 else 0)

/-- R158: the code of the token of a match, literal or reference, fits the width it is written with, and the end code fits the width the
token's schedule events leave, which is the one it is written with. A reference's code is at least 3 (R178). -/
def Obligations.CodesFitTheirField : Prop :=
  ∀ (s : State) (sc : Sched) (d : CDict) (p : Pending) (w : Str) (tok : Instr), s.Inv → (s.phase = .pCScan ∨ s.phase = .pCFinal) →
    s.sched = some sc → s.cdict = some d → s.pending = some p → s.cW = some w → matchToken p d w = some tok →
    headValue (.loop sc.numBits sc.nextCode) tok < 2 ^ sc.numBits ∧
    (∀ code, tok = .ref code → 3 ≤ code) ∧
    2 < 2 ^ (Sched.ticks (tokenEvents tok) sc).numBits

/-! ### Whole-machine rules -/

/-- R50, R51: only a host move writes a host-owned input, and no move writes a parameter. -/
def Obligations.OnlyTheHostWritesItsInputs : Prop :=
  ∀ s t : State, step s = .next t →
    (t.inBuf = s.inBuf ∨ s.host.head? = some (.writeIn t.inBuf)) ∧
    (t.din = s.din ∨ ∃ digits, s.host.head? = some (.writeDin digits)) ∧
    (t.cfgDigitW = s.cfgDigitW ∨ s.host.head? = some (.writeDigitW t.cfgDigitW)) ∧
    (t.cfgLength = s.cfgLength ∨ s.host.head? = some (.writeLength t.cfgLength)) ∧
    t.caps = s.caps ∧ t.host = s.host.tail

/-- R52, R53: `DOUT` and `COUT` are only appended to, but for a START that is not ignored and a RESET, which empty them. -/
def Obligations.OutputsOnlyGrow : Prop :=
  ∀ s t : State, step s = .next t →
    (s.dout <+: t.dout ∧ s.cout <+: t.cout) ∨ s.cmdPort = 3 ∨ ((s.cmdPort = 1 ∨ s.cmdPort = 2) ∧ s.status ≠ .busy)

/-- R21: where `STATUS` is written. -/
def Obligations.StatusIsWrittenOnlyHere : Prop :=
  ∀ s t : State, s.Inv → step s = .next t → t.status ≠ s.status →
    (t.status = .busy → s.cmdPort = 1 ∨ s.cmdPort = 2) ∧
    (t.status = .idle → s.cmdPort = 3) ∧
    (t.status = .doneOk ∨ t.status = .doneFail → s.status = .busy ∧ s.engineTurn ∨ s.cmdPort = 1 ∨ s.cmdPort = 2)

/-- R27, R29, R54, R57: while a call runs, the width and the next code never go down, and no dictionary entry is removed or changed. -/
def Obligations.CallsOnlyExtendTheirTables : Prop :=
  ∀ s t : State, s.Inv → s.status = .busy → s.cmdPort ≠ 3 → step s = .next t →
    (∀ sc, s.sched = some sc → ∃ sc', t.sched = some sc' ∧ sc.numBits ≤ sc'.numBits ∧ sc.nextCode ≤ sc'.nextCode) ∧
    (∀ d, s.cdict = some d → ∃ d', t.cdict = some d' ∧ d <+: d') ∧
    (∀ d, s.ddict = some d → ∃ d', t.ddict = some d' ∧ ∀ k e, d.get? k = some e → d'.get? k = some e)

/-- R56: a character enters the pending set only in the step that makes it a key, and every pending character is a key. -/
def Obligations.PendingEntersOnce : Prop :=
  ∀ (s t : State) (d d' : CDict) (p p' : Pending) (v : Char16), s.Inv → s.status = .busy → s.cmdPort ≠ 3 → step s = .next t →
    s.cdict = some d → s.pending = some p → t.cdict = some d' → t.pending = some p' → v ∈ p' →
    d'.isKey [v] = true ∧ (v ∈ p ∨ d.isKey [v] = false)

/-- R248, R278: once a call is over, what the engine shows the host (`STATUS`, `CAUSE`, `FAULT_INFO`, `DOUT`, `COUT`) stays as it is until a
START or a RESET. -/
def Obligations.EndedCallsStayEnded : Prop :=
  ∀ s t : State, s.Inv → s.ended → s.cmdPort = 0 → step s = .next t → t.observe = s.observe ∧ t.phase = .pHalt

/-- R249: a compression never writes `COUT`, a decompression never writes `DOUT`. -/
def Obligations.OtherBufferStaysEmpty : Prop :=
  ∀ s t : State, s.Inv → s.status = .busy → s.cmdPort ≠ 3 → step s = .next t →
    (s.mode = some .compress → t.cout = []) ∧ (s.mode = some .decompress → t.dout = [])

/-- R116, R65: every digit of a running or just ended compression fits `DIGIT_W` bits. -/
def Obligations.DigitsFitTheirWidth : Prop :=
  ∀ (s t : State) (dw : BitVec 5), s.Inv → s.status = .busy → s.cmdPort ≠ 3 → step s = .next t →
    s.mode = some .compress → s.digitW = some dw → ∀ x ∈ t.dout, x < 2 ^ dw.toNat

/-! ### What a call depends on -/

/-- R134, R135: a decompression reads only the low `DIGIT_W` bits of the first `LENGTH` digits. Two runs that differ in anything else of
`DIN` differ in nothing else. R223: where a step that begins with budget left ends the call normally, having read no bit past the budget,
then an end token was read, and any `LENGTH` that is larger, with any digits there, gives the same end. -/
def Obligations.DecompressionReadsOnlyItsDigits : Prop :=
  ∀ (s : State) (din' : List Nat) (dw : BitVec 5) (len : Nat), s.Inv → s.host = [] → s.mode = some .decompress →
    s.digitW = some dw → s.length = some len → sameDigits dw.toNat len s.din din' →
    (∀ k t, moves k s = .next t → moves k { s with din := din' } = .next { t with din := din' }) ∧
    (∀ k u t pos stop len', len ≤ len' → moves k s = .next u → u.status = .busy → u.srcPos = some pos → pos < len * dw.toNat →
      step u = .next t → t.status = .doneOk → t.srcPos = some stop → stop ≤ len * dw.toNat →
      moves (k + 1) { s with din := din', length := some len' } = .next { t with din := din', length := some len' })

/-- R181, R74: what the host observes of a compression, at every move of it, is a function of `IN`, `CFG_DIGIT_W` and the capacities. -/
def Obligations.CompressionIsAFunctionOfItsInput : Prop :=
  ∀ (s r s' r' u : State) (k : Nat), s.status ≠ .busy → r.status ≠ .busy → s.host = [] → r.host = [] →
    r.inBuf = s.inBuf → r.cfgDigitW = s.cfgDigitW → r.caps = s.caps →
    exec .startCompress s = .next s' → exec .startCompress r = .next r' → moves k s' = .next u →
    ∃ v, moves k r' = .next v ∧ v.observe = u.observe

/-! ### Termination and round trip -/

/-- R187, R182: the compression of N ≥ 1 characters takes exactly N + 1 engine steps, N of them in `P_C_SCAN` and one in `P_C_FINAL`, and
ends normally, with no capacity bounded. Whatever the capacities, a START is over after at most N + 1 steps. -/
def Obligations.CompressionTakesNPlusOneSteps : Prop :=
  (∀ s : State, s.status ≠ .busy → legalWidth s.cfgDigitW → s.unbounded → s.host = [] → s.inBuf ≠ [] →
    ∃ t, exec .startCompress s = .next t ∧
      (∀ k < s.inBuf.length, ∃ u, moves k t = .next u ∧ u.status = .busy ∧ u.phase = .pCScan) ∧
      (∃ u, moves s.inBuf.length t = .next u ∧ u.status = .busy ∧ u.phase = .pCFinal) ∧
      ∃ u, moves (s.inBuf.length + 1) t = .next u ∧ u.status = .doneOk ∧ u.phase = .pHalt) ∧
  ∀ s t : State, s.status ≠ .busy → s.host = [] → exec .startCompress s = .next t →
    ∃ k u, k ≤ s.inBuf.length + 1 ∧ moves k t = .next u ∧ u.ended

/-- R216, R310: a decompression is over after at most ⌈`LENGTH` × `DIGIT_W` / 3⌉ + 2 engine steps, whatever the digits and the
capacities. -/
def Obligations.DecompressionEnds : Prop :=
  ∀ s t : State, s.status ≠ .busy → s.host = [] → exec .startDecompress s = .next t →
    ∃ k u, k ≤ (s.cfgLength * s.cfgDigitW.toNat + 2) / 3 + 2 ∧ moves k t = .next u ∧ u.ended

/-- R217: decompressing what compression gives ends normally with the input, for every text and every digit width, through the host's own
moves (R251). -/
def Obligations.DecompressionInvertsCompression : Prop :=
  ∀ (s : State) (text : Str) (dw : BitVec 5), s.status ≠ .busy → s.unbounded → legalWidth dw →
    ∃ m t, moves m { s with host := [.writeIn text, .writeDigitW dw, .issue 1] } = .next t ∧ t.status = .doneOk ∧ t.host = [] ∧
      ∃ k u, moves k { t with host := [.writeDin t.dout, .writeLength t.dout.length, .issue 2] } = .next u ∧
        u.status = .doneOk ∧ u.host = [] ∧ u.cout = text
end

