-- ==== Sys2Proof/Laws/Dict.lean ====
section
/-!
SUPPORT. The dictionary structures: read after insertion, and that every operation keeps its structure's canonical form.
-/

namespace Sys2Proof.Machine

/-! ### CDICT -/

@[simp] theorem CDict.get?_nil (s : Str) : CDict.get? [] s = none := rfl

@[simp] theorem CDict.isKey_nil (s : Str) : CDict.isKey [] s = false := rfl

/-- An insertion is read back under its key, and leaves every other key alone (R54). -/
theorem CDict.get?_insert (d : CDict) (s t : Str) (c : Nat) :
    (d.insert s c).get? t = if (d.get? t).isSome then d.get? t else if s = t then some c else none := by
  induction d with
  | nil => simp [CDict.insert, CDict.get?]
  | cons e d ih =>
    obtain ⟨k, x⟩ := e
    simp only [CDict.insert, List.cons_append, CDict.get?] at ih ⊢
    split
    · simp
    · exact ih

@[simp] theorem CDict.isKey_insert (d : CDict) (s t : Str) (c : Nat) :
    (d.insert s c).isKey t = (d.isKey t || decide (s = t)) := by
  simp only [CDict.isKey, CDict.get?_insert]
  cases h : d.get? t <;> by_cases hs : s = t <;> simp [hs]

theorem CDict.isKey_iff (d : CDict) (s : Str) : d.isKey s = true ↔ s ∈ d.map (·.1) := by
  induction d with
  | nil => simp
  | cons e d ih =>
    obtain ⟨k, x⟩ := e
    simp only [CDict.isKey, CDict.get?] at ih ⊢
    by_cases h : k = s
    · simp [h]
    · simp [h, ih, Ne.symm h]

theorem CDict.get?_mem (d : CDict) (s : Str) (c : Nat) (h : d.get? s = some c) : (s, c) ∈ d := by
  induction d with
  | nil => simp at h
  | cons e d ih =>
    obtain ⟨k, x⟩ := e
    simp only [CDict.get?] at h
    split at h
    · simp_all
    · exact List.mem_cons_of_mem _ (ih h)

@[simp] theorem CDict.insert_length (d : CDict) (s : Str) (c : Nat) : (d.insert s c).length = d.length + 1 := by
  simp [CDict.insert]

/-- The next code of a new key keeps the canonical form (R54). -/
theorem CDict.insert_wf (d : CDict) (s : Str) (hd : d.wf = true) (hs : d.isKey s = false) :
    (d.insert s (d.length + 3)).wf = true := by
  have hs' : ¬ s ∈ d.map (·.1) := by rw [← CDict.isKey_iff]; simp [hs]
  simp only [CDict.wf, Bool.and_eq_true, decide_eq_true_eq] at hd ⊢
  obtain ⟨hn, hc⟩ := hd
  constructor
  · simp only [CDict.insert, List.map_append, List.map_cons, List.map_nil]
    refine List.Nodup.append hn (by simp) ?_
    simpa using hs'
  · simp only [CDict.insert, List.map_append, List.map_cons, List.map_nil, List.length_append, List.length_cons,
      List.length_nil, hc]
    rw [List.range'_concat]
    simp [Nat.add_comm]

/-- In canonical form every code is from 3 to 2 plus the number of keys (R54). -/
theorem CDict.get?_bounds (d : CDict) (s : Str) (c : Nat) (hd : d.wf = true) (h : d.get? s = some c) :
    3 ≤ c ∧ c < d.length + 3 := by
  simp only [CDict.wf, Bool.and_eq_true, decide_eq_true_eq] at hd
  have hm : c ∈ d.map (·.2) := List.mem_map.mpr ⟨(s, c), CDict.get?_mem d s c h, rfl⟩
  rw [hd.2, List.mem_range'_1] at hm
  omega

/-! ### PENDING -/

theorem Pending.mem_add (p : Pending) (v x : Char16) : x ∈ p.add v ↔ x = v ∨ x ∈ p := by
  induction p with
  | nil => simp [Pending.add]
  | cons y p ih =>
    simp only [Pending.add]
    split
    · simp
    · split
      · rename_i h; subst h; simp
      · simp only [List.mem_cons, ih]; tauto

theorem Pending.mem_remove (p : Pending) (v x : Char16) : x ∈ p.remove v ↔ x ∈ p ∧ x ≠ v := by
  simp [Pending.remove]

theorem Pending.has_iff (p : Pending) (s : Str) : p.has s = true ↔ ∃ v, s = [v] ∧ v ∈ p := by
  rcases s with _ | ⟨v, _ | ⟨x, t⟩⟩ <;> simp [Pending.has]

/-- Adding a character keeps the canonical form. -/
theorem Pending.add_wf (p : Pending) (v : Char16) (hp : p.wf = true) : (p.add v).wf = true := by
  simp only [Pending.wf, decide_eq_true_eq] at hp ⊢
  induction p with
  | nil => simp [Pending.add]
  | cons y p ih =>
    simp only [Pending.add]
    rw [List.pairwise_cons] at hp
    split
    · rename_i h
      refine List.pairwise_cons.mpr ⟨?_, List.pairwise_cons.mpr hp⟩
      intro x hx
      rcases List.mem_cons.mp hx with rfl | hx
      · exact h
      · exact BitVec.lt_trans h (hp.1 x hx)
    · split
      · exact List.pairwise_cons.mpr hp
      · rename_i h1 h2
        refine List.pairwise_cons.mpr ⟨?_, ih hp.2⟩
        intro x hx
        rcases (Pending.mem_add p v x).mp hx with rfl | hx
        · rw [BitVec.lt_def] at h1 ⊢
          have h3 : y.toNat ≠ x.toNat := fun h => h2 (BitVec.eq_of_toNat_eq h.symm)
          omega
        · exact hp.1 x hx

/-- Removing a character keeps the canonical form. -/
theorem Pending.remove_wf (p : Pending) (v : Char16) (hp : p.wf = true) : (p.remove v).wf = true := by
  simp only [Pending.wf, decide_eq_true_eq] at hp ⊢
  exact hp.sublist List.filter_sublist

theorem Pending.add_length (p : Pending) (v : Char16) (h : v ∉ p) : (p.add v).length = p.length + 1 := by
  induction p with
  | nil => rfl
  | cons y p ih =>
    simp only [List.mem_cons, not_or] at h
    simp only [Pending.add]
    split
    · rfl
    · rw [if_neg h.1]; simp [ih h.2]

/-! ### DDICT -/

/-- Read after write: the entry written, and every other code as before (R57). -/
@[simp] theorem DDict.get?_put (d : DDict) (k j : Nat) (e : DEntry) :
    (d.put k e).get? j = if j = k then some e else d.get? j := by
  induction d with
  | nil => by_cases h : k = j <;> simp [DDict.put, DDict.get?, h, Ne.symm]
  | cons x d ih =>
    obtain ⟨i, y⟩ := x
    simp only [DDict.put]
    split
    · by_cases h : k = j <;> simp [DDict.get?, h, eq_comm (a := j)]
    · split
      · rename_i hki
        subst hki
        by_cases h : j = k
        · simp [DDict.get?, h]
        · simp [DDict.get?, h, Ne.symm h]
      · rename_i h1 h2
        simp only [DDict.get?, ih]
        by_cases hij : i = j
        · subst hij; simp [Ne.symm h2]
        · simp [hij]

theorem DDict.put_codes (d : DDict) (k c : Nat) (e : DEntry) :
    c ∈ (d.put k e).map (·.1) ↔ c = k ∨ c ∈ d.map (·.1) := by
  induction d with
  | nil => simp [DDict.put]
  | cons x d ih =>
    obtain ⟨i, y⟩ := x
    simp only [DDict.put]
    split
    · simp
    · split
      · rename_i h; subst h; simp
      · simp only [List.map_cons, List.mem_cons, ih]; tauto

/-- A write keeps the canonical form. -/
theorem DDict.put_wf (d : DDict) (k : Nat) (e : DEntry) (hd : d.wf = true) : (d.put k e).wf = true := by
  simp only [DDict.wf, decide_eq_true_eq] at hd ⊢
  induction d with
  | nil => simp [DDict.put]
  | cons x d ih =>
    obtain ⟨i, y⟩ := x
    simp only [List.map_cons, List.pairwise_cons] at hd
    simp only [DDict.put]
    split
    · rename_i h
      simp only [List.map_cons, List.pairwise_cons]
      refine ⟨?_, hd⟩
      intro c hc
      rcases List.mem_cons.mp hc with rfl | hc
      · exact h
      · exact lt_trans h (hd.1 c hc)
    · split
      · rename_i h; subst h
        simpa using hd
      · rename_i h1 h2
        simp only [List.map_cons, List.pairwise_cons]
        refine ⟨?_, ih hd.2⟩
        intro c hc
        rcases (DDict.put_codes d k c e).mp hc with rfl | hc
        · omega
        · exact hd.1 c hc

/-- A write past every code there is stands last (R219). -/
theorem DDict.put_append (d : DDict) (k : Nat) (e : DEntry) (h : ∀ c ∈ d.map (·.1), c < k) : d.put k e = d ++ [(k, e)] := by
  induction d with
  | nil => rfl
  | cons x d ih =>
    obtain ⟨i, y⟩ := x
    have hi : i < k := h i (by simp)
    simp only [DDict.put]
    rw [if_neg (by omega), if_neg (by omega), ih fun c hc => h c (by simp [hc])]
    rfl

theorem DDict.seed_wf : DDict.seed.wf = true := by decide

end Sys2Proof.Machine
end

