-- ==== Sys2Proof/Laws/Fields.lean ====
section
/-!
SUPPORT. The bit fields of Decode.lean: lengths, values and the two round trips between a number and its bits.
-/

namespace Sys2Proof

@[simp] theorem msbBits_length (n v : Nat) : (msbBits n v).length = n := by
  induction n with
  | zero => rfl
  | succ n ih => simp [msbBits, ih]

@[simp] theorem bitsOf_length (o : Config.CodeOrder) (n v : Nat) : (bitsOf o n v).length = n := by
  cases o <;> simp [bitsOf]

@[simp] theorem bitsOf_zero (o : Config.CodeOrder) (v : Nat) : bitsOf o 0 v = [] := by
  cases o <;> rfl

/-- A started value shifts past the bits that follow. -/
theorem msbValue_eq (r : Nat) (bs : List Bool) : msbValue r bs = r * 2 ^ bs.length + msbValue 0 bs := by
  induction bs generalizing r with
  | nil => simp [msbValue]
  | cons b bs ih =>
    rw [msbValue, ih (2 * r + b.toNat), msbValue, ih (2 * 0 + b.toNat), List.length_cons, pow_succ]
    ring

theorem msbValue_append (r : Nat) (as bs : List Bool) : msbValue r (as ++ bs) = msbValue (msbValue r as) bs := by
  induction as generalizing r with
  | nil => rfl
  | cons a as ih => exact ih _

/-- A field's value is below `2^n` (R132). -/
theorem msbValue_lt (bs : List Bool) : msbValue 0 bs < 2 ^ bs.length := by
  induction bs with
  | nil => simp [msbValue]
  | cons b bs ih =>
    rw [msbValue, msbValue_eq, List.length_cons, pow_succ]
    have : b.toNat ≤ 1 := Bool.toNat_le b
    nlinarith

theorem valueOf_lt (o : Config.CodeOrder) (bs : List Bool) : valueOf o bs < 2 ^ bs.length := by
  cases o
  · exact msbValue_lt bs
  · simpa [valueOf] using msbValue_lt bs.reverse

/-- Reading the n bits of v gives v modulo `2^n` (R112, R132). -/
theorem msbValue_msbBits (n v : Nat) : msbValue 0 (msbBits n v) = v % 2 ^ n := by
  induction n with
  | zero => simp [msbBits, msbValue, Nat.mod_one]
  | succ n ih =>
    rw [msbBits, msbValue, msbValue_eq, ih, msbBits_length, Nat.testBit_eq_decide_div_mod_eq, pow_succ, Nat.mod_mul]
    have h : v / 2 ^ n % 2 = 0 ∨ v / 2 ^ n % 2 = 1 := by omega
    rcases h with h | h <;> simp [h]; ring

theorem valueOf_bitsOf (o : Config.CodeOrder) (n v : Nat) : valueOf o (bitsOf o n v) = v % 2 ^ n := by
  cases o <;> simp [valueOf, bitsOf, msbValue_msbBits]

theorem valueOf_bitsOf_of_lt (o : Config.CodeOrder) (n v : Nat) (h : v < 2 ^ n) : valueOf o (bitsOf o n v) = v := by
  rw [valueOf_bitsOf, Nat.mod_eq_of_lt h]

theorem msbBits_testBit_congr (n v w : Nat) (h : ∀ i < n, v.testBit i = w.testBit i) : msbBits n v = msbBits n w := by
  induction n with
  | zero => rfl
  | succ n ih => simp [msbBits, h n (by omega), ih fun i hi => h i (by omega)]

theorem msbBits_msbValue (bs : List Bool) (r : Nat) : msbBits bs.length (msbValue r bs) = bs := by
  induction bs generalizing r with
  | nil => rfl
  | cons b bs ih =>
    have hv := ih (2 * r + b.toNat)
    rw [msbValue, List.length_cons, msbBits, hv, msbValue_eq, Nat.testBit_eq_decide_div_mod_eq]
    have hlt := msbValue_lt bs
    have hd : ((2 * r + b.toNat) * 2 ^ bs.length + msbValue 0 bs) / 2 ^ bs.length = 2 * r + b.toNat := by
      rw [Nat.mul_comm, Nat.mul_add_div (Nat.two_pow_pos _), Nat.div_eq_of_lt hlt, Nat.add_zero]
    rw [hd]
    cases b <;> simp

theorem bitsOf_valueOf (o : Config.CodeOrder) (bs : List Bool) : bitsOf o bs.length (valueOf o bs) = bs := by
  cases o
  · exact msbBits_msbValue bs 0
  · have h := msbBits_msbValue bs.reverse 0
    simp only [List.length_reverse] at h
    simp [bitsOf, valueOf, h]

/-! ### Reading past the end -/

@[simp] theorem takeBits_length (n : Nat) (bs : List Bool) : (takeBits n bs).length = n := by
  simp [takeBits]

@[simp] theorem takeBits_zero (bs : List Bool) : takeBits 0 bs = [] := by simp [takeBits]

/-- Bits that are there are read as they stand. -/
theorem takeBits_of_le (n : Nat) (bs : List Bool) (h : n ≤ bs.length) : takeBits n bs = bs.take n := by
  simp [takeBits, List.take_append, Nat.sub_eq_zero_of_le h]

theorem takeBits_append (as bs : List Bool) : takeBits as.length (as ++ bs) = as := by
  rw [takeBits_of_le _ _ (by simp)]; simp

theorem takeBits_append_of_length (n : Nat) (as bs : List Bool) (h : as.length = n) : takeBits n (as ++ bs) = as := by
  subst h; exact takeBits_append as bs

/-! ### Payloads -/

@[simp] theorem zext16_toNat (p : BitVec 8) : (zext16 p).toNat = p.toNat := by
  simp only [zext16, BitVec.toNat_setWidth]
  have := p.isLt
  omega

@[simp] theorem payloadBits_length_le (i : Instr) : (payloadBits i).length ≤ 16 := by
  cases i <;> simp [payloadBits]

end Sys2Proof
end

