-- ==== Sys2Proof/Laws/State.lean ====
section
/-!
SUPPORT. Beside the lemmas `simps` gives for each named write of State (one per field, in State.lean, Ops.lean, Compressor.lean,
Decompressor.lean and Command.lean): the two inits of the packer and the unpacker, and power-on.
-/

namespace Sys2Proof.Machine

@[simp] theorem sinkInit_eq (s : State) : sinkInit s = s.setSink (some ⟨0, 0⟩) := rfl

@[simp] theorem srcInit_eq (s : State) : srcInit s = s.setSrcPos (some 0) := rfl

@[simp] theorem reset_status : State.reset.status = .idle := rfl
@[simp] theorem reset_phase : State.reset.phase = .pIdle := rfl
@[simp] theorem reset_cause : State.reset.cause = .none := rfl
@[simp] theorem reset_faultInfo : State.reset.faultInfo = 0 := rfl
@[simp] theorem reset_caps : State.reset.caps = Config.Caps.unbounded := rfl
@[simp] theorem reset_host : State.reset.host = [] := rfl

/-! ### A write of what is already there -/

@[simp] theorem setSink_self (s : State) (k : Option Sink) (h : s.sink = k) : s.setSink k = s := by subst h; rfl
@[simp] theorem setSrcPos_self (s : State) (p : Option Nat) (h : s.srcPos = p) : s.setSrcPos p = s := by subst h; rfl
@[simp] theorem setDout_self (s : State) (d : List Nat) (h : s.dout = d) : s.setDout d = s := by subst h; rfl
@[simp] theorem setDW_self (s : State) (v : Option Str) (h : s.dW = v) : s.setDW v = s := by subst h; rfl
@[simp] theorem setSched_self (s : State) (v : Option Sched) (h : s.sched = v) : s.setSched v = s := by subst h; rfl

/-! ### The second of two writes of one element counts -/

@[simp] theorem setSink_setSink (s : State) (a b : Option Sink) : (s.setSink a).setSink b = s.setSink b := rfl
@[simp] theorem setSrcPos_setSrcPos (s : State) (a b : Option Nat) : (s.setSrcPos a).setSrcPos b = s.setSrcPos b := rfl
@[simp] theorem setDout_setDout (s : State) (a b : List Nat) : (s.setDout a).setDout b = s.setDout b := rfl
@[simp] theorem setSched_setSched (s : State) (a b : Option Sched) : (s.setSched a).setSched b = s.setSched b := rfl
@[simp] theorem setSink_setDout (s : State) (a : Option Sink) (b : List Nat) :
    (s.setSink a).setDout b = (s.setDout b).setSink a := rfl

end Sys2Proof.Machine
end

