-- ==== Sys2Proof/Laws/Ops.lean ====
section
/-!
SUPPORT. How a `Res` ends, said once as a predicate with a rule for `bind`; then one lemma per shared operation of Ops.lean and
Schedule.lean that says everything it can do.
-/

namespace Sys2Proof.Machine

/-! ### Ending a step -/

@[simp] theorem Res.ok_bind {α β : Type} (a : α) (f : α → Res β) : ((Except.ok a : Res α) >>= f) = f a := rfl

@[simp] theorem Res.error_bind {α β : Type} (e : Stop) (f : α → Res β) : ((Except.error e : Res α) >>= f) = .error e := rfl

theorem Res.bind_ok {α β : Type} {r : Res α} {f : α → Res β} {b : β} (h : (r >>= f) = .ok b) :
    ∃ a, r = .ok a ∧ f a = .ok b := by
  cases r with
  | ok a => exact ⟨a, rfl, h⟩
  | error e => cases h

/-- The result meets `P`, or a fault entry ended the step in a state that meets `Q`, or `M` holds of a model fault. With `M` false
this says the step cannot stop. -/
def Res.Sat {α : Type} (M : Prop) (Q : State → Prop) (P : α → Prop) (r : Res α) : Prop :=
  match r with
  | .ok a => P a
  | .error (.raised s) => Q s
  | .error (.model _) => M

@[simp] theorem Res.sat_ok {α : Type} {M : Prop} {Q : State → Prop} {P : α → Prop} {a : α} :
    Res.Sat M Q P (.ok a) ↔ P a := Iff.rfl

@[simp] theorem Res.sat_raised {α : Type} {M : Prop} {Q : State → Prop} {P : α → Prop} {s : State} :
    Res.Sat M Q P (.error (.raised s) : Res α) ↔ Q s := Iff.rfl

@[simp] theorem Res.sat_model {α : Type} {M : Prop} {Q : State → Prop} {P : α → Prop} {f : Fault} :
    Res.Sat M Q P (.error (.model f) : Res α) ↔ M := Iff.rfl

theorem Res.Sat.bind {α β : Type} {M : Prop} {Q : State → Prop} {P : α → Prop} {P' : β → Prop} {r : Res α} {f : α → Res β}
    (hr : r.Sat M Q P) (hf : ∀ a, P a → (f a).Sat M Q P') : (r >>= f).Sat M Q P' := by
  match r, hr with
  | .ok a, hr => exact hf a hr
  | .error (.raised s), hr => exact hr
  | .error (.model m), hr => exact hr

theorem Res.Sat.mono {α : Type} {M : Prop} {Q Q' : State → Prop} {P P' : α → Prop} {r : Res α} (hr : r.Sat M Q P)
    (hp : ∀ a, P a → P' a) (hq : ∀ s, Q s → Q' s) : r.Sat M Q' P' := by
  match r, hr with
  | .ok a, hr => exact hp a hr
  | .error (.raised s), hr => exact hq s hr
  | .error (.model m), hr => exact hr

/-- An outcome is a next state that meets one of the two conditions, or a model fault. -/
theorem Res.Sat.outcome {M : Prop} {Q P : State → Prop} {r : Res State} (hr : r.Sat M Q P) :
    (∃ t, r.outcome = .next t ∧ (P t ∨ Q t)) ∨ (M ∧ ∃ f, r.outcome = .fault f) := by
  match r, hr with
  | .ok a, hr => exact .inl ⟨a, rfl, .inl hr⟩
  | .error (.raised s), hr => exact .inl ⟨s, rfl, .inr hr⟩
  | .error (.model m), hr => exact .inr ⟨hr, m, rfl⟩

@[simp] theorem outcome_ok (s : State) : Res.outcome (.ok s) = .next s := rfl

@[simp] theorem outcome_raised (s : State) : Res.outcome (.error (.raised s)) = .next s := rfl

@[simp] theorem outcome_model (f : Fault) : Res.outcome (.error (.model f)) = .fault f := rfl

@[simp] theorem raise_eq {α : Type} (c : Cause) (i : Nat) (s : State) :
    (raise c i s : Res α) = .error (.raised (s.enterFault c i)) := rfl

@[simp] theorem need_some {α : Type} (e : Element) (a : α) : need e (some a) = .ok a := rfl

@[simp] theorem need_none {α : Type} (e : Element) : (need e none : Res α) = .error (.model (.absent e)) := rfl

/-- Reading an element gives the value it holds, or stops. -/
theorem need_sat {α : Type} {M : Prop} {Q : State → Prop} (e : Element) (o : Option α) (hM : o = none → M) :
    (need e o).Sat M Q fun a => o = some a := by
  cases o with
  | none => exact hM rfl
  | some a => rfl

@[simp] theorem headOf_cons (c : Char16) (t : Str) : headOf (c :: t) = .ok c := rfl

/-! ### Capacities -/

@[simp] theorem full_none (n : Nat) : full none n = false := rfl

@[simp] theorem full_some (c n : Nat) : full (some c) n = decide (c ≤ n) := rfl

@[simp] theorem overfull_none (n : Nat) : overfull none n = false := rfl

@[simp] theorem overfull_some (c n : Nat) : overfull (some c) n = decide (c < n) := rfl

/-! ### What every operation of a call leaves alone -/

/-- The host-owned inputs, the parameters and the host's coming moves are the same. -/
structure SameInputs (s t : State) : Prop where
  inBuf : t.inBuf = s.inBuf
  din : t.din = s.din
  cfgDigitW : t.cfgDigitW = s.cfgDigitW
  cfgLength : t.cfgLength = s.cfgLength
  caps : t.caps = s.caps
  host : t.host = s.host

/-- Only appends to the outputs, and no host-owned input written (R50 to R53). -/
structure Grows (s t : State) : Prop where
  inputs : SameInputs s t
  dout : s.dout <+: t.dout
  cout : s.cout <+: t.cout

theorem SameInputs.refl (s : State) : SameInputs s s := ⟨rfl, rfl, rfl, rfl, rfl, rfl⟩

theorem SameInputs.trans {s t u : State} (h : SameInputs s t) (k : SameInputs t u) : SameInputs s u :=
  ⟨k.inBuf.trans h.inBuf, k.din.trans h.din, k.cfgDigitW.trans h.cfgDigitW, k.cfgLength.trans h.cfgLength,
    k.caps.trans h.caps, k.host.trans h.host⟩

theorem Grows.refl (s : State) : Grows s s := ⟨.refl s, List.prefix_rfl, List.prefix_rfl⟩

theorem Grows.trans {s t u : State} (h : Grows s t) (k : Grows t u) : Grows s u :=
  ⟨h.inputs.trans k.inputs, h.dout.trans k.dout, h.cout.trans k.cout⟩

/-- An operation that, wherever it ends, only appends to the outputs. -/
abbrev Appends (f : State → Res State) : Prop := ∀ s, (f s).Sat True (Grows s) (Grows s)

/-! A write of an element that is neither an output nor an input. -/

theorem grows_setPhase (s : State) (v : Phase) : Grows s (s.setPhase v) :=
  ⟨⟨rfl, rfl, rfl, rfl, rfl, rfl⟩, List.prefix_rfl, List.prefix_rfl⟩
theorem grows_setDigitW (s : State) (v : Option (BitVec 5)) : Grows s (s.setDigitW v) :=
  ⟨⟨rfl, rfl, rfl, rfl, rfl, rfl⟩, List.prefix_rfl, List.prefix_rfl⟩
theorem grows_setLength (s : State) (v : Option Nat) : Grows s (s.setLength v) :=
  ⟨⟨rfl, rfl, rfl, rfl, rfl, rfl⟩, List.prefix_rfl, List.prefix_rfl⟩
theorem grows_setN (s : State) (v : Option Nat) : Grows s (s.setN v) :=
  ⟨⟨rfl, rfl, rfl, rfl, rfl, rfl⟩, List.prefix_rfl, List.prefix_rfl⟩
theorem grows_setIi (s : State) (v : Option Nat) : Grows s (s.setIi v) :=
  ⟨⟨rfl, rfl, rfl, rfl, rfl, rfl⟩, List.prefix_rfl, List.prefix_rfl⟩
theorem grows_setSched (s : State) (v : Option Sched) : Grows s (s.setSched v) :=
  ⟨⟨rfl, rfl, rfl, rfl, rfl, rfl⟩, List.prefix_rfl, List.prefix_rfl⟩
theorem grows_setSink (s : State) (v : Option Sink) : Grows s (s.setSink v) :=
  ⟨⟨rfl, rfl, rfl, rfl, rfl, rfl⟩, List.prefix_rfl, List.prefix_rfl⟩
theorem grows_setSrcPos (s : State) (v : Option Nat) : Grows s (s.setSrcPos v) :=
  ⟨⟨rfl, rfl, rfl, rfl, rfl, rfl⟩, List.prefix_rfl, List.prefix_rfl⟩
theorem grows_setCW (s : State) (v : Option Str) : Grows s (s.setCW v) :=
  ⟨⟨rfl, rfl, rfl, rfl, rfl, rfl⟩, List.prefix_rfl, List.prefix_rfl⟩
theorem grows_setCdict (s : State) (v : Option CDict) : Grows s (s.setCdict v) :=
  ⟨⟨rfl, rfl, rfl, rfl, rfl, rfl⟩, List.prefix_rfl, List.prefix_rfl⟩
theorem grows_setPending (s : State) (v : Option Pending) : Grows s (s.setPending v) :=
  ⟨⟨rfl, rfl, rfl, rfl, rfl, rfl⟩, List.prefix_rfl, List.prefix_rfl⟩
theorem grows_setDW (s : State) (v : Option Str) : Grows s (s.setDW v) :=
  ⟨⟨rfl, rfl, rfl, rfl, rfl, rfl⟩, List.prefix_rfl, List.prefix_rfl⟩
theorem grows_setDdict (s : State) (v : Option DDict) : Grows s (s.setDdict v) :=
  ⟨⟨rfl, rfl, rfl, rfl, rfl, rfl⟩, List.prefix_rfl, List.prefix_rfl⟩

/-- An operation that appends, run after such a write. -/
theorem Appends.after {s t : State} {r : Res State} (h : Grows s t) (hr : r.Sat True (Grows t) (Grows t)) :
    r.Sat True (Grows s) (Grows s) :=
  hr.mono (fun _ k => h.trans k) (fun _ k => h.trans k)

theorem Appends.bind {s : State} {r : Res State} {f : State → Res State} (hr : r.Sat True (Grows s) (Grows s))
    (hf : Appends f) : (r >>= f).Sat True (Grows s) (Grows s) :=
  hr.bind fun a ha => (hf a).mono (fun _ h => ha.trans h) (fun _ h => ha.trans h)

theorem Appends.of_need {α : Type} {s : State} {e : Element} {o : Option α} {f : α → Res State}
    (hf : ∀ a, o = some a → (f a).Sat True (Grows s) (Grows s)) : (need e o >>= f).Sat True (Grows s) (Grows s) :=
  (need_sat e o fun _ => trivial).bind hf

theorem enterFault_grows (s : State) (c : Cause) (i : Nat) : Grows s (s.enterFault c i) :=
  ⟨⟨rfl, rfl, rfl, rfl, rfl, rfl⟩, List.prefix_rfl, List.prefix_rfl⟩

/-- `DigitOut` appends its digit, or takes `CAPACITY` 2 with nothing written (R114). -/
theorem digitOut_cases (d : Nat) (s : State) :
    (full s.caps.out s.dout.length = true ∧ digitOut d s = .error (.raised (s.enterFault .capacity 2))) ∨
    (full s.caps.out s.dout.length = false ∧ digitOut d s = .ok (s.setDout (s.dout ++ [d]))) := by
  unfold digitOut
  cases full s.caps.out s.dout.length <;> simp

/-- `CharOut` appends its string, or takes `CAPACITY` 3 with nothing written (R220). -/
theorem charOut_cases (t : Str) (s : State) :
    (overfull s.caps.out (s.cout.length + t.length) = true ∧ charOut t s = .error (.raised (s.enterFault .capacity 3))) ∨
    (overfull s.caps.out (s.cout.length + t.length) = false ∧ charOut t s = .ok (s.setCout (s.cout ++ t))) := by
  unfold charOut
  cases overfull s.caps.out (s.cout.length + t.length) <;> simp

/-- `CInsert` gives its string the next code, or takes `CAPACITY` 1 with nothing written (R184). -/
theorem cInsert_cases (t : Str) (s : State) {sc : Sched} {d : CDict} (hs : s.sched = some sc) (hd : s.cdict = some d) :
    (full s.caps.dict sc.nextCode = true ∧ cInsert t s = .error (.raised (s.enterFault .capacity 1))) ∨
    (full s.caps.dict sc.nextCode = false ∧ cInsert t s =
      .ok ((s.setCdict (some (d.insert t sc.nextCode))).setSched (some sc.bump))) := by
  simp only [cInsert, hs, hd, need_some, Res.ok_bind]
  cases full s.caps.dict sc.nextCode <;> simp

/-- `DInsert` puts its string at the next code, or takes `CAPACITY` 1 with nothing written (R219). -/
theorem dInsert_cases (t : Str) (s : State) {sc : Sched} {d : DDict} (hs : s.sched = some sc) (hd : s.ddict = some d) :
    (full s.caps.dict sc.nextCode = true ∧ dInsert t s = .error (.raised (s.enterFault .capacity 1))) ∨
    (full s.caps.dict sc.nextCode = false ∧ dInsert t s =
      .ok ((s.setDdict (some (d.put sc.nextCode (.str t)))).setSched (some sc.bump))) := by
  simp only [dInsert, hs, hd, need_some, Res.ok_bind]
  cases full s.caps.dict sc.nextCode <;> simp

/-- `DInsertAt3` puts its string at code 3, or takes `CAPACITY` 1 with nothing written (R219). -/
theorem dInsertAt3_cases (t : Str) (s : State) {d : DDict} (hd : s.ddict = some d) :
    (full s.caps.dict 3 = true ∧ dInsertAt3 t s = .error (.raised (s.enterFault .capacity 1))) ∨
    (full s.caps.dict 3 = false ∧ dInsertAt3 t s = .ok (s.setDdict (some (d.put 3 (.str t))))) := by
  simp only [dInsertAt3, hd, need_some, Res.ok_bind]
  cases full s.caps.dict 3 <;> simp

theorem codeOf_eq (t : Str) (s : State) {d : CDict} {c : Nat} (hd : s.cdict = some d) (h : d.get? t = some c) :
    codeOf t s = .ok c := by
  simp only [codeOf, hd, need_some, Res.ok_bind, h]

theorem entryAt_eq (code : Nat) (s : State) {d : DDict} {t : Str} (hd : s.ddict = some d) (h : d.get? code = some (.str t)) :
    entryAt code s = .ok t := by
  simp only [entryAt, hd, need_some, Res.ok_bind, h]

/-- `CharIn(i)` below `N` is `IN[i]` (R50). -/
theorem charIn_eq (i : Nat) (s : State) {n : Nat} (hn : s.n = some n) (hi : i < n) (hl : i < s.inBuf.length) :
    charIn i s = .ok s.inBuf[i] := by
  simp only [charIn, hn, need_some, Res.ok_bind, if_pos hi, List.getElem?_eq_getElem hl]

/-! ### They only append -/

theorem digitOut_appends (d : Nat) : Appends (digitOut d) := by
  intro s
  rcases digitOut_cases d s with ⟨_, h⟩ | ⟨_, h⟩ <;> rw [h]
  · exact enterFault_grows s _ _
  · exact ⟨⟨rfl, rfl, rfl, rfl, rfl, rfl⟩, List.prefix_append _ _, List.prefix_rfl⟩

theorem charOut_appends (t : Str) : Appends (charOut t) := by
  intro s
  rcases charOut_cases t s with ⟨_, h⟩ | ⟨_, h⟩ <;> rw [h]
  · exact enterFault_grows s _ _
  · exact ⟨⟨rfl, rfl, rfl, rfl, rfl, rfl⟩, List.prefix_rfl, List.prefix_append _ _⟩

theorem cInsert_appends (t : Str) : Appends (cInsert t) := by
  intro s
  refine Appends.of_need fun sc hs => Appends.of_need fun d hd => ?_
  split
  · exact enterFault_grows s _ _
  · exact ⟨⟨rfl, rfl, rfl, rfl, rfl, rfl⟩, List.prefix_rfl, List.prefix_rfl⟩

theorem dInsert_appends (t : Str) : Appends (dInsert t) := by
  intro s
  refine Appends.of_need fun sc hs => Appends.of_need fun d hd => ?_
  split
  · exact enterFault_grows s _ _
  · exact ⟨⟨rfl, rfl, rfl, rfl, rfl, rfl⟩, List.prefix_rfl, List.prefix_rfl⟩

theorem dInsertAt3_appends (t : Str) : Appends (dInsertAt3 t) := by
  intro s
  refine Appends.of_need fun d hd => ?_
  split
  · exact enterFault_grows s _ _
  · exact ⟨⟨rfl, rfl, rfl, rfl, rfl, rfl⟩, List.prefix_rfl, List.prefix_rfl⟩

theorem onSched_appends (f : Sched → Sched) : Appends (onSched f) := by
  intro s
  refine Appends.of_need fun sc hs => ?_
  exact ⟨⟨rfl, rfl, rfl, rfl, rfl, rfl⟩, List.prefix_rfl, List.prefix_rfl⟩

/-- A read that does not change the state keeps what is known of it. -/
theorem Appends.of_read {α : Type} {s : State} {r : Res α} {f : α → Res State} (hr : r.Sat True (fun _ => False) fun _ => True)
    (hf : ∀ a, (f a).Sat True (Grows s) (Grows s)) : (r >>= f).Sat True (Grows s) (Grows s) :=
  (hr.mono (fun _ h => h) (fun _ h => h.elim)).bind fun a _ => hf a

theorem headOf_reads (t : Str) : (headOf t).Sat True (fun _ => False) fun _ => True := by
  cases t <;> exact trivial

theorem codeOf_reads (t : Str) (s : State) : (codeOf t s).Sat True (fun _ => False) fun _ => True := by
  refine (need_sat _ _ fun _ => trivial).bind fun d _ => ?_
  cases d.get? t <;> exact trivial

theorem entryAt_reads (c : Nat) (s : State) : (entryAt c s).Sat True (fun _ => False) fun _ => True := by
  refine (need_sat _ _ fun _ => trivial).bind fun d _ => ?_
  rcases d.get? c with _ | _ | t <;> exact trivial

theorem charIn_reads (i : Nat) (s : State) : (charIn i s).Sat True (fun _ => False) fun _ => True := by
  refine (need_sat _ _ fun _ => trivial).bind fun n _ => ?_
  split
  · cases s.inBuf[i]? <;> exact trivial
  · exact trivial

/-! ### The schedule -/

@[simp] theorem onSched_some (f : Sched → Sched) (s : State) (sc : Sched) (h : s.sched = some sc) :
    onSched f s = .ok (s.setSched (some (f sc))) := by
  simp only [onSched, h, need_some, Res.ok_bind]

@[simp] theorem Sched.dec_numBits (sc : Sched) : sc.dec.numBits = sc.numBits := rfl
@[simp] theorem Sched.dec_nextCode (sc : Sched) : sc.dec.nextCode = sc.nextCode := rfl
@[simp] theorem Sched.dec_enlargeIn (sc : Sched) : sc.dec.enlargeIn = sc.enlargeIn - 1 := rfl

@[simp] theorem Sched.grow_nextCode (sc : Sched) : sc.grow.nextCode = sc.nextCode := by
  unfold Sched.grow; split <;> rfl

@[simp] theorem Sched.tick_nextCode (sc : Sched) : sc.tick.nextCode = sc.nextCode := by simp [Sched.tick]

/-- `Grow` does nothing while `ENLARGE_IN` is at least 1 (R151). -/
theorem Sched.grow_of_pos (sc : Sched) (h : 1 ≤ sc.enlargeIn) : sc.grow = sc := by
  unfold Sched.grow; rw [if_neg (by omega)]

/-- One event: the width stays or grows by one, and `ENLARGE_IN` counts down against `2^NUM_BITS` (R150). -/
theorem Sched.tick_spec (sc : Sched) (h : 1 ≤ sc.enlargeIn) :
    1 ≤ sc.tick.enlargeIn ∧ sc.numBits ≤ sc.tick.numBits ∧
      sc.tick.enlargeIn + 1 + 2 ^ sc.numBits = sc.enlargeIn + 2 ^ sc.tick.numBits := by
  unfold Sched.tick Sched.grow
  have := Nat.two_pow_pos sc.numBits
  split
  · rename_i h0
    simp only [Sched.dec_enlargeIn, Sched.dec_numBits] at h0 ⊢
    rw [pow_succ]; omega
  · rename_i h0
    simp only [Sched.dec_enlargeIn, Sched.dec_numBits] at h0 ⊢
    omega

end Sys2Proof.Machine
end

