-- ==== Sys2Proof/Laws/Operands.lean ====
section
/-!
SUPPORT. The bit-packer and the bit-unpacker: what each operation can do, and that the reads are the stream's bits in order.
-/

namespace Sys2Proof.Machine

/-! ### Bit-packer -/

theorem putBit_appends (b : Bool) : Appends (putBit b) := by
  intro s
  refine Appends.of_need fun k hk => Appends.of_need fun w hw => ?_
  split
  · refine (Appends.after (grows_setSink s _) (digitOut_appends _ _)).bind fun t ht => ?_
    exact ht.trans (grows_setSink _ _)
  · exact ⟨⟨rfl, rfl, rfl, rfl, rfl, rfl⟩, List.prefix_rfl, List.prefix_rfl⟩

theorem putBits_appends (bs : List Bool) : Appends (putBits bs) := by
  induction bs with
  | nil => exact fun s => Grows.refl s
  | cons b bs ih => exact fun s => Appends.bind (putBit_appends b s) ih

theorem putValue_appends (v n : Nat) : Appends (putValue v n) := putBits_appends _

theorem flush_appends : Appends flush := by
  intro s
  refine Appends.of_need fun k hk => Appends.of_need fun w hw => ?_
  refine (digitOut_appends _ s).bind fun t ht => ?_
  exact ht.trans (grows_setSink _ _)

/-- Bits put in two parts. -/
theorem putBits_append (a b : List Bool) (s : State) : putBits (a ++ b) s = (putBits a s >>= putBits b) := by
  induction a generalizing s with
  | nil => rfl
  | cons x a ih =>
    simp only [List.cons_append, putBits]
    cases putBit x s with
    | error e => rfl
    | ok t => simp only [Res.ok_bind, ih]

/-- A packer operation that completes changes `DOUT` and the packer, and nothing else. -/
theorem putBits_frame (bs : List Bool) (s u : State) (h : putBits bs s = .ok u) : u = (s.setDout u.dout).setSink u.sink := by
  induction bs generalizing s with
  | nil => cases h; rfl
  | cons b bs ih =>
    obtain ⟨t, h1, h2⟩ := Res.bind_ok h
    have ht : t = (s.setDout t.dout).setSink t.sink := by
      obtain ⟨k, hk, h1⟩ := Res.bind_ok h1
      obtain ⟨w, hw, h1⟩ := Res.bind_ok h1
      split at h1
      · obtain ⟨x, hx, h1⟩ := Res.bind_ok h1
        rcases digitOut_cases (2 * k.acc + b.toNat) (s.setSink (some ⟨2 * k.acc + b.toNat, k.cnt⟩)) with ⟨_, h⟩ | ⟨_, h⟩ <;>
          rw [h] at hx <;> cases hx
        cases h1; rfl
      · cases h1; rfl
    rw [ih t h2, ht]; rfl

/-- A packer operation that an engine fault ends: `CAPACITY` 2, `DOUT` full of the digits it held and output, nothing else but the packer
changed (R111, R114). -/
theorem putBits_raised (bs : List Bool) (s x : State) (h : putBits bs s = .error (.raised x)) :
    ∃ dout sink, s.dout <+: dout ∧ full s.caps.out dout.length = true ∧
      x = ((s.setDout dout).setSink sink).enterFault .capacity 2 := by
  induction bs generalizing s with
  | nil => cases h
  | cons b bs ih =>
    simp only [putBits] at h
    cases hb : putBit b s with
    | ok t =>
      rw [hb] at h
      have ht := putBits_frame [b] s t (by simp only [putBits, hb]; rfl)
      obtain ⟨dout, sink, hp, hf, rfl⟩ := ih t h
      have hg := putBit_appends b s
      rw [hb] at hg
      refine ⟨dout, sink, hg.dout.trans hp, by rw [← hg.inputs.caps]; exact hf, by rw [ht]; rfl⟩
    | error e =>
      rw [hb] at h
      cases h
      unfold putBit at hb
      rcases hk : s.sink with _ | k <;> rw [hk] at hb
      · cases hb
      rcases hw : s.digitW with _ | w <;> rw [hw] at hb
      · cases hb
      simp only [need_some, Res.ok_bind] at hb
      split at hb
      · rcases digitOut_cases (2 * k.acc + b.toNat) (s.setSink (some ⟨2 * k.acc + b.toNat, k.cnt⟩)) with ⟨hf, he⟩ | ⟨_, he⟩ <;>
          rw [he] at hb <;> cases hb
        exact ⟨s.dout, _, List.prefix_rfl, hf, rfl⟩
      · cases hb

/-- What a packer operation leaves: the same state but for a sound accumulator and sound new digits (R116). -/
def Packed (dw : BitVec 5) (s t : State) : Prop :=
  ∃ k more, PackerOk dw k (s.dout ++ more) ∧ t = (s.setDout (s.dout ++ more)).setSink (some k)

/-- How an engine fault can end an operation begun in `s`. -/
def Faulted (s t : State) : Prop :=
  ∃ u c i, t = State.enterFault u c i ∧ c ≠ .none ∧ infoLegal c i ∧ Grows s u

/-- One bit: the accumulator takes it, or the digit it completes goes out, or `CAPACITY` 2 (R111). -/
theorem putBit_sat (b : Bool) (s : State) {dw : BitVec 5} {k : Sink} (hw : s.digitW = some dw) (hk : s.sink = some k)
    (hp : PackerOk dw k s.dout) : (putBit b s).Sat False (Faulted s) (Packed dw s) := by
  obtain ⟨hacc, hcnt, hdig⟩ := hp
  have hb : b.toNat ≤ 1 := Bool.toNat_le b
  have hlt : 2 * k.acc + b.toNat < 2 ^ (k.cnt + 1) := by rw [pow_succ]; omega
  simp only [putBit, hw, hk, need_some, Res.ok_bind]
  by_cases hc : k.cnt = dw.toNat - 1
  · rw [if_pos hc]
    rcases digitOut_cases (2 * k.acc + b.toNat) (s.setSink (some ⟨2 * k.acc + b.toNat, k.cnt⟩)) with ⟨_, h⟩ | ⟨_, h⟩
    · rw [h]
      exact ⟨_, _, _, rfl, by simp, by simp [infoLegal], ⟨rfl, rfl, rfl, rfl, rfl, rfl⟩, List.prefix_rfl, List.prefix_rfl⟩
    · rw [h]
      refine ⟨⟨0, 0⟩, [2 * k.acc + b.toNat], ⟨by simp, by simp only []; omega, ?_⟩, rfl⟩
      intro x hx
      rcases List.mem_append.mp hx with hx | hx
      · exact hdig x hx
      · rw [List.mem_singleton.mp hx]
        have : k.cnt + 1 = dw.toNat := by omega
        rwa [← this]
  · rw [if_neg hc]
    refine ⟨⟨2 * k.acc + b.toNat, k.cnt + 1⟩, [], ⟨hlt, by simp only []; omega, by simpa using hdig⟩, ?_⟩
    simp

theorem Packed.digitW {dw : BitVec 5} {s t : State} (h : Packed dw s t) : t.digitW = s.digitW := by
  obtain ⟨k, m, _, rfl⟩ := h; rfl

theorem Packed.grows {dw : BitVec 5} {s t : State} (h : Packed dw s t) : Grows s t := by
  obtain ⟨k, m, _, rfl⟩ := h
  exact ⟨⟨rfl, rfl, rfl, rfl, rfl, rfl⟩, List.prefix_append _ _, List.prefix_rfl⟩

theorem Packed.trans {dw : BitVec 5} {s t u : State} (h : Packed dw s t) (k : Packed dw t u) : Packed dw s u := by
  obtain ⟨k1, m1, hp1, rfl⟩ := h
  obtain ⟨k2, m2, hp2, rfl⟩ := k
  refine ⟨k2, m1 ++ m2, ?_, ?_⟩
  · simpa using hp2
  · simp

theorem Faulted.of_grows {s t u : State} (h : Grows s t) (k : Faulted t u) : Faulted s u := by
  obtain ⟨v, c, i, rfl, hc, hi, hg⟩ := k
  exact ⟨v, c, i, rfl, hc, hi, h.trans hg⟩

/-- A sequence of bits from a sound packer (R111, R116). -/
theorem putBits_sat (bs : List Bool) (s : State) {dw : BitVec 5} {k : Sink} (hw : s.digitW = some dw) (hk : s.sink = some k)
    (hp : PackerOk dw k s.dout) : (putBits bs s).Sat False (Faulted s) (Packed dw s) := by
  induction bs generalizing s k with
  | nil => exact ⟨k, [], by simpa using hp, by rw [List.append_nil, ← hk]; rfl⟩
  | cons b bs ih =>
    refine (putBit_sat b s hw hk hp).bind fun t ht => ?_
    have hg := ht.grows
    have hd := ht.digitW
    obtain ⟨k', m, hp', rfl⟩ := ht
    refine (ih _ (hd.trans hw) rfl hp').mono (fun u hu => ?_) (fun u hu => Faulted.of_grows hg hu)
    exact Packed.trans ⟨k', m, hp', rfl⟩ hu

theorem putValue_sat (v n : Nat) (s : State) {dw : BitVec 5} {k : Sink} (hw : s.digitW = some dw) (hk : s.sink = some k)
    (hp : PackerOk dw k s.dout) : (putValue v n s).Sat False (Faulted s) (Packed dw s) := putBits_sat _ s hw hk hp

/-- The pad from a sound packer: one digit, and an empty accumulator (R113). -/
theorem flush_sat (s : State) {dw : BitVec 5} {k : Sink} (hw : s.digitW = some dw) (hk : s.sink = some k)
    (hp : PackerOk dw k s.dout) : (flush s).Sat False (Faulted s) (Packed dw s) := by
  obtain ⟨hacc, hcnt, hdig⟩ := hp
  simp only [flush, hw, hk, need_some, Res.ok_bind]
  rcases digitOut_cases (k.acc * 2 ^ (dw.toNat - k.cnt)) s with ⟨_, h⟩ | ⟨_, h⟩
  · rw [h]; exact ⟨_, _, _, rfl, by simp, by simp [infoLegal], Grows.refl s⟩
  · rw [h]
    refine ⟨⟨0, 0⟩, [k.acc * 2 ^ (dw.toNat - k.cnt)], ⟨by simp, by simp only []; omega, ?_⟩, rfl⟩
    intro x hx
    rcases List.mem_append.mp hx with hx | hx
    · exact hdig x hx
    · rw [List.mem_singleton.mp hx]
      calc k.acc * 2 ^ (dw.toNat - k.cnt) < 2 ^ k.cnt * 2 ^ (dw.toNat - k.cnt) :=
            Nat.mul_lt_mul_of_pos_right hacc (Nat.two_pow_pos _)
        _ = 2 ^ dw.toNat := by rw [← pow_add]; congr 1; omega

/-! ### Bit-unpacker -/

/-- One bit: the stream bit at `SRC_POS`, which moves on by one (R131). -/
theorem getBit_eq (s : State) {dw : BitVec 5} {len pos : Nat} (hp : s.srcPos = some pos) (hw : s.digitW = some dw)
    (hl : s.length = some len) :
    getBit s = .ok (streamBit dw.toNat len s.din pos, s.setSrcPos (some (pos + 1))) := by
  simp only [getBit, digitIn, hp, hw, hl, need_some, Res.ok_bind]; rfl

/-- Bits in order (R131). -/
theorem getBits_eq (n : Nat) (s : State) {dw : BitVec 5} {len pos : Nat} (hp : s.srcPos = some pos) (hw : s.digitW = some dw)
    (hl : s.length = some len) :
    getBits n s = .ok (streamBits dw.toNat len s.din pos n, s.setSrcPos (some (pos + n))) := by
  induction n generalizing s pos with
  | zero => simp only [getBits, streamBits, List.range_zero, List.map_nil, Nat.add_zero, ← hp]; rfl
  | succ n ih =>
    rw [getBits, getBit_eq s hp hw hl, Res.ok_bind, ih (s.setSrcPos (some (pos + 1))) rfl hw hl, Res.ok_bind]
    have h1 : pos + 1 + n = pos + (n + 1) := by omega
    simp only [streamBits, List.range_succ_eq_map, List.map_cons, List.map_map, Nat.add_zero, setSrcPos_setSrcPos, h1,
      State.setSrcPos_din]
    congr 3
    apply List.map_congr_left
    intro k _
    show streamBit _ _ _ (pos + 1 + k) = streamBit _ _ _ (pos + (k + 1))
    congr 1; omega

/-- The value of the next n bits; `SRC_POS` moves on by n, and nothing else changes (R132). -/
theorem getValue_eq (n : Nat) (s : State) {dw : BitVec 5} {len pos : Nat} (hp : s.srcPos = some pos) (hw : s.digitW = some dw)
    (hl : s.length = some len) :
    getValue n s = .ok (valueOf Config.codeOrder (streamBits dw.toNat len s.din pos n), s.setSrcPos (some (pos + n))) := by
  rw [getValue, getBits_eq n s hp hw hl, Res.ok_bind]

@[simp] theorem streamBits_length (w len : Nat) (din : List Nat) (pos n : Nat) : (streamBits w len din pos n).length = n := by
  simp [streamBits]

theorem streamBits_append (w len : Nat) (din : List Nat) (pos m n : Nat) :
    streamBits w len din pos (m + n) = streamBits w len din pos m ++ streamBits w len din (pos + m) n := by
  simp only [streamBits, List.range_add, List.map_append, List.map_map]
  congr 1
  apply List.map_congr_left
  intro k _
  show streamBit _ _ _ (pos + (m + k)) = streamBit _ _ _ (pos + m + k)
  congr 1; omega

theorem exhausted_eq (s : State) {dw : BitVec 5} {len pos : Nat} (hp : s.srcPos = some pos) (hw : s.digitW = some dw)
    (hl : s.length = some len) : exhausted s = .ok (decide (len * dw.toNat ≤ pos)) := by
  simp only [exhausted, hp, hw, hl, need_some, Res.ok_bind]

/-- A read of the stream changes only `SRC_POS`, wherever it stops. -/
theorem getBits_reads (n : Nat) (s : State) :
    (getBits n s).Sat True (fun _ => False) fun r => ∃ p, r.2 = s.setSrcPos p := by
  induction n generalizing s with
  | zero => exact ⟨s.srcPos, rfl⟩
  | succ n ih =>
    have hb : (getBit s).Sat True (fun _ => False) fun r => ∃ p, r.2 = s.setSrcPos p := by
      refine (need_sat _ _ fun _ => trivial).bind fun pos _ => (need_sat _ _ fun _ => trivial).bind fun w _ => ?_
      refine Res.Sat.bind (P := fun _ => True) ?_ fun d _ => ⟨some (pos + 1), rfl⟩
      exact (need_sat _ _ fun _ => trivial).bind fun w _ => (need_sat _ _ fun _ => trivial).bind fun l _ => trivial
    refine hb.bind fun b hb => (ih b.2).bind fun r hr => ?_
    obtain ⟨p, hp⟩ := hb
    obtain ⟨q, hq⟩ := hr
    exact ⟨q, by simp only [hq, hp, setSrcPos_setSrcPos]⟩

theorem getValue_reads (n : Nat) (s : State) :
    (getValue n s).Sat True (fun _ => False) fun r => ∃ p, r.2 = s.setSrcPos p :=
  (getBits_reads n s).bind fun _ hr => hr

end Sys2Proof.Machine
end

