-- ==== Sys2Proof/Laws/Compressor.lean ====
section
/-!
SUPPORT. The compressor: what each of its operations can do, first in any state (it only appends), then from a state that meets CompOk
(it completes, or an engine fault ends it, and CompOk holds again).
-/

namespace Sys2Proof.Machine

/-! ### In any state -/

theorem literalSent_appends (v : Char16) : Appends (literalSent v) := fun s =>
  Appends.of_need fun _ _ => (Appends.after (grows_setPending s _) (onSched_appends _ _)).bind fun t ht =>
    Appends.after ht (onSched_appends _ t)

theorem emitLit8_appends (v : Char16) : Appends (emitLit8 v) := fun s =>
  Appends.of_need fun _ _ => (putValue_appends _ _ s).bind fun t ht => Appends.after ht <|
    Appends.bind (putValue_appends _ _ t) (literalSent_appends v)

theorem emitLit16_appends (v : Char16) : Appends (emitLit16 v) := fun s =>
  Appends.of_need fun _ _ => (putValue_appends _ _ s).bind fun t ht => Appends.after ht <|
    Appends.bind (putValue_appends _ _ t) (literalSent_appends v)

theorem emitRef_appends (t : Str) : Appends (emitRef t) := fun s =>
  Appends.of_read (codeOf_reads t s) fun _ => Appends.of_need fun _ _ =>
    Appends.bind (putValue_appends _ _ s) (onSched_appends _)

theorem emit_appends (t : Str) : Appends (emit t) := by
  intro s
  refine Appends.of_need fun p _ => ?_
  split
  · refine Appends.of_read (headOf_reads t) fun v => ?_
    split
    · exact emitLit8_appends v s
    · exact emitLit16_appends v s
  · exact emitRef_appends t s

theorem registerChar_appends (c : Char16) : Appends (registerChar c) := by
  intro s
  refine Appends.of_need fun d _ => ?_
  split
  · exact Grows.refl s
  · exact (cInsert_appends _ s).bind fun t ht => Appends.after ht <|
      Appends.of_need fun p _ => grows_setPending t _

theorem extendMatch_appends (c : Char16) : Appends (extendMatch c) := by
  intro s
  refine Appends.of_need fun d _ => Appends.of_need fun w _ => ?_
  split
  · exact grows_setCW s _
  · exact (emit_appends w s).bind fun t ht => Appends.after ht <|
      (cInsert_appends _ t).bind fun u hu => hu.trans (grows_setCW u _)

theorem cScan_appends : Appends cScan := by
  intro s
  refine Appends.of_need fun i _ => Appends.of_need fun n _ => Appends.of_read (charIn_reads i s) fun c => ?_
  refine (Appends.after (grows_setIi s _) (registerChar_appends c _)).bind fun t ht => Appends.after ht <|
    (extendMatch_appends c t).bind fun u hu => ?_
  split
  · exact hu.trans (grows_setPhase u _)
  · exact hu

theorem finish_grows (s : State) : Grows s s.finish :=
  ⟨⟨rfl, rfl, rfl, rfl, rfl, rfl⟩, List.prefix_rfl, List.prefix_rfl⟩

theorem cFinal_appends : Appends cFinal := fun s =>
  Appends.of_need fun w _ => (emit_appends w s).bind fun t ht => Appends.after ht <|
    Appends.of_need fun _ _ => (putValue_appends _ _ t).bind fun u hu => Appends.after hu <|
      (flush_appends u).bind fun x hx => hx.trans (finish_grows x)

/-! ### Emission -/

/-- What is pending after the match w is sent (R176, R177). -/
def sentPending (p : Pending) (w : Str) : Pending := p.filter fun v => w ≠ [v]

/-- The schedule after the match w is sent: two events for a literal, one for a reference (R154). -/
def sentSched (sc : Sched) (p : Pending) (w : Str) : Sched := if p.has w then sc.tick.tick else sc.tick

theorem sentPending_remove (p : Pending) (v : Char16) : sentPending p [v] = p.remove v := by
  simp only [sentPending, Pending.remove]
  congr 1; funext x; simp [eq_comm]

theorem sentPending_of_not (p : Pending) (w : Str) (h : p.has w = false) : sentPending p w = p := by
  refine List.filter_eq_self.mpr fun v hv => ?_
  simp only [decide_eq_true_eq]
  rintro rfl
  simp [Pending.has, hv] at h

/-- The end of a literal: its pending mark gone and two events made (R176). -/
theorem literalSent_eq (v : Char16) (s : State) {p : Pending} {sc : Sched} (hp : s.pending = some p) (hs : s.sched = some sc) :
    literalSent v s = .ok ((s.setPending (some (p.remove v))).setSched (some sc.tick.tick)) := by
  rw [literalSent, hp, need_some, Res.ok_bind, tick, onSched_some _ (s.setPending (some (p.remove v))) sc hs, Res.ok_bind, tick,
    onSched_some _ _ sc.tick rfl, setSched_setSched]

/-- `EMIT(w)` of a key from a sound packer: bits into the packer, the pending mark of w gone, its schedule events made (R175). -/
theorem emit_sat (w : Str) (s : State) {dw : BitVec 5} {k : Sink} {sc : Sched} {d : CDict} {p : Pending} {c : Nat}
    (hw : s.digitW = some dw) (hk : s.sink = some k) (hs : s.sched = some sc) (hd : s.cdict = some d) (hp : s.pending = some p)
    (hpk : PackerOk dw k s.dout) (hc : d.get? w = some c) :
    (emit w s).Sat False (Faulted s) fun t => ∃ u, Packed dw s u ∧
      t = (u.setPending (some (sentPending p w))).setSched (some (sentSched sc p w)) := by
  have hlit : ∀ v code n, w = [v] → p.has w = true →
      ((putValue code sc.numBits s >>= fun s => putValue v.toNat n s >>= literalSent v) : Res State).Sat False (Faulted s)
        fun t => ∃ u, Packed dw s u ∧ t = (u.setPending (some (sentPending p w))).setSched (some (sentSched sc p w)) := by
    intro v code n hv hh
    refine (putValue_sat _ _ s hw hk hpk).bind fun t ht => ?_
    have htg := ht.grows
    have htd := ht.digitW.trans hw
    obtain ⟨k1, m1, hp1, rfl⟩ := ht
    refine ((putValue_sat _ _ _ htd rfl hp1).mono (fun _ h => h) fun _ h => Faulted.of_grows htg h).bind fun u hu => ?_
    have hup := Packed.trans ⟨k1, m1, hp1, rfl⟩ hu
    have hpen : u.pending = some p := by obtain ⟨_, _, _, rfl⟩ := hup; exact hp
    have hsch : u.sched = some sc := by obtain ⟨_, _, _, rfl⟩ := hup; exact hs
    rw [literalSent_eq v u hpen hsch]
    refine ⟨u, hup, ?_⟩
    subst hv
    simp only [sentSched, sentPending_remove, hh, if_true]
  unfold emit
  rw [hp, need_some, Res.ok_bind]
  split
  · rename_i hh
    obtain ⟨v, hv, hm⟩ := (Pending.has_iff p w).mp hh
    subst hv
    rw [headOf_cons, Res.ok_bind]
    split
    · unfold emitLit8; rw [hs, need_some, Res.ok_bind]; exact hlit v 0 8 rfl hh
    · unfold emitLit16; rw [hs, need_some, Res.ok_bind]; exact hlit v 1 16 rfl hh
  · rename_i hh
    have hh' : p.has w = false := by simpa using hh
    unfold emitRef
    rw [codeOf_eq w s hd hc, Res.ok_bind, hs, need_some, Res.ok_bind]
    refine (putValue_sat _ _ s hw hk hpk).bind fun u hu => ?_
    have hsch : u.sched = some sc := by obtain ⟨_, _, _, rfl⟩ := hu; exact hs
    have hpen : u.pending = some p := by obtain ⟨_, _, _, rfl⟩ := hu; exact hp
    rw [tick, onSched_some _ u sc hsch]
    refine ⟨u, hu, ?_⟩
    rw [sentPending_of_not p w hh', sentSched, hh']
    have : u.setPending (some p) = u := by rw [← hpen]; rfl
    rw [this]; rfl

/-! ### The working state of a compression -/

/-- The registration of c: a code and a pending mark if it is new (R171). -/
theorem registerChar_sat (c : Char16) (s : State) {sc : Sched} {d : CDict} {p : Pending} (hs : s.sched = some sc)
    (hd : s.cdict = some d) (hp : s.pending = some p) : (registerChar c s).Sat False (Faulted s) fun t =>
      (d.isKey [c] = true ∧ t = s) ∨ (d.isKey [c] = false ∧
        t = ((s.setCdict (some (d.insert [c] sc.nextCode))).setSched (some sc.bump)).setPending (some (p.add c))) := by
  unfold registerChar
  rw [hd, need_some, Res.ok_bind]
  split
  · rename_i h; exact .inl ⟨h, rfl⟩
  · rename_i h
    rcases cInsert_cases [c] s hs hd with ⟨_, h'⟩ | ⟨_, h'⟩ <;> rw [h']
    · exact ⟨_, _, _, rfl, by simp, by simp [infoLegal], Grows.refl s⟩
    · rw [Res.ok_bind]
      have : ((s.setCdict (some (d.insert [c] sc.nextCode))).setSched (some sc.bump)).pending = some p := hp
      rw [this]
      exact .inr ⟨by simpa using h, rfl⟩

/-- The match step: it extends the match, or sends it, inserts the candidate and starts again at c (R172, R173). -/
theorem extendMatch_sat (c : Char16) (s : State) {dw : BitVec 5} {k : Sink} {sc : Sched} {d : CDict} {p : Pending} {w : Str}
    (hw : s.digitW = some dw) (hk : s.sink = some k) (hs : s.sched = some sc) (hd : s.cdict = some d) (hp : s.pending = some p)
    (hcw : s.cW = some w) (hpk : PackerOk dw k s.dout) (hkey : d.isKey (w ++ [c]) = false → d.isKey w = true) :
    (extendMatch c s).Sat False (Faulted s) fun t =>
      (d.isKey (w ++ [c]) = true ∧ t = s.setCW (some (w ++ [c]))) ∨
      (d.isKey (w ++ [c]) = false ∧ ∃ u, Packed dw s u ∧
        t = ((((u.setPending (some (sentPending p w))).setCdict (some (d.insert (w ++ [c]) sc.nextCode))).setSched
          (some (sentSched sc p w).bump)).setCW (some [c]))) := by
  unfold extendMatch
  rw [hd, need_some, Res.ok_bind, hcw, need_some, Res.ok_bind]
  split
  · rename_i h; exact .inl ⟨h, rfl⟩
  · rename_i h
    have h' : d.isKey (w ++ [c]) = false := by simpa using h
    obtain ⟨code, hcode⟩ := Option.isSome_iff_exists.mp (hkey h')
    refine (emit_sat w s hw hk hs hd hp hpk hcode).bind fun t ht => ?_
    obtain ⟨u, hu, rfl⟩ := ht
    have hug := hu.grows
    have hud : u.cdict = some d := by obtain ⟨_, _, _, rfl⟩ := hu; exact hd
    have hn : (sentSched sc p w).nextCode = sc.nextCode := by unfold sentSched; split <;> simp
    have hg : Grows s ((u.setPending (some (sentPending p w))).setSched (some (sentSched sc p w))) :=
      (hug.trans (grows_setPending u _)).trans (grows_setSched _ _)
    rcases cInsert_cases (w ++ [c]) ((u.setPending (some (sentPending p w))).setSched (some (sentSched sc p w)))
      (sc := sentSched sc p w) (d := d) rfl hud with ⟨_, h2⟩ | ⟨_, h2⟩ <;> rw [h2]
    · exact ⟨_, _, _, rfl, by simp, by simp [infoLegal], hg⟩
    · refine .inr ⟨h', u, hu, ?_⟩
      rw [hn]; rfl

/-! ### What a step keeps -/

/-- Inserting a new key whose prefix and last character are keys keeps the dictionary's rules (R54, R55). -/
theorem CDictOk.insert {d : CDict} {n : Nat} (h : CDictOk d n) (key : Str) (c : Char16) (hn : d.isKey (key ++ [c]) = false)
    (hp : key ≠ [] → d.isKey key = true) (hl : key = [] ∨ d.isKey [c] = true) : CDictOk (d.insert (key ++ [c]) n) (n + 1) where
  wf := by rw [h.next]; exact CDict.insert_wf d _ h.wf hn
  next := by rw [CDict.insert_length, h.next]
  nonempty := by simp [h.nonempty]
  prefixes := by
    intro k x hk hx
    simp only [CDict.isKey_insert, Bool.or_eq_true, decide_eq_true_eq] at hx ⊢
    rcases hx with hx | hx
    · exact .inl (h.prefixes k x hk hx)
    · obtain ⟨rfl, _⟩ := List.append_inj' hx rfl
      exact .inl (hp hk)
  lasts := by
    intro k x hx
    simp only [CDict.isKey_insert, Bool.or_eq_true, decide_eq_true_eq] at hx ⊢
    rcases hx with hx | hx
    · exact .inl (h.lasts k x hx)
    · obtain ⟨rfl, hc⟩ := List.append_inj' hx rfl
      obtain rfl : c = x := by simpa using hc
      rcases hl with rfl | hl
      · exact .inr rfl
      · exact .inl hl

/-- No key begins with a character that is no key: the first character of a key is a key (R55). -/
theorem CDictOk.head {d : CDict} {n : Nat} (h : CDictOk d n) (c : Char16) (t : Str) (hk : d.isKey (c :: t) = true) :
    d.isKey [c] = true := by
  induction t using List.reverseRecOn with
  | nil => exact hk
  | append_singleton t x ih => exact ih (h.prefixes (c :: t) x (by simp) (by simpa using hk))

/-- The pending set between the registration of c and the end of the step: R156 with the 2 a new character adds still to be given back. -/
structure MidOk (sc : Sched) (d : CDict) (p : Pending) (w : Str) (c : Char16) (fresh : Bool) : Prop where
  dict : CDictOk d sc.nextCode
  char : d.isKey [c] = true
  prior : w = [] ∨ d.isKey w = true
  wf : p.wf = true
  key : ∀ v ∈ p, d.isKey [v] = true
  current : ∀ v ∈ p, w = [v] ∨ (fresh = true ∧ v = c)
  unextended : ∀ v ∈ p, ∀ t, d.isKey (v :: t) = true → t = []
  freshMem : fresh = true → c ∈ p ∧ w ≠ [c]
  freshOnly : fresh = true → ∀ key, d.isKey (key ++ [c]) = true → key = []
  noneYet : w = [] → fresh = true ∧ p = [c]
  numBits : 2 ≤ sc.numBits
  enlargeIn : 1 ≤ sc.enlargeIn
  balance : sc.nextCode + sc.enlargeIn + p.length = 2 ^ sc.numBits + 1 + 2 * (p.has w).toNat + 2 * fresh.toNat

/-- A known character needs no registration. -/
theorem MidOk.of_known {sc : Sched} {d : CDict} {p : Pending} {w : Str} (c : Char16) (hd : CDictOk d sc.nextCode)
    (hp : PendingOk p d w) (hs : CSchedOk sc p w) (hw : d.isKey w = true) (hc : d.isKey [c] = true) :
    MidOk sc d p w c false where
  dict := hd
  char := hc
  prior := .inr hw
  wf := hp.wf
  key := hp.key
  current := fun v hv => .inl (hp.current v hv)
  unextended := hp.unextended
  freshMem := by simp
  freshOnly := by simp
  noneYet := by rintro rfl; rw [hd.nonempty] at hw; cases hw
  numBits := hs.numBits
  enlargeIn := hs.enlargeIn
  balance := by simpa using hs.balance

/-- A new character is registered with the next code and a pending mark (R171). -/
theorem MidOk.of_new {sc : Sched} {d : CDict} {p : Pending} {w : Str} (c : Char16) (hd : CDictOk d sc.nextCode)
    (hp : PendingOk p d w) (hs : CSchedOk sc p w) (hw : (w = [] ∧ d = [] ∧ p = []) ∨ d.isKey w = true)
    (hc : d.isKey [c] = false) : MidOk sc.bump (d.insert [c] sc.nextCode) (p.add c) w c true where
  dict := by simpa using hd.insert [] c hc (by simp) (.inl rfl)
  char := by simp
  prior := by rcases hw with ⟨h, _⟩ | h <;> simp [h]
  wf := Pending.add_wf p c hp.wf
  key := by
    intro v hv
    rcases (Pending.mem_add p c v).mp hv with rfl | hv
    · simp
    · simp [hp.key v hv]
  current := by
    intro v hv
    rcases (Pending.mem_add p c v).mp hv with rfl | hv
    · exact .inr ⟨rfl, rfl⟩
    · exact .inl (hp.current v hv)
  unextended := by
    intro v hv t ht
    simp only [CDict.isKey_insert, Bool.or_eq_true, decide_eq_true_eq] at ht
    rcases ht with ht | ht
    · rcases (Pending.mem_add p c v).mp hv with rfl | hv
      · rw [hd.head v t ht] at hc; cases hc
      · exact hp.unextended v hv t ht
    · simpa using (List.cons.inj ht).2.symm
  freshMem := by
    refine fun _ => ⟨(Pending.mem_add p c c).mpr (.inl rfl), ?_⟩
    rintro rfl
    rcases hw with ⟨h, _⟩ | h
    · cases h
    · rw [h] at hc; cases hc
  freshOnly := by
    intro _ key hk
    simp only [CDict.isKey_insert, Bool.or_eq_true, decide_eq_true_eq] at hk
    rcases hk with hk | hk
    · rw [hd.lasts key c hk] at hc; cases hc
    · exact (List.append_inj' (s₁ := []) hk rfl).1.symm
  noneYet := by
    rintro rfl
    rcases hw with ⟨_, _, rfl⟩ | h
    · exact ⟨rfl, rfl⟩
    · rw [hd.nonempty] at h; cases h
  numBits := hs.numBits
  enlargeIn := hs.enlargeIn
  balance := by
    have hcp : c ∉ p := fun h => by rw [hp.key c h] at hc; cases hc
    have hh : Pending.has (p.add c) w = p.has w := by
      rw [Bool.eq_iff_iff, Pending.has_iff, Pending.has_iff]
      constructor
      · rintro ⟨v, rfl, hv⟩
        rcases (Pending.mem_add p c v).mp hv with rfl | hv
        · rcases hw with ⟨h, _⟩ | h
          · cases h
          · rw [h] at hc; cases hc
        · exact ⟨v, rfl, hv⟩
      · rintro ⟨v, rfl, hv⟩; exact ⟨v, rfl, (Pending.mem_add p c v).mpr (.inr hv)⟩
    have hb := hs.balance
    rw [Pending.add_length p c hcp, hh, Sched.bump_nextCode, Sched.bump_enlargeIn, Sched.bump_numBits]
    simp only [Bool.toNat_true]
    omega

/-- An extending step leaves nothing pending but a first character (R172). -/
theorem MidOk.extend {sc : Sched} {d : CDict} {p : Pending} {w : Str} {c : Char16} {fresh : Bool} (h : MidOk sc d p w c fresh)
    (he : d.isKey (w ++ [c]) = true) : PendingOk p d (w ++ [c]) ∧ CSchedOk sc p (w ++ [c]) := by
  rcases h.prior with rfl | hw
  · obtain ⟨rfl, rfl⟩ := h.noneYet rfl
    refine ⟨⟨h.wf, h.key, by simp, h.unextended⟩, ⟨h.numBits, h.enlargeIn, ?_⟩⟩
    have := h.balance
    simpa [Pending.has] using this
  · have hw0 : w ≠ [] := by rintro rfl; rw [h.dict.nonempty] at hw; cases hw
    have hp0 : p = [] := by
      refine List.eq_nil_iff_forall_not_mem.mpr fun v hv => ?_
      rcases h.current v hv with rfl | ⟨hf, _⟩
      · cases h.unextended v hv [c] (by simpa using he)
      · exact hw0 (h.freshOnly hf w he)
    subst hp0
    have hf : fresh = false := by
      cases hf : fresh with
      | false => rfl
      | true => exact absurd (h.freshMem hf).1 (by simp)
    have hb := h.balance
    subst hf
    refine ⟨⟨by decide, by simp, by simp, by simp⟩, ⟨h.numBits, h.enlargeIn, ?_⟩⟩
    have h0 : ∀ x, Pending.has ([] : Pending) x = false := fun x => by
      rcases x with _ | ⟨y, _ | ⟨z, l⟩⟩ <;> simp [Pending.has]
    simpa [h0] using hb

theorem sentSched_spec (sc : Sched) (p : Pending) (w : Str) (h : 1 ≤ sc.enlargeIn) :
    1 ≤ (sentSched sc p w).enlargeIn ∧ sc.numBits ≤ (sentSched sc p w).numBits ∧
      (sentSched sc p w).nextCode = sc.nextCode ∧
      (sentSched sc p w).enlargeIn + 1 + (p.has w).toNat + 2 ^ sc.numBits = sc.enlargeIn + 2 ^ (sentSched sc p w).numBits := by
  obtain ⟨h1, h2, h3⟩ := sc.tick_spec h
  unfold sentSched
  split
  · rename_i hh
    obtain ⟨k1, k2, k3⟩ := sc.tick.tick_spec h1
    refine ⟨k1, by omega, by simp, ?_⟩
    rw [hh, Bool.toNat_true]; omega
  · rename_i hh
    refine ⟨h1, h2, by simp, ?_⟩
    rw [Bool.not_eq_true] at hh
    rw [hh, Bool.toNat_false]; omega

theorem mem_sentPending (p : Pending) (w : Str) (v : Char16) : v ∈ sentPending p w ↔ v ∈ p ∧ w ≠ [v] := by
  simp [sentPending]

theorem Pending.nodup (p : Pending) (h : p.wf = true) : p.Nodup := by
  simp only [Pending.wf, decide_eq_true_eq] at h
  exact h.imp fun {a b} hab => fun e => by subst e; exact absurd hab (by rw [BitVec.lt_def]; omega)

theorem sentPending_length (p : Pending) (w : Str) (h : p.wf = true) :
    (sentPending p w).length + (p.has w).toNat = p.length := by
  cases hh : p.has w with
  | false => rw [sentPending_of_not p w hh]; simp
  | true =>
    obtain ⟨v, rfl, hv⟩ := (Pending.has_iff p w).mp hh
    rw [sentPending_remove]
    have hnd := Pending.nodup p h
    have : p.remove v = p.erase v := by
      rw [hnd.erase_eq_filter]
      unfold Pending.remove
      congr 1; funext x
      by_cases hx : x = v <;> simp [hx]
    rw [this, List.length_erase_of_mem hv, Bool.toNat_true]
    have := List.length_pos_of_mem hv
    omega

/-- A non-extending step: the match is sent, the candidate inserted, and c is the match (R173). -/
theorem MidOk.send {sc : Sched} {d : CDict} {p : Pending} {w : Str} {c : Char16} {fresh : Bool} (h : MidOk sc d p w c fresh)
    (he : d.isKey (w ++ [c]) = false) :
    CDictOk (d.insert (w ++ [c]) sc.nextCode) (sentSched sc p w).bump.nextCode ∧
    PendingOk (sentPending p w) (d.insert (w ++ [c]) sc.nextCode) [c] ∧
    CSchedOk (sentSched sc p w).bump (sentPending p w) [c] := by
  have hw0 : w ≠ [] := by rintro rfl; rw [List.nil_append, h.char] at he; cases he
  have hw : d.isKey w = true := h.prior.resolve_left hw0
  obtain ⟨hs1, hs2, hs3, hs4⟩ := sentSched_spec sc p w h.enlargeIn
  have hmem : ∀ v ∈ sentPending p w, v ∈ p ∧ w ≠ [v] ∧ fresh = true ∧ v = c := fun v hv => by
    obtain ⟨hv1, hv2⟩ := (mem_sentPending p w v).mp hv
    exact ⟨hv1, hv2, (h.current v hv1).resolve_left hv2⟩
  refine ⟨?_, ⟨?_, ?_, ?_, ?_⟩, ⟨?_, ?_, ?_⟩⟩
  · rw [Sched.bump_nextCode, hs3]
    exact h.dict.insert w c he (fun _ => hw) (.inr h.char)
  · simpa [sentPending, Pending.wf] using
      (of_decide_eq_true h.wf : p.Pairwise (· < ·)).sublist (List.filter_sublist (p := fun v => decide (w ≠ [v])))
  · intro v hv; simp [h.key v (hmem v hv).1]
  · intro v hv; rw [(hmem v hv).2.2.2]
  · intro v hv t ht
    simp only [CDict.isKey_insert, Bool.or_eq_true, decide_eq_true_eq] at ht
    obtain ⟨hv1, hv2, _⟩ := hmem v hv
    rcases ht with ht | ht
    · exact h.unextended v hv1 t ht
    · obtain ⟨x, l, rfl⟩ := List.exists_cons_of_ne_nil hw0
      obtain ⟨rfl, _⟩ := List.cons.inj ht
      exact absurd (by rw [h.unextended x hv1 l hw]) hv2
  · exact le_trans h.numBits hs2
  · exact hs1
  · have hb := h.balance
    have hl := sentPending_length p w h.wf
    have hc : (Pending.has (sentPending p w) [c]) = fresh := by
      rw [Bool.eq_iff_iff, Pending.has_iff]
      constructor
      · rintro ⟨v, _, hv⟩; exact (hmem v hv).2.2.1
      · intro hf; exact ⟨c, rfl, (mem_sentPending p w c).mpr (h.freshMem hf)⟩
    rw [hc, Sched.bump_nextCode, Sched.bump_enlargeIn, Sched.bump_numBits, hs3]
    omega

/-! ### The two steps -/

/-- What a compressor operation leaves alone: the control fields and the host's side. -/
structure SameControl (s t : State) : Prop where
  status : t.status = s.status
  cause : t.cause = s.cause
  faultInfo : t.faultInfo = s.faultInfo
  phase : t.phase = s.phase

theorem Packed.control {dw : BitVec 5} {s t : State} (h : Packed dw s t) : SameControl s t := by
  obtain ⟨k, m, _, rfl⟩ := h; exact ⟨rfl, rfl, rfl, rfl⟩

theorem CompOk.setPhase {s : State} {dw : BitVec 5} {i : Nat} {sc : Sched} {k : Sink} {w : Str} {d : CDict} {p : Pending}
    (h : CompOk s dw i sc k w d p) (ph : Phase) : CompOk (s.setPhase ph) dw i sc k w d p :=
  ⟨h.mode, h.digitW, h.width, h.n, h.ii, h.sched, h.sink, h.cW, h.cdict, h.pending, h.length, h.srcPos, h.dW, h.ddict, h.cout,
    h.packer, h.dictOk, h.pendingOk, h.schedOk, h.current⟩

theorem grows_sent (v : State) (p : Option Pending) (d : Option CDict) (sc : Option Sched) (w : Option Str) :
    Grows v ((((v.setPending p).setCdict d).setSched sc).setCW w) :=
  ⟨⟨rfl, rfl, rfl, rfl, rfl, rfl⟩, List.prefix_rfl, List.prefix_rfl⟩

/-- `C_SCAN` from a sound compression: the next character is read and the compression is sound again, in the next phase; or an engine
fault ends it (R171 to R174). -/
theorem cScan_sat {s : State} {dw : BitVec 5} {i : Nat} {sc : Sched} {k : Sink} {w : Str} {d : CDict} {p : Pending}
    (h : CompOk s dw i sc k w d p) (hi : i < s.inBuf.length) : (cScan s).Sat False (Faulted s) fun t =>
      ∃ sc' k' w' d' p', CompOk t dw (i + 1) sc' k' w' d' p' ∧ Grows s t ∧ t.status = s.status ∧ t.cause = s.cause ∧
        t.faultInfo = s.faultInfo ∧ t.phase = if i + 1 = s.inBuf.length then .pCFinal else s.phase := by
  have hcur : (w = [] ∧ d = [] ∧ p = []) ∨ d.isKey w = true :=
    h.current.imp (fun x => x.2) (fun x => x.2)
  unfold cScan
  rw [h.ii, need_some, Res.ok_bind, h.n, need_some, Res.ok_bind, charIn_eq i s h.n hi hi, Res.ok_bind]
  generalize s.inBuf[i] = c
  have hg0 : Grows s (s.setIi (some (i + 1))) := grows_setIi s _
  refine ((registerChar_sat c (s.setIi (some (i + 1))) (sc := sc) (d := d) (p := p) h.sched h.cdict h.pending).mono
    (fun _ x => x) fun _ x => Faulted.of_grows hg0 x).bind fun t ht => ?_
  -- the state and the pure facts between registration and the match step
  obtain ⟨sc1, d1, p1, fresh, hm, hT⟩ : ∃ sc1 d1 p1 fresh, MidOk sc1 d1 p1 w c fresh ∧
      t = ((((s.setIi (some (i + 1))).setCdict (some d1)).setSched (some sc1)).setPending (some p1)) := by
    rcases ht with ⟨hk, rfl⟩ | ⟨hk, rfl⟩
    · have hw : d.isKey w = true := by
        rcases hcur with ⟨_, rfl, _⟩ | hw
        · simp at hk
        · exact hw
      refine ⟨sc, d, p, false, MidOk.of_known c h.dictOk h.pendingOk h.schedOk hw hk, ?_⟩
      rw [← h.sched, ← h.cdict, ← h.pending]; rfl
    · exact ⟨_, _, _, true, MidOk.of_new c h.dictOk h.pendingOk h.schedOk hcur hk, rfl⟩
  have hg1 : Grows s t := by
    rw [hT]
    exact ((hg0.trans (grows_setCdict _ _)).trans (grows_setSched _ _)).trans (grows_setPending _ _)
  have hpk1 : PackerOk dw k t.dout := by rw [hT]; exact h.packer
  refine ((extendMatch_sat c t (dw := dw) (k := k) (sc := sc1) (d := d1) (p := p1) (w := w) (by rw [hT]; exact h.digitW)
    (by rw [hT]; exact h.sink) (by rw [hT]; rfl) (by rw [hT]; rfl) (by rw [hT]; rfl) (by rw [hT]; exact h.cW) hpk1
    (fun he => hm.prior.resolve_left (by rintro rfl; rw [List.nil_append, hm.char] at he; cases he))).mono
    (fun _ x => x) fun _ x => Faulted.of_grows hg1 x).bind fun u hu => ?_
  have key : ∃ sc' k' w' d' p', CompOk u dw (i + 1) sc' k' w' d' p' ∧ Grows s u ∧ SameControl s u := by
    rcases hu with ⟨he, rfl⟩ | ⟨he, v, hv, rfl⟩
    · obtain ⟨hp', hs'⟩ := hm.extend he
      refine ⟨sc1, k, w ++ [c], d1, p1, ?_, hg1.trans (grows_setCW t _), ?_⟩
      · subst hT
        constructor <;> first
          | exact hm.dict | exact hp' | exact hs' | exact h.width | exact h.packer
          | exact .inr ⟨Nat.succ_pos i, he⟩
          | simp [h.mode, h.digitW, h.n, h.sink, h.length, h.srcPos, h.dW, h.ddict, h.cout]
      · subst hT; constructor <;> simp
    · obtain ⟨hd', hp', hs'⟩ := hm.send he
      have hCk : (d1.insert (w ++ [c]) sc1.nextCode).isKey [c] = true := by simp [hm.char]
      have hvc := hv.control
      have hgu := (hg1.trans hv.grows).trans (grows_sent v (some (sentPending p1 w)) (some (d1.insert (w ++ [c]) sc1.nextCode))
        (some (sentSched sc1 p1 w).bump) (some [c]))
      have htc : SameControl s t := by subst hT; constructor <;> simp
      refine ⟨(sentSched sc1 p1 w).bump, ?_⟩
      have hvt : CompOk ((((v.setPending (some (sentPending p1 w))).setCdict (some (d1.insert (w ++ [c]) sc1.nextCode))).setSched
          (some (sentSched sc1 p1 w).bump)).setCW (some [c])) dw (i + 1) (sentSched sc1 p1 w).bump (hv.choose) [c]
          (d1.insert (w ++ [c]) sc1.nextCode) (sentPending p1 w) := by
        obtain ⟨more, hpk', hV⟩ := hv.choose_spec
        generalize hv.choose = k' at *
        clear hgu hvc
        have hpk2 : PackerOk dw k' (s.dout ++ more) := by rw [hT] at hpk'; exact hpk'
        subst hV
        subst hT
        constructor <;> first
          | exact hd' | exact hp' | exact hs' | exact h.width
          | exact .inr ⟨Nat.succ_pos i, hCk⟩
          | exact hpk2
          | simp [h.mode, h.digitW, h.n, h.length, h.srcPos, h.dW, h.ddict, h.cout]
      exact ⟨_, _, _, _, hvt, hgu, hvc.status.trans htc.status, hvc.cause.trans htc.cause, hvc.faultInfo.trans htc.faultInfo,
        hvc.phase.trans htc.phase⟩
  obtain ⟨sc', k', w', d', p', hc', hg', hctl⟩ := key
  split
  · exact ⟨sc', k', w', d', p', hc'.setPhase _, hg'.trans (grows_setPhase _ _), hctl.status, hctl.cause, hctl.faultInfo, rfl⟩
  · exact ⟨sc', k', w', d', p', hc', hg', hctl.status, hctl.cause, hctl.faultInfo, hctl.phase⟩

/-- `C_FINAL` from a sound compression that has read a character: the call ends normally, or an engine fault ends it (R179). -/
theorem cFinal_sat {s : State} {dw : BitVec 5} {i : Nat} {sc : Sched} {k : Sink} {w : Str} {d : CDict} {p : Pending}
    (h : CompOk s dw i sc k w d p) (hi : 0 < i) : (cFinal s).Sat False (Faulted s) fun t =>
      ∃ u, t = u.finish ∧ Grows s u ∧ SameControl s u ∧ ∀ x ∈ u.dout, x < 2 ^ dw.toNat := by
  have hw : d.isKey w = true := by
    rcases h.current with ⟨h0, _⟩ | ⟨_, hw⟩
    · omega
    · exact hw
  obtain ⟨code, hcode⟩ := Option.isSome_iff_exists.mp hw
  unfold cFinal
  rw [h.cW, need_some, Res.ok_bind]
  refine (emit_sat w s h.digitW h.sink h.sched h.cdict h.pending h.packer hcode).bind fun t ht => ?_
  obtain ⟨u, hu, rfl⟩ := ht
  have hug := hu.grows
  have huc := hu.control
  obtain ⟨k1, m1, hp1, rfl⟩ := hu
  have hg1 := (hug.trans (grows_setPending _ (some (sentPending p w)))).trans (grows_setSched _ (some (sentSched sc p w)))
  refine Res.Sat.bind (P := fun a => a = sentSched sc p w) rfl fun sc2 hsc2 => ?_
  refine ((putValue_sat _ _ ((((s.setDout (s.dout ++ m1)).setSink (some k1)).setPending (some (sentPending p w))).setSched
    (some (sentSched sc p w))) (dw := dw) (k := k1) h.digitW rfl hp1).mono (fun _ x => x) fun _ x =>
    Faulted.of_grows hg1 x).bind fun v hv => ?_
  have hg2 := hg1.trans hv.grows
  have hvc := hv.control
  have hvd := hv.digitW
  obtain ⟨k2, m2, hp2, rfl⟩ := hv
  refine ((flush_sat _ (dw := dw) (k := k2) (hvd.trans h.digitW) rfl hp2).mono (fun _ x => x) fun _ x =>
    Faulted.of_grows hg2 x).bind fun x hx => ?_
  refine ⟨x, rfl, hg2.trans hx.grows, ?_, ?_⟩
  · have hxc := hx.control
    exact ⟨hxc.status.trans (hvc.status.trans huc.status), hxc.cause.trans (hvc.cause.trans huc.cause),
      hxc.faultInfo.trans (hvc.faultInfo.trans huc.faultInfo), hxc.phase.trans (hvc.phase.trans huc.phase)⟩
  · obtain ⟨k3, m3, hp3, rfl⟩ := hx
    exact hp3.digits

end Sys2Proof.Machine
end

