-- ==== Sys2Proof/Laws/Decompressor.lean ====
section
/-!
SUPPORT. The decompressor: the fetch is the decoder on the stream's next bits; what each token rule can do, first in any state (it only
appends), then from a state that meets FirstOk or LoopOk (it completes and LoopOk holds, or an engine fault ends it).
-/

namespace Sys2Proof.Machine

/-! ### In any state -/

theorem firstLiteral_appends (v : Char16) : Appends (firstLiteral v) := fun s =>
  (dInsertAt3_appends [v] s).bind fun t ht => (Appends.after (grows_setDW t (some [v])) (charOut_appends [v] _)).mono
    (fun _ h => ht.trans h) (fun _ h => ht.trans h) |>.bind fun u hu => hu.trans ((grows_setSched u _).trans (grows_setPhase _ _))

theorem common_appends (e : Str) : Appends (common e) := fun s =>
  (charOut_appends e s).bind fun t ht => Appends.after ht <| Appends.of_need fun _ _ =>
    Appends.of_read (headOf_reads e) fun _ => (dInsert_appends _ t).bind fun u hu => Appends.after hu <|
      (onSched_appends _ u).bind fun x hx => hx.trans (grows_setDW x _)

theorem loopLiteral_appends (v : Char16) : Appends (loopLiteral v) := fun s =>
  Appends.of_need fun _ _ => (dInsert_appends _ s).bind fun t ht => Appends.after ht <|
    (onSched_appends _ t).bind fun u hu => Appends.after hu <|
      (onSched_appends _ u).bind fun x hx => Appends.after hx <|
        Appends.of_read (entryAt_reads _ x) fun e => common_appends e x

theorem loopRef_appends (code : Nat) : Appends (loopRef code) := fun s =>
  (onSched_appends _ s).bind fun t ht => Appends.after ht <|
    Appends.of_read (entryAt_reads _ t) fun e => common_appends e t

theorem loopRefNext_appends : Appends loopRefNext := fun s =>
  (onSched_appends _ s).bind fun t ht => Appends.after ht <| Appends.of_need fun w _ =>
    Appends.of_read (headOf_reads w) fun _ => common_appends _ t

/-! ### The fetch -/

theorem takeBits_streamBits (w len : Nat) (din : List Nat) (pos n m : Nat) (h : n ≤ m) :
    takeBits n (streamBits w len din pos m) = streamBits w len din pos n := by
  obtain ⟨k, rfl⟩ := Nat.exists_eq_add_of_le h
  rw [streamBits_append]
  exact takeBits_append_of_length n _ _ (by simp)

theorem drop_streamBits (w len : Nat) (din : List Nat) (pos n m : Nat) :
    (streamBits w len din pos (n + m)).drop n = streamBits w len din (pos + n) m := by
  rw [streamBits_append, List.drop_append_of_le_length (by simp)]
  simp [List.drop_of_length_le]

theorem payloadWidth_le (f : Format) (h : Nat) : payloadWidth f h ≤ 16 := by
  unfold payloadWidth literalWidth
  split
  · omega
  · split <;> omega

/-- The fetch reads what the decoder gives on any window of the stream that is long enough, and moves `SRC_POS` past exactly that
token (R138, R201, R206). -/
theorem fetch_eq (f : Format) (s : State) {dw : BitVec 5} {len pos : Nat} (hp : s.srcPos = some pos) (hw : s.digitW = some dw)
    (hl : s.length = some len) (m : Nat) (hm : 16 ≤ m) :
    fetch f s = .ok ((decode f (streamBits dw.toNat len s.din pos (headWidth f + m))).1,
      s.setSrcPos (some (pos + (decode f (streamBits dw.toNat len s.din pos (headWidth f + m))).2))) := by
  rw [fetch, getValue_eq _ s hp hw hl, Res.ok_bind,
    getValue_eq _ (s.setSrcPos (some (pos + headWidth f))) rfl hw hl, Res.ok_bind]
  simp only [decode, takeBits_streamBits _ _ _ _ _ _ (Nat.le_add_right (headWidth f) m), drop_streamBits,
    takeBits_streamBits _ _ _ _ _ _ (le_trans (payloadWidth_le f _) hm), State.setSrcPos_din, setSrcPos_setSrcPos, Nat.add_assoc]

/-! ### The dictionary -/

theorem DDict.get?_isSome (d : DDict) (k : Nat) : (d.get? k).isSome = true ↔ k ∈ d.map (·.1) := by
  induction d with
  | nil => simp [DDict.get?]
  | cons x d ih =>
    obtain ⟨j, e⟩ := x
    simp only [DDict.get?]
    by_cases h : j = k
    · simp [h]
    · simp [h, ih, Ne.symm h]

/-- The next entry keeps the rules of R57 and R222. -/
theorem DDictOk.insert {d : DDict} {n : Nat} (h : DDictOk d n) (h3 : 3 ≤ n) (t : Str) (ht : t ≠ []) :
    DDictOk (d.put n (.str t)) (n + 1) where
  codes := by
    rw [DDict.put_append d n _ (by rw [h.codes]; simp), List.map_append, h.codes, List.range_succ]; rfl
  placeholders := by
    intro k hk
    rw [DDict.get?_put, if_neg (by omega)]
    exact h.placeholders k hk
  entries := by
    intro k hk hkn
    rw [DDict.get?_put]
    split
    · exact ⟨t, ht, rfl⟩
    · exact h.entries k hk (by omega)

/-- The entry the first token writes (R202, R203). -/
theorem DDictOk.first (t : Str) (ht : t ≠ []) : DDictOk (DDict.seed.put 3 (.str t)) 4 where
  codes := by simp [DDict.seed, DDict.put]; rfl
  placeholders := by
    intro k hk
    rw [DDict.get?_put, if_neg (by omega)]
    obtain rfl | rfl | rfl : k = 0 ∨ k = 1 ∨ k = 2 := by omega
    all_goals rfl
  entries := by
    intro k hk hkn
    obtain rfl : k = 3 := by omega
    exact ⟨t, ht, by simp⟩

/-! ### The token rules -/

/-- What a token rule leaves: a sound loop head at the same place of the stream, the control fields as they were, both outputs grown. -/
def Looped (s : State) (dw : BitVec 5) (len pos : Nat) (t : State) : Prop :=
  (∃ sc w d, LoopOk t dw len pos sc w d) ∧ Grows s t ∧ SameControl s t

/-- The first literal, run where its token's bits end (R202, R203). -/
theorem firstLiteral_sat (v : Char16) (pos : Nat) {s : State} {dw : BitVec 5} {len : Nat} (h : FirstOk s dw len) :
    (firstLiteral v (s.setSrcPos (some pos))).Sat False (Faulted s) fun t =>
      ∃ u, t = u.setPhase .pDLoop ∧ Looped s dw len pos u := by
  have hg : Grows s (s.setSrcPos (some pos)) := grows_setSrcPos s _
  unfold firstLiteral
  rcases dInsertAt3_cases [v] (s.setSrcPos (some pos)) (d := DDict.seed) h.ddict with ⟨_, h1⟩ | ⟨_, h1⟩ <;> rw [h1]
  · exact ⟨_, _, _, rfl, by simp, by simp [infoLegal], hg⟩
  rw [Res.ok_bind]
  rcases charOut_cases [v] (((s.setSrcPos (some pos)).setDdict (some (DDict.seed.put 3 (.str [v])))).setDW (some [v])) with
    ⟨_, h2⟩ | ⟨_, h2⟩ <;> rw [h2]
  · exact ⟨_, _, _, rfl, by simp, by simp [infoLegal], hg.trans ((grows_setDdict _ _).trans (grows_setDW _ _))⟩
  refine ⟨_, rfl, ⟨Sched.decompressorSeed, [v], DDict.seed.put 3 (.str [v]), ?_⟩, ?_, ?_⟩
  · constructor <;> first
      | exact h.width | exact h.lengthPos | exact DDictOk.first [v] (by simp)
      | simp [h.mode, h.digitW, h.length, h.n, h.ii, h.sink, h.cW, h.cdict, h.pending, h.dout, Sched.decompressorSeed]
  · refine ⟨⟨?_, ?_, ?_, ?_, ?_, ?_⟩, ?_, ?_⟩ <;> simp
  · constructor <;> simp

/-- One registration, one event, and the current entry: a sound loop head again (R155, R222). -/
theorem LoopOk.register {s : State} {dw : BitVec 5} {len pos : Nat} {sc : Sched} {w : Str} {d : DDict}
    (h : LoopOk s dw len pos sc w d) (t e : Str) (ht : t ≠ []) (he : e ≠ []) :
    LoopOk (((s.setDdict (some (d.put sc.nextCode (.str t)))).setSched (some sc.bump.tick)).setDW (some e)) dw len pos
      sc.bump.tick e (d.put sc.nextCode (.str t)) := by
  obtain ⟨hs1, hs2, hs3⟩ := sc.bump.tick_spec h.enlargeIn
  have hb := h.balance
  have hn := h.numBits
  have hc := h.nextCode
  simp only [Sched.bump_numBits, Sched.bump_enlargeIn] at hs2 hs3
  constructor
  case dictOk => simp only [Sched.tick_nextCode, Sched.bump_nextCode]; exact h.dictOk.insert (by omega) t ht
  case balance => simp only [Sched.tick_nextCode, Sched.bump_nextCode]; omega
  case nextCode => simp only [Sched.tick_nextCode, Sched.bump_nextCode]; omega
  case numBits => omega
  case enlargeIn => exact hs1
  case width => exact h.width
  case lengthPos => exact h.lengthPos
  case current => exact he
  all_goals simp [h.mode, h.digitW, h.length, h.srcPos, h.n, h.ii, h.sink, h.cW, h.cdict, h.pending, h.dout]

/-- `COUT` is no part of a sound loop head. -/
theorem LoopOk.setCout {s : State} {dw : BitVec 5} {len pos : Nat} {sc : Sched} {w : Str} {d : DDict}
    (h : LoopOk s dw len pos sc w d) (v : Str) : LoopOk (s.setCout v) dw len pos sc w d :=
  ⟨h.mode, h.digitW, h.width, h.length, h.lengthPos, h.srcPos, h.sched, h.dW, h.ddict, h.n, h.ii, h.sink, h.cW, h.cdict,
    h.pending, h.dout, h.numBits, h.enlargeIn, h.nextCode, h.balance, h.current, h.dictOk⟩

/-- `COMMON` from a sound loop head (R214). -/
theorem common_sat (e : Str) (he : e ≠ []) {s : State} {dw : BitVec 5} {len pos : Nat} {sc : Sched} {w : Str} {d : DDict}
    (h : LoopOk s dw len pos sc w d) : (common e s).Sat False (Faulted s) (Looped s dw len pos) := by
  obtain ⟨c, l, rfl⟩ := List.exists_cons_of_ne_nil he
  unfold common
  rcases charOut_cases (c :: l) s with ⟨_, h1⟩ | ⟨_, h1⟩ <;> rw [h1]
  · exact ⟨_, _, _, rfl, by simp, by simp [infoLegal], Grows.refl s⟩
  have hg1 : Grows s (s.setCout (s.cout ++ c :: l)) := ⟨⟨rfl, rfl, rfl, rfl, rfl, rfl⟩, List.prefix_rfl, List.prefix_append _ _⟩
  rw [Res.ok_bind, State.setCout_dW, h.dW, need_some, Res.ok_bind, headOf_cons, Res.ok_bind]
  rcases dInsert_cases (w ++ [c]) (s.setCout (s.cout ++ c :: l)) (sc := sc) (d := d) h.sched h.ddict with
    ⟨_, h2⟩ | ⟨_, h2⟩ <;> rw [h2]
  · exact ⟨_, _, _, rfl, by simp, by simp [infoLegal], hg1⟩
  rw [Res.ok_bind, tick, onSched_some _ _ sc.bump rfl, Res.ok_bind, setSched_setSched]
  refine ⟨⟨_, _, _, (h.setCout (s.cout ++ c :: l)).register (w ++ [c]) (c :: l) (by simp) he⟩, ?_, ?_⟩
  · refine ⟨⟨?_, ?_, ?_, ?_, ?_, ?_⟩, ?_, ?_⟩ <;> simp
  · constructor <;> simp

theorem Looped.trans {s t u : State} {dw : BitVec 5} {len pos : Nat} (hg : Grows s t) (hc : SameControl s t)
    (h : Looped t dw len pos u) : Looped s dw len pos u :=
  ⟨h.1, hg.trans h.2.1, h.2.2.status.trans hc.status, h.2.2.cause.trans hc.cause, h.2.2.faultInfo.trans hc.faultInfo,
    h.2.2.phase.trans hc.phase⟩

/-- A literal from a sound loop head: registered, one event and its growth, then `COMMON` (R208, R209). -/
theorem loopLiteral_sat (v : Char16) {s : State} {dw : BitVec 5} {len pos : Nat} {sc : Sched} {w : Str} {d : DDict}
    (h : LoopOk s dw len pos sc w d) : (loopLiteral v s).Sat False (Faulted s) (Looped s dw len pos) := by
  unfold loopLiteral
  rw [h.sched, need_some, Res.ok_bind]
  rcases dInsert_cases [v] s h.sched h.ddict with ⟨_, h2⟩ | ⟨_, h2⟩ <;> rw [h2]
  · exact ⟨_, _, _, rfl, by simp, by simp [infoLegal], Grows.refl s⟩
  rw [Res.ok_bind, dec, onSched_some _ _ sc.bump rfl, Res.ok_bind, setSched_setSched, grow, onSched_some _ _ sc.bump.dec rfl,
    Res.ok_bind, setSched_setSched,
    entryAt_eq sc.nextCode _ (d := d.put sc.nextCode (.str [v])) (t := [v]) rfl (by simp), Res.ok_bind]
  have hl := h.register [v] w (by simp) h.current
  rw [setDW_self _ _ (by simp [h.dW])] at hl
  have hg : Grows s ((s.setDdict (some (d.put sc.nextCode (.str [v])))).setSched (some sc.bump.tick)) :=
    (grows_setDdict s _).trans (grows_setSched _ _)
  exact (common_sat [v] (by simp) hl).mono (fun _ x => Looped.trans hg (by constructor <;> simp) x) fun _ x => Faulted.of_grows hg x

theorem grow_eq_self {s : State} {dw : BitVec 5} {len pos : Nat} {sc : Sched} {w : Str} {d : DDict}
    (h : LoopOk s dw len pos sc w d) : grow s = .ok s := by
  rw [grow, onSched_some _ s sc h.sched, Sched.grow_of_pos sc h.enlargeIn, ← h.sched]; rfl

/-- A reference below `NEXT_CODE` from a sound loop head (R211). -/
theorem loopRef_sat (code : Nat) {s : State} {dw : BitVec 5} {len pos : Nat} {sc : Sched} {w : Str} {d : DDict}
    (h : LoopOk s dw len pos sc w d) (h3 : 3 ≤ code) (hc : code < sc.nextCode) :
    (loopRef code s).Sat False (Faulted s) (Looped s dw len pos) := by
  obtain ⟨t, ht, hg⟩ := h.dictOk.entries code h3 hc
  rw [loopRef, grow_eq_self h, Res.ok_bind, entryAt_eq code s h.ddict hg, Res.ok_bind]
  exact common_sat t ht h

/-- A reference to the entry being created (R212). -/
theorem loopRefNext_sat {s : State} {dw : BitVec 5} {len pos : Nat} {sc : Sched} {w : Str} {d : DDict}
    (h : LoopOk s dw len pos sc w d) : (loopRefNext s).Sat False (Faulted s) (Looped s dw len pos) := by
  obtain ⟨c, l, rfl⟩ := List.exists_cons_of_ne_nil h.current
  rw [loopRefNext, grow_eq_self h, Res.ok_bind, h.dW, need_some, Res.ok_bind, headOf_cons, Res.ok_bind]
  exact common_sat _ (by simp) h

/-- A loop head moved on in the stream is a loop head there. -/
theorem LoopOk.moveTo {s : State} {dw : BitVec 5} {len pos : Nat} {sc : Sched} {w : Str} {d : DDict}
    (h : LoopOk s dw len pos sc w d) (p : Nat) : LoopOk (s.setSrcPos (some p)) dw len p sc w d := by
  constructor <;> first
    | exact h.width | exact h.lengthPos | exact h.current | exact h.dictOk | exact h.balance | exact h.numBits
    | exact h.enlargeIn | exact h.nextCode
    | simp [h.mode, h.digitW, h.length, h.n, h.ii, h.sink, h.cW, h.cdict, h.pending, h.dout, h.dW, h.sched, h.ddict]

end Sys2Proof.Machine
end

