-- ==== Sys2Proof/Laws/Engine.lean ====
section
/-!
SUPPORT. The engine around the meanings: how a START ends, the invariant in an ended state, and what the turn is.
-/

namespace Sys2Proof.Machine

/-! ### Ended states -/

/-- A fault entry with a cause and its information leaves an ended state (R276). -/
theorem enterFault_inv (u : State) (c : Cause) (i : Nat) (hc : c ≠ .none) (hi : infoLegal c i) : (u.enterFault c i).Inv where
  control := ⟨by simp, by simp, by simpa using hc, hi⟩
  work := trivial

theorem Faulted.inv {s t : State} (h : Faulted s t) : t.Inv := by
  obtain ⟨u, c, i, rfl, hc, hi, _⟩ := h
  exact enterFault_inv u c i hc hi

/-- A normal end with no fault recorded leaves an ended state (R247). -/
theorem finish_inv (u : State) (hc : u.cause = .none) (hi : u.faultInfo = 0) : u.finish.Inv where
  control := ⟨by simp, by simp, by simp [hc], by simp [hc, hi, infoLegal]⟩
  work := trivial

/-- What a running call's control fields are. -/
theorem State.Inv.running {s : State} (h : s.Inv) (hp : s.phase ≠ .pIdle) (hh : s.phase ≠ .pHalt) :
    s.status = .busy ∧ s.cause = .none ∧ s.faultInfo = 0 := by
  have h1 := h.control.idle.not.mp hp
  have h2 := h.control.ended.not.mp hh
  have hs : s.status = .busy := by
    cases hs : s.status <;> simp_all
  have hc : s.cause = .none := by
    by_contra hc
    exact h2 (.inr (h.control.failed.mpr hc))
  have hi := h.control.info
  rw [hc] at hi
  exact ⟨hs, hc, hi⟩

/-- The invariant of a state with the control fields of a running one. -/
theorem inv_of_running {t : State} (hs : t.status = .busy) (hc : t.cause = .none) (hi : t.faultInfo = 0)
    (hp : t.phase ≠ .pIdle) (hh : t.phase ≠ .pHalt) (hw : t.PhaseOk) : t.Inv where
  control := ⟨by simp [hs, hp], by simp [hs, hh], by simp [hs, hc], by simp [hc, hi, infoLegal]⟩
  work := hw

/-! ### The configuration check -/

/-- A width out of range, then a length over the bound, then acceptance (R243, R277). -/
theorem configCheck_cases (dw : BitVec 5) (len : Nat) (s : State) :
    (¬ legalWidth dw ∧ configCheck dw len s = .error (.raised (s.enterFault .badConfig dw.toNat))) ∨
    (legalWidth dw ∧ overfull s.caps.lenMax len = true ∧ configCheck dw len s = .error (.raised (s.enterFault .capacity 4))) ∨
    (legalWidth dw ∧ overfull s.caps.lenMax len = false ∧ configCheck dw len s = .ok s) := by
  unfold configCheck legalWidth
  by_cases h : dw.toNat < 1 ∨ 16 < dw.toNat
  · exact .inl ⟨by omega, by rw [if_pos h]; rfl⟩
  · refine .inr ?_
    rw [if_neg h]
    cases overfull s.caps.lenMax len
    · exact .inr ⟨by omega, rfl, by simp⟩
    · exact .inl ⟨by omega, rfl, by simp⟩

/-- The rejected widths are 0 and 17 to 31 (R273). -/
theorem infoLegal_badConfig (dw : BitVec 5) (h : ¬ legalWidth dw) : infoLegal .badConfig dw.toNat := by
  have := dw.isLt
  simp only [legalWidth, infoLegal] at *
  omega

/-! ### The turn -/

theorem advance_of_turn (s : State) (h : s.engineTurn) : advance s = engineStep s.taken := by
  unfold advance State.taken
  rcases h with h | h
  · have hs : s.setHost [] = s := by rw [← h]; rfl
    simp only [h, List.tail_nil, hs]
  · obtain ⟨x, l, hl⟩ := List.exists_cons_of_ne_nil (l := s.host) (by rintro h0; simp [h0] at h)
    rw [hl] at h ⊢
    obtain rfl : x = .yield := by simpa using h
    rfl

theorem engineStep_scan (s : State) (h : s.phase = .pCScan) : engineStep s = Res.outcome (cScan s) := by simp [engineStep, h]
theorem engineStep_final (s : State) (h : s.phase = .pCFinal) : engineStep s = Res.outcome (cFinal s) := by simp [engineStep, h]
theorem engineStep_first (s : State) (h : s.phase = .pDFirst) : engineStep s = runToken .first s := by simp [engineStep, h]
theorem engineStep_loop (s : State) (h : s.phase = .pDLoop) : engineStep s = dLoop s := by simp [engineStep, h]
theorem engineStep_idle (s : State) (h : s.phase = .pIdle) : engineStep s = .next s := by simp [engineStep, h, exec, execCmdNone]
theorem engineStep_halt (s : State) (h : s.phase = .pHalt) : engineStep s = .next s := by simp [engineStep, h, exec, execCmdNone]

end Sys2Proof.Machine
end

