-- ==== Sys2Proof/Laws/PerInstr.lean ====
section
/-!
SUPPORT. The family EncodeLength: in every format the word of an instruction has the length R84 gives it, its classifying field and its
payload; one lemma per constructor.
-/

namespace Sys2Proof.Laws.EncodeLength

/-- The width of an instruction's payload: the `P` field of R81 and R83, absent in the other forms and in the commands. -/
def payloadOf : Instr → Nat
  | .fLit8 _ => 8
  | .fLit16 _ => 16
  | .fEos => 0
  | .fIllegal => 0
  | .lit8 _ => 8
  | .lit16 _ => 16
  | .eos => 0
  | .ref _ => 0
  | .refNext => 0
  | .illegal _ => 0
  | .cmdNone => 0
  | .startCompress => 0
  | .startDecompress => 0
  | .reset => 0

/-- The length of the instruction's word in every format (R84). -/
def Statement (i : Instr) : Prop := ∀ f, (encode f i).length = headWidth f + payloadOf i

theorem of_payload (i : Instr) (h : (payloadBits i).length = payloadOf i) : Statement i := fun f => by
  simp [encode, h]

theorem fLit8 (p : BitVec 8) : Statement (.fLit8 p) := of_payload _ (by simp [payloadBits, payloadOf])
theorem fLit16 (p : BitVec 16) : Statement (.fLit16 p) := of_payload _ (by simp [payloadBits, payloadOf])
theorem fEos : Statement .fEos := of_payload _ rfl
theorem fIllegal : Statement .fIllegal := of_payload _ rfl
theorem lit8 (p : BitVec 8) : Statement (.lit8 p) := of_payload _ (by simp [payloadBits, payloadOf])
theorem lit16 (p : BitVec 16) : Statement (.lit16 p) := of_payload _ (by simp [payloadBits, payloadOf])
theorem eos : Statement .eos := of_payload _ rfl
theorem ref (code : Nat) : Statement (.ref code) := of_payload _ rfl
theorem refNext : Statement .refNext := of_payload _ rfl
theorem illegal (code : Nat) : Statement (.illegal code) := of_payload _ rfl
theorem cmdNone : Statement .cmdNone := of_payload _ rfl
theorem startCompress : Statement .startCompress := of_payload _ rfl
theorem startDecompress : Statement .startDecompress := of_payload _ rfl
theorem reset : Statement .reset := of_payload _ rfl

end Sys2Proof.Laws.EncodeLength
end

