-- ==== Sys2Proof/Machine/Listing.lean ====
section
/-! DEFINITION. The token listing (30_encoding.md R92): one token as `MNEMONIC/w operand`, w being the width of its field. -/

namespace Sys2Proof.Machine

/-- The mnemonic of an instruction's row (R96). -/
def mnemonic : Instr → String
  | .fLit8 _ => "F_LIT8"
  | .fLit16 _ => "F_LIT16"
  | .fEos => "F_EOS"
  | .fIllegal => "F_ILLEGAL"
  | .lit8 _ => "LIT8"
  | .lit16 _ => "LIT16"
  | .eos => "EOS"
  | .ref _ => "REF"
  | .refNext => "REF_NEXT"
  | .illegal _ => "ILLEGAL"
  | .cmdNone => "CMD_NONE"
  | .startCompress => "START_COMPRESS"
  | .startDecompress => "START_DECOMPRESS"
  | .reset => "RESET"

/-- The digits of n in a base up to 16, most significant first, `fuel` of them at most and `least` of them at least. -/
def digitChars (base : Nat) : Nat → Nat → Nat → List Char
  | 0, _, _ => []
  | fuel + 1, least, n =>
    if n = 0 ∧ least = 0 then []
    else digitChars base fuel (least - 1) (n / base) ++ ["0123456789ABCDEF".toList.getD (n % base) '0']

/-- `0xHH`, `0xHHHH` (R92). -/
def hexText (digits n : Nat) : String := "0x" ++ String.ofList (digitChars 16 digits digits n)

/-- A decimal number (R92). -/
def decimalText (n : Nat) : String := String.ofList (digitChars 10 (n + 1) 1 n)

/-- The operand column (R92): a payload in hexadecimal, a code in decimal, nothing for the ends and the illegal selector. -/
def operandText (f : Format) (i : Instr) : Option String :=
  match i with
  | .fLit8 p => some (hexText 2 p.toNat)
  | .fLit16 p => some (hexText 4 p.toNat)
  | .lit8 p => some (hexText 2 p.toNat)
  | .lit16 p => some (hexText 4 p.toNat)
  | .ref code => some (decimalText code)
  | .refNext => some (decimalText (headValue f .refNext))
  | .illegal code => some (decimalText code)
  | _ => none

/-- One line of a decoder's listing (R92). -/
def listing (f : Format) (i : Instr) : String :=
  let head := mnemonic i ++ "/" ++ decimalText (headWidth f)
  match operandText f i with
  | some t => head ++ " " ++ t
  | none => head

end Sys2Proof.Machine
end

