-- ==== Sys2Proof/Tests/Slice0.lean ====
section
/-!
SUPPORT. The model's own tests: words written out bit by bit from spec/30_encoding.md, ill-formed terms, one step each from the worked
examples of the rules (the source of each expected value is named), and, for every statement with hypotheses, a witness that meets them.
-/

namespace Sys2Proof.Machine.Tests

/-! ### Helpers -/

/-- The next state, for reading its fields. -/
def after (o : Host.Outcome State Fault Refusal) : State :=
  match o with
  | .next s => s
  | .fault _ => State.reset
  | .refused _ => State.reset

def isNext (o : Host.Outcome State Fault Refusal) : Bool :=
  match o with
  | .next _ => true
  | .fault _ => false
  | .refused _ => false

theorem next_after {o : Host.Outcome State Fault Refusal} (h : isNext o = true) : o = .next (after o) := by
  cases o <;> first | rfl | cases h

/-- What an operation leaves where it completes. -/
def done {α : Type} (r : Res α) (d : α) : α :=
  match r with
  | .ok a => a
  | .error _ => d

def completes {α : Type} (r : Res α) : Bool :=
  match r with
  | .ok _ => true
  | .error _ => false

theorem ok_done {α : Type} {r : Res α} {d : α} (h : completes r = true) : r = .ok (done r d) := by
  cases r <;> first | rfl | cases h

/-- What an operation leaves where an engine fault ends it. -/
def fell (r : Res State) : State :=
  match r with
  | .error (.raised s) => s
  | .error (.model _) => State.reset
  | .ok _ => State.reset

def falls (r : Res State) : Bool :=
  match r with
  | .error (.raised _) => true
  | .error (.model _) => false
  | .ok _ => false

theorem raised_fell {r : Res State} (h : falls r = true) : r = .error (.raised (fell r)) := by
  rcases r with (_ | _) | _ <;> first | rfl | cases h

/-- The characters 'a' and 'b'. -/
def chA : Char16 := 0x61
def chB : Char16 := 0x62

/-- A host that has filled its buffers and ports. -/
def ready (text : Str) (digits : List Nat) (w : BitVec 5) : State :=
  { State.reset with inBuf := text, din := digits, cfgDigitW := w, cfgLength := digits.length }

/-- A compression of "ab" in `P_C_SCAN`, nothing read yet. -/
def scan0 : State := { ready [chA, chB] [] 16 with
  status := .busy, phase := .pCScan, mode := some .compress, digitW := some 16, n := some 2, ii := some 0,
  sched := some ⟨2, 2, 3⟩, sink := some ⟨0, 0⟩, cW := some [], cdict := some [], pending := some [] }

/-- The same after its first character. -/
def scan1 : State := { scan0 with
  ii := some 1, sched := some ⟨2, 2, 4⟩, cW := some [chA], cdict := some (CDict.insert [] [chA] 3), pending := some [chA] }

/-- A compression of "a" before its final step. -/
def final1 : State := { scan1 with inBuf := [chA], n := some 1, phase := .pCFinal }

/-- A decompression before its first token. -/
def first0 (digits : List Nat) : State := { ready [] digits 16 with
  status := .busy, phase := .pDFirst, mode := some .decompress, digitW := some 16, length := some digits.length,
  srcPos := some 0, ddict := some DDict.seed }

/-- A decompression at its first loop head, after the first token 'a' (44_decompressor.md, the example of R202). -/
def loop0 (digits : List Nat) : State := { first0 digits with
  phase := .pDLoop, srcPos := some 10, sched := some ⟨3, 4, 4⟩, dW := some [chA], ddict := some (DDict.seed.put 3 (.str [chA])),
  cout := [chA] }

/-- A call that is over. -/
def halted : State := { first0 [0x8000] with status := .doneOk, phase := .pHalt, srcPos := some 2 }

/-! ### Decoding: words written out from R81, R83 and R93 -/

theorem test_decode_f_lit8 : decode .first [false, false, false, true, true, false, false, false, false, true] = (.fLit8 0x61, 10) := by
  decide
theorem test_decode_f_lit16 : decode .first [false, true, false, false, true, false, false, true, true, false, false, false, false,
    false, false, true, false, true] = (.fLit16 0x2605, 18) := by decide
theorem test_decode_f_eos : decode .first [true, false, true] = (.fEos, 2) := by decide
theorem test_decode_f_illegal : decode .first [true, true] = (.fIllegal, 2) := by decide
theorem test_decode_lit8 : decode (.loop 3 4) [false, false, false, false, true, true, false, false, false, true, false] =
    (.lit8 0x62, 11) := by decide
/-- 001 then 0000000011101001 (the example of R177). -/
theorem test_decode_lit16 : decode (.loop 3 4) [false, false, true, false, false, false, false, false, false, false, false, true, true,
    true, false, true, false, false, true] = (.lit16 0x00E9, 19) := by decide
theorem test_decode_eos : decode (.loop 3 6) [false, true, false] = (.eos, 3) := by decide
theorem test_decode_ref : decode (.loop 3 6) [true, false, true] = (.ref 5, 3) := by decide
theorem test_decode_ref_lowest : decode (.loop 3 6) [false, true, true] = (.ref 3, 3) := by decide
theorem test_decode_ref_next : decode (.loop 3 6) [true, true, false] = (.refNext, 3) := by decide
theorem test_decode_illegal : decode (.loop 3 6) [true, true, true] = (.illegal 7, 3) := by decide
theorem test_decode_cmd : [decodeCmd 0, decodeCmd 1, decodeCmd 2, decodeCmd 3] =
    [.cmdNone, .startCompress, .startDecompress, .reset] := by decide
/-- A stream cut short reads as zeros (R94): one bit of 0 is a first literal of value 0. -/
theorem test_decode_short : decode .first [false] = (.fLit8 0, 10) := by decide
/-- The encoder writes the same bits (the example of R176). -/
theorem test_encode_lit8 : encode (.loop 2 4) (.lit8 0x61) = [false, false, false, true, true, false, false, false, false, true] := by
  decide
theorem test_table_command : decodeTableWord 8 3 = some .reset := by decide
theorem test_table_first : decodeTableWord 16 (0x61 * 4) = some (.fLit8 0x61) := by decide
theorem test_table_none : decodeTableWord 32 0 = none := by decide
theorem test_fetch_command : (after (step (State.reset.withFetchWord 8 3))).status = .idle ∧
    (State.reset.withFetchWord 8 1).cmdPort = 1 := by decide
theorem test_fetch_first : (after (step (State.reset.withFetchWord 16 (0x61 * 4)))).cout = [0x61] := by decide
/-- The example of R92. -/
theorem test_listing_literal : listing (.loop 2 3) (.lit8 0x61) = "LIT8/2 0x61" := by decide
theorem test_listing_reference : listing (.loop 4 12) (.ref 9) = "REF/4 9" := by decide
theorem test_listing_end : listing .first .fEos = "F_EOS/2" := by decide

/-! ### Ill-formed terms -/

theorem test_wf_first_in_cmd : Instr.wf .cmd (.fLit8 0) = false ∧ Instr.wf .cmd (.fLit16 0) = false ∧ Instr.wf .cmd .fEos = false ∧
    Instr.wf .cmd .fIllegal = false := by decide
theorem test_wf_first_in_loop : Instr.wf (.loop 3 4) (.fLit8 0) = false ∧ Instr.wf (.loop 3 4) (.fLit16 0) = false ∧
    Instr.wf (.loop 3 4) .fEos = false ∧ Instr.wf (.loop 3 4) .fIllegal = false := by decide
theorem test_wf_loop_in_first : Instr.wf .first (.lit8 0) = false ∧ Instr.wf .first (.lit16 0) = false ∧ Instr.wf .first .eos = false ∧
    Instr.wf .first (.ref 3) = false ∧ Instr.wf .first .refNext = false ∧ Instr.wf .first (.illegal 5) = false := by decide
theorem test_wf_cmd_in_first : Instr.wf .first .cmdNone = false ∧ Instr.wf .first .startCompress = false ∧
    Instr.wf .first .startDecompress = false ∧ Instr.wf .first .reset = false := by decide
theorem test_wf_narrow_lit16 : Instr.wf (.loop 0 4) (.lit16 0) = false := by decide
theorem test_wf_narrow_eos : Instr.wf (.loop 1 4) .eos = false := by decide
theorem test_wf_ref : Instr.wf (.loop 3 6) (.ref 2) = false ∧ Instr.wf (.loop 3 6) (.ref 6) = false ∧
    Instr.wf (.loop 2 6) (.ref 4) = false := by decide
theorem test_wf_ref_next : Instr.wf (.loop 3 2) .refNext = false ∧ Instr.wf (.loop 2 4) .refNext = false := by decide
theorem test_wf_illegal : Instr.wf (.loop 3 6) (.illegal 6) = false ∧ Instr.wf (.loop 3 6) (.illegal 8) = false ∧
    Instr.wf (.loop 3 1) (.illegal 2) = false := by decide

/-! ### One step each -/

/-- The example of R202: v = 0x61, `DDICT[3]` = "a", `COUT` = "a", `SRC_POS` = 10. -/
theorem test_f_lit8 : step (first0 [0x1843, 0x1540]) = .next (loop0 [0x1843, 0x1540]) := by
  rw [next_after (o := step (first0 [0x1843, 0x1540])) (by decide)]
  exact congrArg _ (by decide)
/-- The example of R203: [0x4981, 0x5000] gives "★", `SRC_POS` is 18. -/
theorem test_f_lit16 : (after (step (first0 [0x4981, 0x5000]))).cout = [0x2605] ∧
    (after (step (first0 [0x4981, 0x5000]))).srcPos = some 18 := by decide
/-- The example of R204: [0x8000] gives `DONE_OK`, an empty `COUT`, `SRC_POS` = 2. -/
theorem test_f_eos : step (first0 [0x8000]) = .next halted := by
  rw [next_after (o := step (first0 [0x8000])) (by decide)]
  exact congrArg _ (by decide)
/-- The example of R205. -/
theorem test_f_illegal : (after (step (first0 [0xC000]))).observe = ⟨3, 2, 3, [], []⟩ := by decide
/-- The example of R208: `DDICT[4]` = "b", `DDICT[5]` = "ab", `COUT` = "ab", the schedule from (3, 4, 4) to (3, 2, 6). -/
theorem test_lit8 : (after (step (loop0 [0x1843, 0x1540]))).sched = some ⟨3, 2, 6⟩ ∧
    (after (step (loop0 [0x1843, 0x1540]))).ddict =
      some [(0, .rsv), (1, .rsv), (2, .rsv), (3, .str [chA]), (4, .str [chB]), (5, .str [chA, chB])] := by decide
/-- The example of R209: `COUT` becomes "aé", `DDICT[5]` = "aé". -/
theorem test_lit16 : (after (step (loop0 [0x1848, 0x074A, 0x0000]))).cout = [chA, 0xE9] ∧
    (after (step (loop0 [0x1848, 0x074A, 0x0000]))).dW = some [0xE9] := by decide
/-- A growth in the literal branch and none in COMMON: (3, 1) goes to (4, 8), then (4, 7) (R208, R150). -/
theorem test_lit8_growth : (after (exec (.lit8 0x62) { loop0 [] with sched := some ⟨3, 1, 7⟩ })).sched = some ⟨4, 7, 9⟩ := by decide
/-- The example of R210: code 010 ends the call; the pad is not looked at. -/
theorem test_eos : (after (exec .eos (loop0 [0x1843, 0x1540]))).status = .doneOk ∧
    (after (exec .eos (loop0 [0x1843, 0x1540]))).srcPos = some 10 := by decide
/-- The example of R211: with `D_W` = "b" the code 5 = "ab" outputs "ab", and `DDICT[6]` = "ba". -/
theorem test_ref :
    let s := { loop0 [] with
      sched := some ⟨3, 2, 6⟩, dW := some [chB], cout := [chA, chB], ddict := some (DDict.seed ++ [(3, .str [chA]),
        (4, .str [chB]), (5, .str [chA, chB])]) }
    (after (exec (.ref 5) s)).cout = [chA, chB, chA, chB] ∧
    ((after (exec (.ref 5) s)).ddict.getD []).get? 6 = some (.str [chB, chA]) := by decide
/-- The example of R212: after 'a' at code 3, `REF_NEXT` gives the entry "aa". -/
theorem test_ref_next : (after (exec .refNext (loop0 []))).cout = [chA, chA, chA] ∧
    ((after (exec .refNext (loop0 []))).ddict.getD []).get? 4 = some (.str [chA, chA]) := by decide
/-- The example of R213 and R276: [0x1868] ends in `CORRUPT_CODE` 5 with `SRC_POS` = 13 and the partial `COUT`. -/
theorem test_illegal : (after (step (loop0 [0x1868]))).observe = ⟨3, 1, 5, [], [chA]⟩ ∧
    (after (step (loop0 [0x1868]))).srcPos = some 13 := by decide
/-- The implicit end: the digit budget is read to its last bit (the example of R133). -/
theorem test_implicit_end : (after (step { loop0 [0x61] with digitW := some 10 })).status = .doneOk := by decide
/-- `NONE` while `BUSY` leaves the call running (the example of R244). -/
theorem test_cmd_none : after (step { scan0 with host := [.issue 0] }) = scan0 := by decide
/-- The example of R170. -/
theorem test_start_compress : after (step { ready [chA, chB] [] 16 with host := [.issue 1] }) = scan0 := by decide
/-- The example of R243. -/
theorem test_start_compress_width : (after (exec .startCompress (ready [chA] [] 17))).observe = ⟨3, 3, 17, [], []⟩ := by decide
theorem test_start_decompress : after (step { ready [] [0x1843, 0x1540] 16 with host := [.issue 2] }) = first0 [0x1843, 0x1540] := by
  decide
/-- The example of R200: a length of 0 ends at once. -/
theorem test_start_decompress_empty : (after (exec .startDecompress (ready [] [] 16))).observe = ⟨2, 0, 0, [], []⟩ := by decide
/-- The example of R245. -/
theorem test_reset : after (exec .reset scan1) = { State.reset with inBuf := [chA, chB], cfgDigitW := 16 } := by decide
/-- The example of R171, first step: "a" gets code 3, nothing is written. -/
theorem test_scan_first : after (step scan0) = scan1 := by decide
/-- The example of R171, second step of "abab": "b" is 4, `LIT8/2 0x61` goes out, "ab" is 5, the schedule is (3, 4, 6). -/
theorem test_scan_send : (after (step scan1)).sched = some ⟨3, 4, 6⟩ ∧
    (after (step scan1)).cdict = some [([chA], 3), ([chB], 4), ([chA, chB], 5)] := by decide
/-- The example of R179: "a" gives [0x1850]. -/
theorem test_final : (after (step final1)).observe = ⟨2, 0, 0, [0x1850], []⟩ := by decide
/-- The example of R111. -/
theorem test_put_bit : (done (putBit true { scan0 with digitW := some 4, sink := some ⟨5, 3⟩ }) scan0).dout = [0xB] := by decide
/-- The example of R113. -/
theorem test_flush : (done (flush { scan0 with sink := some ⟨0x30A, 13⟩ }) scan0).dout = [0x1850] := by decide
/-- The example of R132: GetValue(2), GetValue(8), GetValue(3) of [0x1850] are 0, 0x61 and 2. -/
theorem test_get_value : [(0, 2), (2, 8), (10, 3)].map (fun x =>
    (done (getValue x.2 { first0 [0x1850] with srcPos := some x.1 }) (99, scan0)).1) = [0, 0x61, 2] := by decide
/-- The table of R159. -/
theorem test_ticks : [0, 1, 2, 3, 4, 5, 6, 7, 13, 14, 29, 30, 31].map (fun k =>
    ((Sched.ticks k ⟨2, 2, 3⟩).numBits, (Sched.ticks k ⟨2, 2, 3⟩).enlargeIn)) =
    [(2, 2), (2, 1), (3, 4), (3, 3), (3, 2), (3, 1), (4, 8), (4, 7), (4, 1), (5, 16), (5, 1), (6, 32), (6, 31)] := by decide

/-! ### Witnesses

For each statement with hypotheses, a concrete state and operands that meet all of them, clause by clause. -/

/-- The parameters with every capacity bounded. -/
def bounded (s : State) (dict out lenMax : Nat) : State := { s with caps := ⟨some dict, some out, some lenMax⟩ }

theorem dict0 : CDictOk [] 3 := ⟨by decide, by decide, by decide, by simp, by simp⟩

theorem scan0_ok : CompOk scan0 16 0 ⟨2, 2, 3⟩ ⟨0, 0⟩ [] [] [] where
  mode := rfl
  digitW := rfl
  width := by decide
  n := rfl
  ii := rfl
  sched := rfl
  sink := rfl
  cW := rfl
  cdict := rfl
  pending := rfl
  length := rfl
  srcPos := rfl
  dW := rfl
  ddict := rfl
  cout := rfl
  packer := ⟨by decide, by decide, by decide⟩
  dictOk := dict0
  pendingOk := ⟨by decide, by simp, by simp, by simp⟩
  schedOk := ⟨by decide, by decide, by decide⟩
  current := .inl ⟨rfl, rfl, rfl, rfl⟩

theorem dict1 : CDictOk (CDict.insert [] [chA] 3) 4 := dict0.insert [] chA rfl (by simp) (.inl rfl)

theorem pending1 : PendingOk [chA] (CDict.insert [] [chA] 3) [chA] where
  wf := by decide
  key := by intro v hv; obtain rfl := List.mem_singleton.mp hv; decide
  current := by intro v hv; obtain rfl := List.mem_singleton.mp hv; rfl
  unextended := by
    intro v _ t ht
    simp only [CDict.isKey_insert, CDict.isKey_nil, Bool.false_or, decide_eq_true_eq] at ht
    exact (List.cons.inj ht).2.symm

theorem scan1_ok : CompOk scan1 16 1 ⟨2, 2, 4⟩ ⟨0, 0⟩ [chA] (CDict.insert [] [chA] 3) [chA] :=
  ⟨rfl, rfl, by decide, rfl, rfl, rfl, rfl, rfl, rfl, rfl, rfl, rfl, rfl, rfl, rfl, ⟨by decide, by decide, by decide⟩, dict1, pending1,
    ⟨by decide, by decide, by decide⟩, .inr ⟨by decide, by decide⟩⟩

theorem final1_ok : CompOk final1 16 1 ⟨2, 2, 4⟩ ⟨0, 0⟩ [chA] (CDict.insert [] [chA] 3) [chA] :=
  ⟨rfl, rfl, by decide, rfl, rfl, rfl, rfl, rfl, rfl, rfl, rfl, rfl, rfl, rfl, rfl, ⟨by decide, by decide, by decide⟩, dict1, pending1,
    ⟨by decide, by decide, by decide⟩, .inr ⟨by decide, by decide⟩⟩

theorem scan0_inv : scan0.Inv := inv_of_running rfl rfl rfl (by decide) (by decide) ⟨_, _, _, _, _, _, _, scan0_ok, by decide⟩

theorem scan1_inv : scan1.Inv :=
  inv_of_running rfl rfl rfl (by decide) (by decide) ⟨_, _, _, _, _, _, _, scan1_ok, by decide⟩

theorem final1_inv : final1.Inv :=
  inv_of_running rfl rfl rfl (by decide) (by decide) ⟨_, _, _, _, _, _, _, final1_ok, by decide, by decide⟩

theorem first0_inv (digits : List Nat) (h : 1 ≤ digits.length) : (first0 digits).Inv :=
  inv_of_running rfl rfl rfl (show Phase.pDFirst ≠ .pIdle by decide) (show Phase.pDFirst ≠ .pHalt by decide)
    ⟨16, digits.length, rfl, rfl, by decide, rfl, h, rfl, rfl, rfl, rfl, rfl, rfl, rfl, rfl, rfl, rfl, rfl, rfl⟩

theorem loop0_inv (digits : List Nat) (h : 1 ≤ digits.length) : (loop0 digits).Inv :=
  inv_of_running rfl rfl rfl (show Phase.pDLoop ≠ .pIdle by decide) (show Phase.pDLoop ≠ .pHalt by decide)
    ⟨16, digits.length, 10, ⟨3, 4, 4⟩, [chA], DDict.seed.put 3 (.str [chA]), rfl, rfl, by decide, rfl, h, rfl, rfl, rfl, rfl, rfl,
      rfl, rfl, rfl, rfl, rfl, rfl, by decide, by decide, by decide, by decide, by decide, DDictOk.first [chA] (by simp)⟩

theorem halted_inv : halted.Inv := finish_inv { first0 [0x8000] with srcPos := some 2 } rfl rfl

theorem issue_inv (digits : List Nat) (w : BitVec 5) (c : BitVec 2) :
    ({ ready [] digits w with host := [.issue c] } : State).Inv :=
  ⟨⟨iff_of_true rfl rfl,
      iff_of_false (show Phase.pIdle ≠ .pHalt by decide) (show ¬ (Status.idle = .doneOk ∨ Status.idle = .doneFail) by decide),
      iff_of_false (show Status.idle ≠ .doneFail by decide) (show ¬ (Cause.none ≠ .none) by decide), rfl⟩,
    ⟨rfl, rfl, rfl, rfl, rfl, rfl, rfl, rfl, rfl, rfl, rfl, rfl, rfl, rfl, rfl⟩⟩

/-! Encoding. -/

theorem witness_DecodeEncodeRoundTrip : Instr.wf .cmd .reset = true ∧ Instr.wf .first (.fLit16 0xFFFF) = true ∧
    Instr.wf (.loop 1 3) (.lit16 0) = true ∧ Instr.wf (.loop 2 3) .eos = true ∧ Instr.wf (.loop 3 7) (.ref 6) = true ∧
    Instr.wf (.loop 3 7) .refNext = true ∧ Instr.wf (.loop 3 6) (.illegal 7) = true := by decide

theorem witness_EveryBitPatternIsOneRow : Instr.wf (.loop 3 6) (.ref 5) = true ∧
    takeBits (encode (.loop 3 6) (.ref 5)).length [true, false, true, true] = encode (.loop 3 6) (.ref 5) := by decide

theorem witness_CodeMeanings : 3 ≤ 6 ∧
    [[false, false, false], [false, false, true], [false, true, false], [false, true, true], [true, false, true], [true, true, false],
      [true, true, true]].map (fun bits => valueOf Config.codeOrder (takeBits 3 bits)) = [0, 1, 2, 3, 5, 6, 7] := by decide

/-! The step. -/

theorem witness_StepRunsIssuedCommand : ({ scan0 with host := [.issue 3, .yield] } : State).host = .issue 3 :: [.yield] := rfl

theorem witness_StepRunsFirstToken : (first0 [0xC000]).engineTurn ∧ (first0 [0xC000]).phase = .pDFirst ∧
    (first0 [0xC000]).digitW = some 16 ∧ (first0 [0xC000]).length = some 1 ∧ (first0 [0xC000]).srcPos = some 0 :=
  ⟨.inl rfl, rfl, rfl, rfl, rfl⟩

/-- Position 15 of 16 bits, the last at which a token is read, and position 16. -/
theorem witness_StepRunsLoopToken : ∀ pos ∈ [15, 16],
    let s : State := { loop0 [0x6100] with srcPos := some pos, host := [.yield] }
    s.engineTurn ∧ s.phase = .pDLoop ∧ s.digitW = some 16 ∧ s.length = some 1 ∧ s.srcPos = some pos ∧ s.sched = some ⟨3, 4, 4⟩ ∧
    (pos < 1 * 16 ∨ 1 * 16 ≤ pos) := by
  intro pos _; exact ⟨.inr rfl, rfl, rfl, rfl, rfl, rfl, by omega⟩

theorem witness_EngineWaitsWithoutACall : State.reset.engineTurn ∧ State.reset.phase = .pIdle ∧ halted.engineTurn ∧
    halted.phase = .pHalt := ⟨.inl rfl, rfl, .inl rfl, rfl⟩

theorem witness_HostWritesOnlyWhileNotBusy :
    halted.status ≠ .busy ∧ scan0.status = .busy ∧
    ({ halted with host := [.writeIn [chA]] } : State).host = .writeIn [chA] :: [] ∧
    ({ halted with host := [.writeDin [7]] } : State).host = .writeDin [7] :: [] ∧
    ({ halted with host := [.writeDigitW 6] } : State).host = .writeDigitW 6 :: [] ∧
    ({ halted with host := [.writeLength 2] } : State).host = .writeLength 2 :: [] ∧
    ({ scan0 with host := [.writeLength 2] } : State).host = .writeLength 2 :: [] := by decide

/-! Commands. -/

theorem witness_StartWhileBusyIsIgnored : scan0.status = .busy := rfl

/-- The least and the greatest width, an empty and a nonempty input. -/
theorem witness_StartCompressBegins : ∀ text ∈ [[], [chA]], ∀ w ∈ [(1 : BitVec 5), 16],
    (ready text [] w).status ≠ .busy ∧ (1 ≤ w.toNat ∧ w.toNat ≤ 16) ∧
    overfull (ready text [] w).caps.lenMax (ready text [] w).inBuf.length = false := by decide

theorem witness_StartDecompressBegins : ∀ digits ∈ [[], [0x8000]], ∀ w ∈ [(1 : BitVec 5), 16],
    (ready [] digits w).status ≠ .busy ∧ (1 ≤ w.toNat ∧ w.toNat ≤ 16) ∧
    overfull (ready [] digits w).caps.lenMax (ready [] digits w).cfgLength = false := by decide

theorem witness_ConfigCheckRefuses :
    (ready [] [] 0).status ≠ .busy ∧ (ready [] [] 0).cfgDigitW.toNat < 1 ∧ 16 < (ready [] [] 17).cfgDigitW.toNat ∧
    (1 ≤ (ready [chA, chB] [1, 2] 16).cfgDigitW.toNat ∧ (ready [chA, chB] [1, 2] 16).cfgDigitW.toNat ≤ 16) ∧
    overfull (bounded (ready [chA, chB] [1, 2] 16) 9 9 1).caps.lenMax (ready [chA, chB] [1, 2] 16).inBuf.length = true ∧
    overfull (bounded (ready [chA, chB] [1, 2] 16) 9 9 1).caps.lenMax (ready [chA, chB] [1, 2] 16).cfgLength = true := by decide

/-- A fresh engine and one with a past call, the same inputs. -/
theorem witness_StartForgetsHistory :
    let r := ready [] [0x8000] 16
    halted.status ≠ .busy ∧ r.status ≠ .busy ∧ r.inBuf = halted.inBuf ∧ r.din = halted.din ∧ r.cfgDigitW = halted.cfgDigitW ∧
    r.cfgLength = halted.cfgLength ∧ r.caps = halted.caps ∧ r.host = halted.host ∧ r ≠ halted ∧
    (1 ≤ halted.cfgDigitW.toNat ∧ halted.cfgDigitW.toNat ≤ 16) ∧
    overfull halted.caps.lenMax halted.inBuf.length = false ∧ overfull halted.caps.lenMax halted.cfgLength = false := by decide

/-! Tokens. -/

/-- Capacities with exactly the room the first literal needs: code 3 below 4, one character. -/
theorem witness_FirstLiterals :
    let s := bounded (first0 [0x1843]) 4 1 9
    s.ddict = some DDict.seed ∧ full s.caps.dict 3 = false ∧ overfull s.caps.out (s.cout.length + 1) = false := by decide

theorem witness_FirstLiterals_operands :
    (∃ p : BitVec 8, Instr.fLit8 0xFF = .fLit8 p ∧ (0xFF : Char16) = p.setWidth 16) ∧ Instr.fLit16 0x7F = .fLit16 0x7F :=
  ⟨⟨0xFF, rfl, rfl⟩, rfl⟩

theorem witness_LoopLiterals :
    let s := bounded (loop0 [0x1843]) 6 2 9
    s.sched = some ⟨3, 4, 4⟩ ∧ s.ddict = some (DDict.seed.put 3 (.str [chA])) ∧ s.dW = some [chA] ∧
    full s.caps.dict 4 = false ∧ full s.caps.dict 5 = false ∧ overfull s.caps.out (s.cout.length + 1) = false := by decide

theorem witness_References :
    let s := bounded (loop0 [0x1843]) 5 2 9
    s.sched = some ⟨3, 4, 4⟩ ∧ 1 ≤ (⟨3, 4, 4⟩ : Sched).enlargeIn ∧ s.ddict = some (DDict.seed.put 3 (.str [chA])) ∧
    s.dW = some [chA] ∧ (DDict.seed.put 3 (.str [chA])).get? 3 = some (.str [chA]) ∧ [chA].head? = some chA ∧
    full s.caps.dict 4 = false ∧ overfull s.caps.out (s.cout.length + [chA].length) = false := by decide

theorem witness_ReferencesToTheNextEntry :
    let s := bounded (loop0 [0x1843]) 5 3 9
    s.sched = some ⟨3, 4, 4⟩ ∧ 1 ≤ (⟨3, 4, 4⟩ : Sched).enlargeIn ∧ s.ddict = some (DDict.seed.put 3 (.str [chA])) ∧
    s.dW = some [chA] ∧ [chA].head? = some chA ∧ full s.caps.dict 4 = false ∧
    overfull s.caps.out (s.cout.length + [chA].length + 1) = false := by decide

/-- One bound for each clause, one short of the room it needs. -/
theorem witness_CapacityFaultOrder :
    let s := loop0 [0x1843]
    let f := first0 [0x1843]
    s.sched = some ⟨3, 4, 4⟩ ∧ s.ddict = some (DDict.seed.put 3 (.str [chA])) ∧ s.dW = some [chA] ∧
    (DDict.seed.put 3 (.str [chA])).get? 3 = some (.str [chA]) ∧ [chA].head? = some chA ∧
    full (bounded s 4 9 9).caps.dict 4 = true ∧
    (full (bounded s 5 1 9).caps.dict 4 = false ∧ overfull (bounded s 5 1 9).caps.out (s.cout.length + 1) = true) ∧
    (full (bounded s 5 2 9).caps.dict 4 = false ∧ overfull (bounded s 5 2 9).caps.out (s.cout.length + 1) = false ∧
      full (bounded s 5 2 9).caps.dict 5 = true) ∧
    (overfull (bounded s 4 2 9).caps.out (s.cout.length + 1) = false ∧ full (bounded s 4 2 9).caps.dict 4 = true) ∧
    overfull (bounded s 9 2 9).caps.out (s.cout.length + [chA].length + 1) = true ∧
    (overfull (bounded s 4 3 9).caps.out (s.cout.length + [chA].length + 1) = false ∧ full (bounded s 4 3 9).caps.dict 4 = true) ∧
    f.ddict = some DDict.seed ∧ full (bounded f 3 9 9).caps.dict 3 = true ∧
    (full (bounded f 4 0 9).caps.dict 3 = false ∧ overfull (bounded f 4 0 9).caps.out (f.cout.length + 1) = true) := by decide

/-! Compressor steps. -/

/-- "aaa" after two steps: the match is "a" and "aa" is a key, so the third 'a' extends it. -/
theorem witness_ScanExtendsTheMatch :
    let d : CDict := [([chA], 3), ([chA, chA], 4)]
    let s : State := { scan1 with
      inBuf := [chA, chA, chA], n := some 3, ii := some 2, cdict := some d, pending := some [], sched := some ⟨3, 4, 5⟩ }
    (s.host = [] ∧ s.phase = .pCScan ∧ s.ii = some 2 ∧ s.n = some 3 ∧ 2 < 3 ∧ s.inBuf[2]? = some chA ∧ s.cW = some [chA] ∧
      s.cdict = some d ∧ d.isKey [chA] = true ∧ d.isKey ([chA] ++ [chA]) = true) := by decide

theorem witness_ScanRegistersANewCharacter :
    scan1.host = [] ∧ scan1.phase = .pCScan ∧ scan1.ii = some 1 ∧ scan1.n = some 2 ∧ 1 < 2 ∧ scan1.inBuf[1]? = some chB ∧
    scan1.cdict = some [([chA], 3)] ∧ scan1.pending = some [chA] ∧ scan1.sched = some ⟨2, 2, 4⟩ ∧
    CDict.isKey [([chA], 3)] [chB] = false ∧ full (bounded scan1 5 9 9).caps.dict 4 = false ∧
    full (bounded scan1 4 9 9).caps.dict 4 = true := by decide

theorem witness_ScanSendsTheMatch :
    let s : State := { scan1 with inBuf := [chA, chA] }
    let d : CDict := [([chA], 3)]
    let bits := encode (.loop 2 4) (.lit8 0x61)
    let u := done (putBits bits { s.taken with ii := some 2 }) scan0
    let x : State := { bounded s 9 0 9 with digitW := some 4 }
    (s.host = [] ∧ s.phase = .pCScan ∧ s.ii = some 1 ∧ s.n = some 2 ∧ 1 < 2 ∧ s.inBuf[1]? = some chA ∧ s.cW = some [chA] ∧
      s.cdict = some d ∧ s.pending = some [chA] ∧ s.sched = some ⟨2, 2, 4⟩ ∧ d.isKey [chA] = true ∧
      d.isKey ([chA] ++ [chA]) = false ∧ matchToken [chA] d [chA] = some (.lit8 0x61) ∧ full (bounded s 5 9 9).caps.dict 4 = false ∧
      full (bounded s 4 9 9).caps.dict 4 = true) ∧
    putBits bits { s.taken with ii := some 2 } = .ok u ∧
    putBits bits { x.taken with ii := some 2 } = .error (.raised (fell (putBits bits { x.taken with ii := some 2 }))) := by
  refine ⟨by decide, ok_done (by decide), raised_fell (by decide)⟩

theorem witness_FinalStepEndsTheStream :
    let bits := encode (.loop 2 4) (.lit8 0x61) ++ bitsOf Config.codeOrder (Sched.ticks (tokenEvents (.lit8 0x61)) ⟨2, 2, 4⟩).numBits 2
    let u := done (putBits bits final1.taken) scan0
    (final1.host = [] ∧ final1.phase = .pCFinal ∧ final1.cW = some [chA] ∧ final1.cdict = some [([chA], 3)] ∧
      final1.pending = some [chA] ∧ final1.sched = some ⟨2, 2, 4⟩ ∧
      matchToken [chA] [([chA], 3)] [chA] = some (.lit8 0x61)) ∧
    putBits bits final1.taken = .ok u ∧ flush u = .ok (done (flush u) scan0) := by
  refine ⟨by decide, ok_done (by decide), ok_done (by decide)⟩

/-! The packer and the unpacker. -/

theorem witness_PutBitAppendsOneBit :
    scan0.digitW = some 16 ∧ 1 ≤ (16 : BitVec 5).toNat ∧
    (({ scan0 with sink := some ⟨1, 14⟩ } : State).sink = some ⟨1, 14⟩ ∧ 14 ≠ (16 : BitVec 5).toNat - 1) ∧
    (({ scan0 with sink := some ⟨1, 15⟩ } : State).sink = some ⟨1, 15⟩ ∧ 15 = (16 : BitVec 5).toNat - 1) ∧
    full (bounded scan0 9 1 9).caps.out scan0.dout.length = false ∧
    full (bounded scan0 9 0 9).caps.out scan0.dout.length = true := by decide

theorem witness_FlushPadsTheLastDigit : scan0.digitW = some 16 ∧ scan0.sink = some ⟨0, 0⟩ ∧
    full (bounded scan0 9 1 9).caps.out scan0.dout.length = false ∧
    full (bounded scan0 9 0 9).caps.out scan0.dout.length = true := by decide

theorem witness_PackerOutputsTheBits : scan0.digitW = some 16 ∧ 1 ≤ (16 : BitVec 5).toNat ∧ scan0.caps.out = none := by decide

theorem witness_PackerInvariantHolds :
    (scan0.digitW = some 16 ∧ 1 ≤ (16 : BitVec 5).toNat ∧ (∀ x ∈ scan0.dout, x < 2 ^ (16 : BitVec 5).toNat) ∧
      scan0.sink = some ⟨0, 0⟩) ∧ PackerOk 16 ⟨0, 0⟩ scan0.dout ∧
    putBit true scan0 = .ok (done (putBit true scan0) scan0) ∧ flush scan0 = .ok (done (flush scan0) scan0) :=
  ⟨by decide, ⟨by decide, by decide, by decide⟩, ok_done (by decide), ok_done (by decide)⟩

/-- The last index of the budget and the first one past it. -/
theorem witness_DigitInMasksAndPads : (loop0 [5, 6]).digitW = some 16 ∧ (loop0 [5, 6]).length = some 2 ∧ 1 < 2 ∧
    (loop0 [5, 6]).din[1]? = some 6 ∧ 2 ≤ 2 := by decide

theorem witness_GetValueReadsInOrder : (loop0 [5]).digitW = some 16 ∧ (loop0 [5]).length = some 1 ∧ (loop0 [5]).srcPos = some 10 := by
  decide

theorem witness_EagerUnpackerIsEquivalent : 1 ≤ 1 := by decide

theorem witness_TickCountsDownAndGrows : 2 ≤ 2 := by decide

/-! Faults. -/

/-- Each check with its bound one short of the room it needs, and with exactly that room: in a compression, at a loop head, before the first
token. -/
theorem witness_CapacityChecksGuardTheWrite :
    let c := bounded scan1 4 0 1
    let l := bounded (loop0 [5]) 4 1 1
    (c.sched = some ⟨2, 2, 4⟩ ∧ c.cdict = some [([chA], 3)] ∧ c.caps.dict = some 4 ∧ 4 ≤ 4 ∧
      (bounded scan1 5 9 9).caps.dict = some 5 ∧ 4 < 5) ∧
    (l.sched = some ⟨3, 4, 4⟩ ∧ l.ddict = some (DDict.seed.put 3 (.str [chA])) ∧ l.caps.dict = some 4) ∧
    ((first0 [5]).ddict = some DDict.seed ∧ (bounded (first0 [5]) 3 9 9).caps.dict = some 3 ∧ 3 ≤ 3 ∧ 3 < 4) ∧
    (c.caps.out = some 0 ∧ 0 ≤ c.dout.length ∧ c.dout.length < 1) ∧
    (l.caps.out = some 1 ∧ 1 < l.cout.length + [chA].length ∧ l.cout.length + [chA].length ≤ 2) ∧
    ((1 ≤ (16 : BitVec 5).toNat ∧ (16 : BitVec 5).toNat ≤ 16) ∧ c.caps.lenMax = some 1 ∧ 1 < 2 ∧ 1 ≤ 1) ∧
    (loop0 [5]).caps = Config.Caps.unbounded := by decide

/-- A move that ends in each of the four causes. -/
theorem witness_FaultsHaveTheirCauses :
    ((loop0 [0x1868]).Inv ∧ step (loop0 [0x1868]) = .next (after (step (loop0 [0x1868]))) ∧
      (loop0 [0x1868]).status ≠ .doneFail ∧ (after (step (loop0 [0x1868]))).status = .doneFail) ∧
    ((first0 [0xC000]).Inv ∧ step (first0 [0xC000]) = .next (after (step (first0 [0xC000]))) ∧
      (after (step (first0 [0xC000]))).status = .doneFail) ∧
    (({ ready [] [] 17 with host := [.issue 1] } : State).Inv ∧
      (after (step { ready [] [] 17 with host := [.issue 1] })).cause = .badConfig) ∧
    ((after (step (bounded scan0 3 9 9))).cause = .capacity ∧ scan0.Inv) :=
  ⟨⟨loop0_inv _ (by decide), next_after (by decide), by decide, by decide⟩,
    ⟨first0_inv _ (by decide), next_after (by decide), by decide⟩, ⟨issue_inv _ _ _, by decide⟩, ⟨by decide, scan0_inv⟩⟩

/-! What the host reads. -/

/-- A move that leaves the call running, and one that ends it in each way. -/
theorem witness_WhatTheHostReads :
    (scan0.Inv ∧ scan0.status = .busy ∧ scan0.cmdPort ≠ 3 ∧ step scan0 = .next (after (step scan0)) ∧
      (after (step scan0)).status = .busy) ∧
    (final1.Inv ∧ final1.status = .busy ∧ final1.cmdPort ≠ 3 ∧ step final1 = .next (after (step final1)) ∧
      (after (step final1)).result? = some (.digits [0x1850])) ∧
    ((first0 [0x8000]).Inv ∧ (first0 [0x8000]).cmdPort ≠ 3 ∧ step (first0 [0x8000]) = .next (after (step (first0 [0x8000]))) ∧
      (after (step (first0 [0x8000]))).result? = some (.text [])) ∧
    ((loop0 [0x1868]).Inv ∧ (loop0 [0x1868]).cmdPort ≠ 3 ∧ step (loop0 [0x1868]) = .next (after (step (loop0 [0x1868]))) ∧
      (after (step (loop0 [0x1868]))).result? = some (.failure .corruptCode 5)) :=
  ⟨⟨scan0_inv, rfl, by decide, next_after (by decide), by decide⟩, ⟨final1_inv, rfl, by decide, next_after (by decide), by decide⟩,
    ⟨first0_inv _ (by decide), by decide, next_after (by decide), by decide⟩,
    ⟨loop0_inv _ (by decide), by decide, next_after (by decide), by decide⟩⟩

theorem witness_WhatTheHostReads_din : (ready [] [0x8000] 6).din[0]? = some 0x8000 ∧
    (ready [chA] [0x8000] 6).hostReads = ⟨⟨0, 0, 0, [], []⟩, 6, 1, [chA], [0x8000]⟩ := by decide

/-! Invariants and whole-machine rules. -/

theorem witness_StepKeepsInv : scan1.Inv ∧ step scan1 = .next (after (step scan1)) := ⟨scan1_inv, next_after (by decide)⟩

theorem witness_InvStepAnswersNext : final1.Inv ∧ final1.hostKeepsDuty ∧ halted.Inv ∧
    ({ halted with host := [.writeLength 3] } : State).hostKeepsDuty :=
  ⟨final1_inv, trivial, halted_inv, by simp [State.hostKeepsDuty, halted]⟩

theorem witness_LoopHeadBalance : (loop0 [0x1843, 0x1540]).Inv ∧
    step (loop0 [0x1843, 0x1540]) = .next (after (step (loop0 [0x1843, 0x1540]))) ∧
    (after (step (loop0 [0x1843, 0x1540]))).phase = .pDLoop ∧ (after (step (loop0 [0x1843, 0x1540]))).sched = some ⟨3, 2, 6⟩ :=
  ⟨loop0_inv _ (by decide), next_after (by decide), by decide, by decide⟩

theorem witness_CompressorBalance : scan0.Inv ∧ step scan0 = .next (after (step scan0)) ∧ (after (step scan0)).phase = .pCScan ∧
    (after (step scan0)).sched = some ⟨2, 2, 4⟩ ∧ (after (step scan0)).pending = some [chA] ∧ (after (step scan0)).cW = some [chA] :=
  ⟨scan0_inv, next_after (by decide), by decide, by decide, by decide, by decide⟩

/-- A compression of "aaa" whose match "aa" is sent by reference. -/
def scanRef : State := { scan1 with
  inBuf := [chA, chA, chA], n := some 3, ii := some 3, phase := .pCFinal, cW := some [chA, chA],
  cdict := some (CDict.insert (CDict.insert [] [chA] 3) [chA, chA] 4), pending := some [], sched := some ⟨3, 4, 5⟩ }

theorem scanRef_inv : scanRef.Inv := by
  refine inv_of_running rfl rfl rfl (by decide) (by decide)
    ⟨16, 3, ⟨3, 4, 5⟩, ⟨0, 0⟩, [chA, chA], CDict.insert (CDict.insert [] [chA] 3) [chA, chA] 4, [], ?_, rfl, by decide⟩
  exact ⟨rfl, rfl, by decide, rfl, rfl, rfl, rfl, rfl, rfl, rfl, rfl, rfl, rfl, rfl, rfl, ⟨by decide, by decide, by decide⟩,
    dict1.insert [chA] chA (by decide) (by decide) (.inr (by decide)), ⟨by decide, by simp, by simp, by simp⟩,
    ⟨by decide, by decide, by decide⟩, .inr ⟨by decide, by decide⟩⟩

/-- A match sent by reference, and a pending one. -/
theorem witness_CodesFitTheirField : (scanRef.Inv ∧ scanRef.phase = .pCFinal ∧ scanRef.sched = some ⟨3, 4, 5⟩ ∧
    scanRef.cdict = some [([chA], 3), ([chA, chA], 4)] ∧ scanRef.pending = some [] ∧ scanRef.cW = some [chA, chA] ∧
    matchToken [] [([chA], 3), ([chA, chA], 4)] [chA, chA] = some (.ref 4)) ∧
    (scan1.Inv ∧ scan1.phase = .pCScan ∧ scan1.sched = some ⟨2, 2, 4⟩ ∧ scan1.cdict = some [([chA], 3)] ∧
      scan1.pending = some [chA] ∧ scan1.cW = some [chA] ∧ matchToken [chA] [([chA], 3)] [chA] = some (.lit8 0x61)) :=
  ⟨⟨scanRef_inv, rfl, rfl, rfl, rfl, rfl, by decide⟩, ⟨scan1_inv, rfl, rfl, rfl, rfl, rfl, by decide⟩⟩

theorem witness_OnlyTheHostWritesItsInputs :
    step { halted with host := [.writeIn [chA]] } = .next (after (step { halted with host := [.writeIn [chA]] })) :=
  next_after (by decide)

theorem witness_OutputsOnlyGrow : step final1 = .next (after (step final1)) ∧ (after (step final1)).dout = [0x1850] :=
  ⟨next_after (by decide), by decide⟩

/-- A move into each status. -/
theorem witness_StatusIsWrittenOnlyHere :
    ((first0 [0x8000]).Inv ∧ step (first0 [0x8000]) = .next (after (step (first0 [0x8000]))) ∧
      (after (step (first0 [0x8000]))).status = .doneOk) ∧
    ((after (step { ready [] [0x8000] 16 with host := [.issue 2] })).status = .busy ∧
      ({ ready [] [0x8000] 16 with host := [.issue 2] } : State).Inv) ∧
    (after (step { halted with host := [.issue 3] })).status = .idle ∧
    (after (step (loop0 [0x1868]))).status = .doneFail :=
  ⟨⟨first0_inv _ (by decide), next_after (by decide), by decide⟩, ⟨by decide, issue_inv _ _ _⟩, by decide, by decide⟩

theorem witness_CallsOnlyExtendTheirTables :
    (scan1.Inv ∧ scan1.status = .busy ∧ scan1.cmdPort ≠ 3 ∧ step scan1 = .next (after (step scan1)) ∧
      scan1.cdict = some [([chA], 3)]) ∧
    ((loop0 [0x1843, 0x1540]).Inv ∧ (loop0 [0x1843, 0x1540]).status = .busy ∧ (loop0 [0x1843, 0x1540]).cmdPort ≠ 3 ∧
      step (loop0 [0x1843, 0x1540]) = .next (after (step (loop0 [0x1843, 0x1540])))) :=
  ⟨⟨scan1_inv, rfl, by decide, next_after (by decide), rfl⟩, ⟨loop0_inv _ (by decide), rfl, by decide, next_after (by decide)⟩⟩

theorem witness_PendingEntersOnce : scan1.Inv ∧ scan1.status = .busy ∧ scan1.cmdPort ≠ 3 ∧ step scan1 = .next (after (step scan1)) ∧
    scan1.cdict = some [([chA], 3)] ∧ scan1.pending = some [chA] ∧
    (after (step scan1)).cdict = some [([chA], 3), ([chB], 4), ([chA, chB], 5)] ∧ (after (step scan1)).pending = some [chB] ∧
    chB ∈ [chB] :=
  ⟨scan1_inv, rfl, by decide, next_after (by decide), rfl, rfl, by decide, by decide, by decide⟩

theorem witness_EndedCallsStayEnded : halted.Inv ∧ halted.ended ∧ halted.cmdPort = 0 ∧ step halted = .next (after (step halted)) :=
  ⟨halted_inv, .inl rfl, rfl, next_after (by decide)⟩

theorem witness_OtherBufferStaysEmpty :
    (final1.Inv ∧ final1.status = .busy ∧ final1.cmdPort ≠ 3 ∧ step final1 = .next (after (step final1)) ∧
      final1.mode = some .compress) ∧
    ((loop0 [0x1868]).Inv ∧ (loop0 [0x1868]).status = .busy ∧ (loop0 [0x1868]).cmdPort ≠ 3 ∧
      step (loop0 [0x1868]) = .next (after (step (loop0 [0x1868]))) ∧ (loop0 [0x1868]).mode = some .decompress) :=
  ⟨⟨final1_inv, rfl, by decide, next_after (by decide), rfl⟩, ⟨loop0_inv _ (by decide), rfl, by decide, next_after (by decide), rfl⟩⟩

theorem witness_DigitsFitTheirWidth : final1.Inv ∧ final1.status = .busy ∧ final1.cmdPort ≠ 3 ∧
    step final1 = .next (after (step final1)) ∧ final1.mode = some .compress ∧ final1.digitW = some 16 :=
  ⟨final1_inv, rfl, by decide, next_after (by decide), rfl, rfl⟩

/-! Calls. -/

/-- Two buffers that differ above bit 15 of the one digit of the budget, and past it. -/
theorem witness_DecompressionReadsOnlyItsDigits :
    let s := first0 [0x8000]
    (s.host = [] ∧ s.mode = some .decompress ∧ s.digitW = some 16 ∧ s.length = some 1) ∧ s.Inv ∧
    sameDigits (16 : BitVec 5).toNat 1 s.din [0x28000, 7] ∧ moves 1 s = .next (after (moves 1 s)) :=
  ⟨by decide, first0_inv _ (by decide), by unfold sameDigits; decide, next_after (by decide)⟩

/-- An end token inside a budget of two digits after two more tokens, a third digit past it, and one that ends with the budget's last bit. -/
theorem witness_DecompressionReadsOnlyItsDigits_end :
    let s := loop0 [0x1843, 0x1540]
    let u := after (moves 2 s)
    (s.host = [] ∧ s.mode = some .decompress ∧ s.digitW = some 16 ∧ s.length = some 2 ∧ u.status = .busy ∧ u.srcPos = some 24 ∧
      24 < 2 * (16 : BitVec 5).toNat ∧ (after (step u)).status = .doneOk ∧ (after (step u)).srcPos = some 27 ∧
      27 ≤ 2 * (16 : BitVec 5).toNat ∧ 2 ≤ 3) ∧
    s.Inv ∧ sameDigits (16 : BitVec 5).toNat 2 s.din [0x1843, 0x1540, 0xFFFF] ∧ moves 2 s = .next u ∧ step u = .next (after (step u)) :=
  ⟨by decide, loop0_inv _ (by decide), by unfold sameDigits; decide, next_after (by decide), next_after (by decide)⟩

theorem witness_DecompressionReadsOnlyItsDigits_last_bit :
    let s : State := { first0 [2] with digitW := some 2 }
    (s.host = [] ∧ s.mode = some .decompress ∧ s.digitW = some 2 ∧ s.length = some 1 ∧ s.status = .busy ∧ s.srcPos = some 0 ∧
      0 < 1 * (2 : BitVec 5).toNat ∧ (after (step s)).status = .doneOk ∧ (after (step s)).srcPos = some 2 ∧
      2 ≤ 1 * (2 : BitVec 5).toNat ∧ 1 ≤ 2) ∧
    s.Inv ∧ sameDigits (2 : BitVec 5).toNat 1 s.din [6, 3] ∧ moves 0 s = .next s ∧ step s = .next (after (step s)) :=
  ⟨by decide, inv_of_running rfl rfl rfl (by decide) (by decide)
      ⟨2, 1, rfl, rfl, by decide, rfl, by decide, rfl, rfl, rfl, rfl, rfl, rfl, rfl, rfl, rfl, rfl, rfl, rfl⟩,
    by unfold sameDigits; decide, rfl, next_after (by decide)⟩

/-- R223: the digits after an end token change nothing (the example of R210 with one digit more). -/
theorem test_digits_after_end :
    (after (moves 3 { loop0 [0x1843, 0x1540, 0xFFFF] with length := some 3 })).result? = some (.text [chA, chB, chA, chB]) := by decide

theorem witness_CompressionIsAFunctionOfItsInput :
    let s := ready [] [0x8000] 16
    (s.status ≠ .busy ∧ halted.status ≠ .busy ∧ s.host = [] ∧ halted.host = [] ∧ halted.inBuf = s.inBuf ∧
      halted.cfgDigitW = s.cfgDigitW ∧ halted.caps = s.caps) ∧
    exec .startCompress s = .next (after (exec .startCompress s)) ∧
    exec .startCompress halted = .next (after (exec .startCompress halted)) ∧
    moves 1 (after (exec .startCompress s)) = .next (after (moves 1 (after (exec .startCompress s)))) :=
  ⟨by decide, next_after (by decide), next_after (by decide), next_after (by decide)⟩

theorem witness_CompressionTakesNPlusOneSteps :
    let s := ready [chA] [] 1
    s.status ≠ .busy ∧ (1 ≤ s.cfgDigitW.toNat ∧ s.cfgDigitW.toNat ≤ 16) ∧ s.caps = Config.Caps.unbounded ∧ s.host = [] ∧
    s.inBuf ≠ [] := by decide

/-- A bounded dictionary, which the call overruns. -/
theorem witness_CompressionTakesNPlusOneSteps_bounded :
    let s := bounded (ready [chA] [] 1) 3 9 9
    (s.status ≠ .busy ∧ s.host = []) ∧ exec .startCompress s = .next (after (exec .startCompress s)) :=
  ⟨by decide, next_after (by decide)⟩

theorem witness_DecompressionEnds :
    let s := ready [] [0x1843] 16
    (s.status ≠ .busy ∧ s.host = []) ∧ exec .startDecompress s = .next (after (exec .startDecompress s)) :=
  ⟨by decide, next_after (by decide)⟩

theorem witness_DecompressionInvertsCompression : State.reset.status ≠ .busy ∧ State.reset.caps = Config.Caps.unbounded ∧
    (1 ≤ (16 : BitVec 5).toNat ∧ (16 : BitVec 5).toNat ≤ 16) := by decide

end Sys2Proof.Machine.Tests
end

/-!
SUPPORT and PROOFS. What one move can do, said once (`Moved`, `engineStep_answers`), and from it the invariant (O42), where `STATUS` is
written (O49), what a running call keeps of its tables (O50) and the result of a call (O60).
-/

namespace Sys2Proof.Machine

/-! ### Outcomes -/

/-- The outcome is a next state, and it meets `P`. -/
def Answers (o : Host.Outcome State Fault Refusal) (P : State → Prop) : Prop := ∃ t, o = .next t ∧ P t

theorem Answers.of_next {o : Host.Outcome State Fault Refusal} {P : State → Prop} {t : State} (h : Answers o P) (ht : o = .next t) :
    P t := by
  obtain ⟨u, hu, hP⟩ := h
  obtain rfl : u = t := by simpa [hu] using ht
  exact hP

theorem Res.Sat.answers {P : State → Prop} {r : Res State} (h : r.Sat False P P) : Answers r.outcome P := by
  obtain ⟨t, ht, hP⟩ := h.outcome.resolve_right fun hf => hf.1
  exact ⟨t, ht, hP.elim id id⟩

theorem Res.Sat.and {α : Type} {M : Prop} {Q Q' : State → Prop} {P P' : α → Prop} {r : Res α} (h : r.Sat M Q P)
    (h' : r.Sat True Q' P') : r.Sat M (fun s => Q s ∧ Q' s) fun a => P a ∧ P' a := by
  match r, h, h' with
  | .ok _, h, h' => exact ⟨h, h'⟩
  | .error (.raised _), h, h' => exact ⟨h, h'⟩
  | .error (.model _), h, _ => exact h

/-! ### What each phase requires -/

theorem phaseOk_scan {s : State} (h : s.phase = .pCScan) :
    s.PhaseOk ↔ ∃ dw i sc k w d p, CompOk s dw i sc k w d p ∧ i < s.inBuf.length := by rw [State.PhaseOk, h]

theorem phaseOk_final {s : State} (h : s.phase = .pCFinal) :
    s.PhaseOk ↔ ∃ dw i sc k w d p, CompOk s dw i sc k w d p ∧ i = s.inBuf.length ∧ 0 < i := by rw [State.PhaseOk, h]

theorem phaseOk_first {s : State} (h : s.phase = .pDFirst) : s.PhaseOk ↔ ∃ dw len, FirstOk s dw len := by
  rw [State.PhaseOk, h]

theorem phaseOk_loop {s : State} (h : s.phase = .pDLoop) : s.PhaseOk ↔ ∃ dw len pos sc w d, LoopOk s dw len pos sc w d := by
  rw [State.PhaseOk, h]

theorem phaseOk_idle {s : State} (h : s.phase = .pIdle) : s.PhaseOk ↔ s.IdleOk := by rw [State.PhaseOk, h]

theorem phaseOk_halt {s : State} (h : s.phase = .pHalt) : s.PhaseOk := by rw [State.PhaseOk, h]; trivial

/-- The control fields of a running call. -/
structure State.Running (s : State) : Prop where
  status : s.status = .busy
  cause : s.cause = .none
  faultInfo : s.faultInfo = 0

theorem State.Running.of_sameControl {s t : State} (h : s.Running) (hc : SameControl s t) : t.Running :=
  ⟨hc.status.trans h.status, hc.cause.trans h.cause, hc.faultInfo.trans h.faultInfo⟩

/-- A busy engine stands in one of the four phases of a call (R24). -/
theorem State.Inv.phase_of_busy {s : State} (h : s.Inv) (hb : s.status = .busy) : s.phase ≠ .pIdle ∧ s.phase ≠ .pHalt :=
  ⟨fun hp => by simp [h.control.idle.mp hp] at hb, fun hp => by rcases h.control.ended.mp hp with hd | hd <;> simp [hd] at hb⟩

/-- What a running call works on: a compression, a decompression before its first token, or one at a loop head. -/
theorem State.Inv.work_of_busy {s : State} (h : s.Inv) (hb : s.status = .busy) :
    (∃ dw i sc k w d p, CompOk s dw i sc k w d p) ∨ (∃ dw len, FirstOk s dw len) ∨
      ∃ dw len pos sc w d, LoopOk s dw len pos sc w d := by
  obtain ⟨hi, hh⟩ := h.phase_of_busy hb
  cases hp : s.phase with
  | pIdle => exact absurd hp hi
  | pHalt => exact absurd hp hh
  | pCScan =>
    obtain ⟨dw, i, sc, k, w, d, p, hc, _⟩ := (phaseOk_scan hp).mp h.work
    exact .inl ⟨dw, i, sc, k, w, d, p, hc⟩
  | pCFinal =>
    obtain ⟨dw, i, sc, k, w, d, p, hc, _⟩ := (phaseOk_final hp).mp h.work
    exact .inl ⟨dw, i, sc, k, w, d, p, hc⟩
  | pDFirst => exact .inr (.inl ((phaseOk_first hp).mp h.work))
  | pDLoop => exact .inr (.inr ((phaseOk_loop hp).mp h.work))

/-- A running call has a direction (R25). -/
theorem State.Inv.mode_of_busy {s : State} (h : s.Inv) (hb : s.status = .busy) :
    s.mode = some .compress ∨ s.mode = some .decompress := by
  rcases h.work_of_busy hb with ⟨_, _, _, _, _, _, _, hc⟩ | ⟨_, _, hf⟩ | ⟨_, _, _, _, _, _, hl⟩
  · exact .inl hc.mode
  · exact .inr hf.mode
  · exact .inr hl.mode

/-! ### The host's side is no part of the invariant -/

theorem State.Inv.setHost {s : State} (h : s.Inv) (l : List HostMove) : (s.setHost l).Inv where
  control := { h.control with }
  work := by
    have hw := h.work
    cases hp : s.phase with
    | pIdle => exact (phaseOk_idle (s := s.setHost l) hp).mpr { (phaseOk_idle hp).mp hw with }
    | pCScan =>
      obtain ⟨dw, i, sc, k, w, d, p, hc, hi⟩ := (phaseOk_scan hp).mp hw
      exact (phaseOk_scan (s := s.setHost l) hp).mpr ⟨dw, i, sc, k, w, d, p, { hc with }, hi⟩
    | pCFinal =>
      obtain ⟨dw, i, sc, k, w, d, p, hc, hi⟩ := (phaseOk_final hp).mp hw
      exact (phaseOk_final (s := s.setHost l) hp).mpr ⟨dw, i, sc, k, w, d, p, { hc with }, hi⟩
    | pDFirst =>
      obtain ⟨dw, len, hf⟩ := (phaseOk_first hp).mp hw
      exact (phaseOk_first (s := s.setHost l) hp).mpr ⟨dw, len, { hf with }⟩
    | pDLoop =>
      obtain ⟨dw, len, pos, sc, w, d, hl⟩ := (phaseOk_loop hp).mp hw
      exact (phaseOk_loop (s := s.setHost l) hp).mpr ⟨dw, len, pos, sc, w, d, { hl with }⟩
    | pHalt => exact phaseOk_halt (s := s.setHost l) hp

theorem State.Inv.taken {s : State} (h : s.Inv) : s.taken.Inv := h.setHost _

/-- While no call runs the host may change its inputs (R305). -/
theorem State.Inv.write {s : State} (h : s.Inv) (hs : s.status ≠ .busy) (text : Str) (digits : List Nat) (w : BitVec 5)
    (len : Nat) : ({ s with inBuf := text, din := digits, cfgDigitW := w, cfgLength := len } : State).Inv where
  control := { h.control with }
  work := by
    by_cases hp : s.phase = .pIdle
    · exact (phaseOk_idle (by exact hp)).mpr { (phaseOk_idle hp).mp h.work with }
    · by_cases hh : s.phase = .pHalt
      · exact phaseOk_halt (by exact hh)
      · exact absurd (h.running hp hh).1 hs

theorem powerOn_inv (s : State) : s.powerOn.Inv where
  control := ⟨by simp, by simp, by simp, rfl⟩
  work := (phaseOk_idle rfl).mpr (by constructor <;> rfl)

/-! ### A move -/

/-- What a move can be: the engine's turn, a command (R93), or a host write (R240, R305). -/
inductive Moved (s t : State) : Prop
  | engine (turn : s.engineTurn) (h : engineStep s.taken = .next t)
  | ignored (cmd : s.cmdPort = 0 ∨ s.status = .busy) (h : t = s.taken)
  | startCompress (cmd : s.cmdPort = 1) (waits : s.status ≠ .busy) (h : (startCompress s.taken).outcome = .next t)
  | startDecompress (cmd : s.cmdPort = 2) (waits : s.status ≠ .busy) (h : (startDecompress s.taken).outcome = .next t)
  | reset (cmd : s.cmdPort = 3) (h : t = s.taken.powerOn)
  | write (waits : s.status ≠ .busy) (text : Str) (digits : List Nat) (w : BitVec 5) (len : Nat)
      (h : t = { s.taken with inBuf := text, din := digits, cfgDigitW := w, cfgLength := len })

/-- The four values of `CMD` (R93). -/
theorem cmd_cases (c : BitVec 2) : c = 0 ∨ c = 1 ∨ c = 2 ∨ c = 3 := by
  revert c; decide

theorem command_moved {s t : State} {c : BitVec 2} (hc : s.cmdPort = c) (h : exec (decodeCmd c) s.taken = .next t) : Moved s t := by
  rcases cmd_cases c with rfl | rfl | rfl | rfl
  · obtain rfl : s.taken = t := by simpa [decodeCmd, assemble, commandOf, exec, execCmdNone] using h
    exact .ignored (.inl hc) rfl
  · replace h : execStartCompress s.taken = .next t := h
    unfold execStartCompress at h
    split at h
    · rename_i hb; cases h; exact .ignored (.inr hb) rfl
    · rename_i hb; exact .startCompress hc hb h
  · replace h : execStartDecompress s.taken = .next t := h
    unfold execStartDecompress at h
    split at h
    · rename_i hb; cases h; exact .ignored (.inr hb) rfl
    · rename_i hb; exact .startDecompress hc hb h
  · exact .reset hc (by cases h; rfl)

theorem hostWrite_next {w s t : State} (h : hostWrite w s = .next t) : s.status ≠ .busy ∧ t = w := by
  unfold hostWrite at h
  split at h
  · cases h
  · rename_i hb; cases h; exact ⟨hb, rfl⟩

theorem step_moved {s t : State} (h : step s = .next t) : Moved s t := by
  have ht : s.taken = s.setHost s.host.tail := rfl
  cases hh : s.host with
  | nil => exact .engine (.inl hh) ((advance_of_turn s (.inl hh)).symm.trans h)
  | cons m rest =>
    rw [step, advance] at h
    simp only [hh] at h
    rw [hh] at ht
    cases m with
    | yield => exact .engine (.inr (by rw [hh]; rfl)) (by rw [ht]; exact h)
    | issue c => exact command_moved (by rw [State.cmdPort, hh]) (by rw [ht]; exact h)
    | writeIn text =>
      obtain ⟨hb, rfl⟩ := hostWrite_next h
      exact .write hb text s.din s.cfgDigitW s.cfgLength (by rw [ht]; rfl)
    | writeDin digits =>
      obtain ⟨hb, rfl⟩ := hostWrite_next h
      exact .write hb s.inBuf _ s.cfgDigitW s.cfgLength (by rw [ht]; rfl)
    | writeDigitW w =>
      obtain ⟨hb, rfl⟩ := hostWrite_next h
      exact .write hb s.inBuf s.din w s.cfgLength (by rw [ht]; rfl)
    | writeLength len =>
      obtain ⟨hb, rfl⟩ := hostWrite_next h
      exact .write hb s.inBuf s.din s.cfgDigitW len (by rw [ht]; rfl)

/-! ### The two STARTs -/

/-- The packer, dictionary, pending set and schedule `C_INIT` writes are sound (R170). -/
theorem compOk_init {s : State} {dw : BitVec 5} (hm : s.mode = some .compress) (hw : s.digitW = some dw) (hl : legalWidth dw)
    (hn : s.n = some s.inBuf.length) (hd : s.dout = []) (hc : s.cout = []) :
    CompOk (sinkInit s.initCompress) dw 0 Sched.compressorSeed ⟨0, 0⟩ [] [] [] where
  mode := hm
  digitW := hw
  width := hl
  n := hn
  ii := rfl
  sched := rfl
  sink := rfl
  cW := rfl
  cdict := rfl
  pending := rfl
  length := rfl
  srcPos := rfl
  dW := rfl
  ddict := rfl
  cout := hc
  packer := ⟨by decide, hl.1, by simp [hd]⟩
  dictOk := ⟨rfl, rfl, rfl, by simp, by simp⟩
  pendingOk := ⟨rfl, by simp, by simp, by simp⟩
  schedOk := ⟨by decide, by decide, by decide⟩
  current := .inl ⟨rfl, rfl, rfl, rfl⟩

/-- A state of an accepted call, running or over, that has the invariant. -/
structure State.InCall (t : State) : Prop where
  inv : t.Inv
  begun : t.status ≠ .idle

theorem Faulted.inCall {s t : State} (h : Faulted s t) : t.InCall := by
  refine ⟨h.inv, ?_⟩
  obtain ⟨u, c, i, rfl, _⟩ := h
  simp

theorem finish_inCall {u : State} (hc : u.cause = .none) (hi : u.faultInfo = 0) : u.finish.InCall :=
  ⟨finish_inv u hc hi, by simp⟩

theorem inCall_of_running {t : State} (hr : t.Running) (hp : t.phase ≠ .pIdle) (hh : t.phase ≠ .pHalt) (hw : t.PhaseOk) :
    t.InCall := by
  obtain ⟨hs, hc, hi⟩ := hr
  exact ⟨inv_of_running hs hc hi hp hh hw, by simp [hs]⟩

/-- `C_INIT` ends the call of an empty text, and begins the scan of any other (R170, R180). -/
theorem cInit_sat {s : State} {dw : BitVec 5} (hr : s.Running) (hm : s.mode = some .compress) (hw : s.digitW = some dw)
    (hl : legalWidth dw) (hn : s.n = some s.inBuf.length) (hd : s.dout = []) (hc : s.cout = []) :
    (cInit s).Sat False State.InCall State.InCall := by
  unfold cInit
  rw [hn, need_some, Res.ok_bind]
  split
  · exact finish_inCall hr.cause hr.faultInfo
  · rename_i h0
    refine inCall_of_running { hr with } (by simp) (by simp) ((phaseOk_scan rfl).mpr ?_)
    exact ⟨dw, 0, _, _, _, _, _, (compOk_init hm hw hl hn hd hc).setPhase _, Nat.pos_of_ne_zero h0⟩

/-- `D_INIT` ends the call of an empty stream, and waits for the first token of any other (R200). -/
theorem dInit_sat {s : State} {dw : BitVec 5} {len : Nat} (hr : s.Running) (hm : s.mode = some .decompress)
    (hw : s.digitW = some dw) (hl : legalWidth dw) (hlen : s.length = some len) (hd : s.dout = []) (hc : s.cout = []) :
    (dInit s).Sat False State.InCall State.InCall := by
  unfold dInit
  rw [hlen, need_some, Res.ok_bind]
  split
  · exact finish_inCall hr.cause hr.faultInfo
  · rename_i h0
    refine inCall_of_running { hr with } (by simp) (by simp) ((phaseOk_first rfl).mpr ⟨dw, len, ?_⟩)
    exact ⟨hm, hw, hl, hlen, Nat.pos_of_ne_zero h0, rfl, rfl, rfl, rfl, rfl, rfl, rfl, rfl, rfl, rfl, hd, hc⟩

/-- The configuration check accepts a legal width, or an engine fault ends the call (R243). -/
theorem configCheck_sat (dw : BitVec 5) (len : Nat) (s : State) :
    (configCheck dw len s).Sat False State.InCall fun t => t = s ∧ legalWidth dw := by
  rcases configCheck_cases dw len s with ⟨hl, h⟩ | ⟨_, _, h⟩ | ⟨hl, _, h⟩ <;> rw [h]
  · exact ⟨enterFault_inv _ _ _ (by simp) (infoLegal_badConfig dw hl), by simp⟩
  · exact ⟨enterFault_inv _ _ _ (by simp) (by simp [infoLegal]), by simp⟩
  · exact ⟨rfl, hl⟩

/-- From any state a START that is not ignored leaves a running or ended call with the invariant (R241). -/
theorem startCompress_sat (s : State) : (startCompress s).Sat False State.InCall State.InCall := by
  refine (configCheck_sat _ _ _).bind ?_
  rintro t ⟨rfl, hl⟩
  exact cInit_sat ⟨rfl, rfl, rfl⟩ rfl rfl hl rfl rfl rfl

/-- The same of the other direction (R242). -/
theorem startDecompress_sat (s : State) : (startDecompress s).Sat False State.InCall State.InCall := by
  refine (configCheck_sat _ _ _).bind ?_
  rintro t ⟨rfl, hl⟩
  exact dInit_sat ⟨rfl, rfl, rfl⟩ rfl rfl hl rfl rfl rfl

/-! ### What a running call keeps -/

/-- What `x` holds stays, or becomes something `r` relates it to. -/
def KeptBy {α : Type} (r : α → α → Prop) (x y : Option α) : Prop := ∀ a, x = some a → ∃ b, y = some b ∧ r a b

theorem KeptBy.refl {α : Type} {r : α → α → Prop} (hr : ∀ a, r a a) (x : Option α) : KeptBy r x x :=
  fun a ha => ⟨a, ha, hr a⟩

theorem KeptBy.trans {α : Type} {r : α → α → Prop} (hr : ∀ a b c, r a b → r b c → r a c) {x y z : Option α}
    (h : KeptBy r x y) (k : KeptBy r y z) : KeptBy r x z := by
  intro a ha
  obtain ⟨b, hb, hab⟩ := h a ha
  obtain ⟨c, hc, hbc⟩ := k b hb
  exact ⟨c, hc, hr a b c hab hbc⟩

theorem KeptBy.of_some {α : Type} {r : α → α → Prop} {x : Option α} {a b : α} (hx : x = some a) (hr : r a b) :
    KeptBy r x (some b) := by
  subst hx
  rintro _ ⟨⟩
  exact ⟨b, rfl, hr⟩

/-- Neither the width nor the next code goes down (R27, R29). -/
def Sched.NotBelow (a b : Sched) : Prop := a.numBits ≤ b.numBits ∧ a.nextCode ≤ b.nextCode

/-- Every entry stays as it is (R57). -/
def DDict.Within (a b : DDict) : Prop := ∀ k e, a.get? k = some e → b.get? k = some e

/-- `DDICT` holds nothing at `NEXT_CODE` or past it, so an insertion there overwrites nothing (R57). -/
def State.NextFree (s : State) : Prop :=
  ∀ sc d, s.sched = some sc → s.ddict = some d → ∀ k, sc.nextCode ≤ k → d.get? k = none

/-- `MODE` and the tables of the call in `s` are still there in `t`, and have only grown (R25, R27, R29, R54, R57). -/
structure Enlarges (s t : State) : Prop where
  mode : t.mode = s.mode
  sched : KeptBy Sched.NotBelow s.sched t.sched
  cdict : KeptBy (· <+: ·) s.cdict t.cdict
  ddict : s.NextFree → t.NextFree ∧ KeptBy DDict.Within s.ddict t.ddict

theorem Sched.NotBelow.refl (a : Sched) : a.NotBelow a := ⟨le_rfl, le_rfl⟩

theorem Enlarges.of_same {s t : State} (hm : t.mode = s.mode) (hs : t.sched = s.sched) (hc : t.cdict = s.cdict)
    (hd : t.ddict = s.ddict) : Enlarges s t where
  mode := hm
  sched := hs ▸ .refl Sched.NotBelow.refl _
  cdict := hc ▸ .refl (fun _ => List.prefix_rfl) _
  ddict hf := ⟨by rw [State.NextFree, hs, hd]; exact hf, hd ▸ .refl (fun _ _ _ h => h) _⟩

theorem Enlarges.refl (s : State) : Enlarges s s := .of_same rfl rfl rfl rfl

theorem Enlarges.trans {s t u : State} (h : Enlarges s t) (k : Enlarges t u) : Enlarges s u where
  mode := k.mode.trans h.mode
  sched := h.sched.trans (fun _ _ _ x y => ⟨x.1.trans y.1, x.2.trans y.2⟩) k.sched
  cdict := h.cdict.trans (fun _ _ _ x y => x.trans y) k.cdict
  ddict hf :=
    have hd := h.ddict hf
    have kd := k.ddict hd.1
    ⟨kd.1, hd.2.trans (fun _ _ _ x y n e hn => y n e (x n e hn)) kd.2⟩

/-- An operation that, wherever it ends, only enlarges the tables. -/
abbrev Enlarging (f : State → Res State) : Prop := ∀ s, (f s).Sat True (Enlarges s) (Enlarges s)

theorem Enlarging.after {s t : State} {r : Res State} (h : Enlarges s t) (hr : r.Sat True (Enlarges t) (Enlarges t)) :
    r.Sat True (Enlarges s) (Enlarges s) :=
  hr.mono (fun _ k => h.trans k) fun _ k => h.trans k

theorem Enlarging.bind {s : State} {r : Res State} {f : State → Res State} (hr : r.Sat True (Enlarges s) (Enlarges s))
    (hf : ∀ t, (f t).Sat True (Enlarges t) (Enlarges t)) : (r >>= f).Sat True (Enlarges s) (Enlarges s) :=
  Res.Sat.bind hr fun _ ht => Enlarging.after ht (hf _)

theorem Enlarging.of_need {α : Type} {s : State} {e : Element} {o : Option α} {f : α → Res State}
    (hf : ∀ a, o = some a → (f a).Sat True (Enlarges s) (Enlarges s)) : (need e o >>= f).Sat True (Enlarges s) (Enlarges s) :=
  (need_sat e o fun _ => trivial).bind hf

theorem Enlarging.of_read {α : Type} {s : State} {r : Res α} {f : α → Res State} (hr : r.Sat True (fun _ => False) fun _ => True)
    (hf : ∀ a, (f a).Sat True (Enlarges s) (Enlarges s)) : (r >>= f).Sat True (Enlarges s) (Enlarges s) :=
  (hr.mono (fun _ h => h) (fun _ h => h.elim)).bind fun a _ => hf a

/-! The operations that write a table. -/

theorem cInsert_enlarges (t : Str) : Enlarging (cInsert t) := by
  intro s
  refine Enlarging.of_need fun sc hs => Enlarging.of_need fun d hd => ?_
  split
  · exact .of_same rfl rfl rfl rfl
  · refine ⟨rfl, .of_some hs ⟨le_rfl, Nat.le_succ _⟩, .of_some hd (List.prefix_append _ _), fun hf => ⟨?_, ?_⟩⟩
    · rintro _ d' ⟨⟩ hd' k hk
      exact hf sc d' hs hd' k (Nat.le_of_succ_le hk)
    · exact .refl (fun _ _ _ h => h) _

theorem dInsert_enlarges (t : Str) : Enlarging (dInsert t) := by
  intro s
  refine Enlarging.of_need fun sc hs => Enlarging.of_need fun d hd => ?_
  split
  · exact .of_same rfl rfl rfl rfl
  · refine ⟨rfl, .of_some hs ⟨le_rfl, Nat.le_succ _⟩, .refl (fun _ => List.prefix_rfl) _, fun hf => ⟨?_, ?_⟩⟩
    · rintro _ _ ⟨⟩ ⟨⟩ k hk
      have hk' : sc.nextCode < k := hk
      rw [DDict.get?_put, if_neg hk'.ne']
      exact hf sc d hs hd k hk'.le
    · refine .of_some hd fun k e hk => ?_
      have hne : k ≠ sc.nextCode := by
        rintro rfl
        simp [hf sc d hs hd sc.nextCode le_rfl] at hk
      rwa [DDict.get?_put, if_neg hne]

theorem Sched.grow_numBits_le (sc : Sched) : sc.numBits ≤ sc.grow.numBits := by
  unfold Sched.grow
  split
  · exact Nat.le_succ _
  · exact le_rfl

/-- A schedule operation that keeps `NEXT_CODE` and does not lower the width. -/
theorem onSched_enlarges {f : Sched → Sched} (hb : ∀ sc, sc.numBits ≤ (f sc).numBits) (hn : ∀ sc, (f sc).nextCode = sc.nextCode) :
    Enlarging (onSched f) := by
  intro s
  refine Enlarging.of_need fun sc hs => ?_
  refine ⟨rfl, .of_some hs ⟨hb sc, (hn sc).ge⟩, .refl (fun _ => List.prefix_rfl) _, fun hf => ⟨?_, .refl (fun _ _ _ h => h) _⟩⟩
  rintro _ d ⟨⟩ hd k hk
  exact hf sc d hs hd k (by rwa [hn] at hk)

theorem dec_enlarges : Enlarging dec := onSched_enlarges (fun _ => le_rfl) fun _ => rfl

theorem grow_enlarges : Enlarging grow := onSched_enlarges Sched.grow_numBits_le Sched.grow_nextCode

theorem tick_enlarges : Enlarging tick := onSched_enlarges (fun sc => Sched.grow_numBits_le sc.dec) Sched.tick_nextCode

/-! The outputs and the packer. -/

theorem digitOut_enlarges (d : Nat) : Enlarging (digitOut d) := by
  intro s
  rcases digitOut_cases d s with ⟨_, h⟩ | ⟨_, h⟩ <;> rw [h]
  · exact .of_same rfl rfl rfl rfl
  · exact .of_same rfl rfl rfl rfl

theorem charOut_enlarges (t : Str) : Enlarging (charOut t) := by
  intro s
  rcases charOut_cases t s with ⟨_, h⟩ | ⟨_, h⟩ <;> rw [h]
  · exact .of_same rfl rfl rfl rfl
  · exact .of_same rfl rfl rfl rfl

theorem putBits_enlarges (bs : List Bool) : Enlarging (putBits bs) := by
  intro s
  cases h : putBits bs s with
  | ok u => rw [putBits_frame bs s u h]; exact .of_same rfl rfl rfl rfl
  | error e =>
    cases e with
    | model f => trivial
    | raised x =>
      obtain ⟨dout, sink, _, _, rfl⟩ := putBits_raised bs s x h
      exact .of_same rfl rfl rfl rfl

theorem putValue_enlarges (v n : Nat) : Enlarging (putValue v n) := putBits_enlarges _

theorem flush_enlarges : Enlarging flush := fun s =>
  Enlarging.of_need fun _ _ => Enlarging.of_need fun _ _ =>
    Enlarging.bind (digitOut_enlarges _ s) fun _ => .of_same rfl rfl rfl rfl

/-! The compressor. -/

theorem literalSent_enlarges (v : Char16) : Enlarging (literalSent v) := fun s =>
  Enlarging.of_need fun p _ =>
    Enlarging.bind (Enlarging.after (t := s.setPending (some (p.remove v))) (.of_same rfl rfl rfl rfl) (tick_enlarges _))
      tick_enlarges

theorem emitLit8_enlarges (v : Char16) : Enlarging (emitLit8 v) := fun s =>
  Enlarging.of_need fun _ _ => Enlarging.bind (putValue_enlarges _ _ s) fun t =>
    Enlarging.bind (putValue_enlarges _ _ t) (literalSent_enlarges v)

theorem emitLit16_enlarges (v : Char16) : Enlarging (emitLit16 v) := fun s =>
  Enlarging.of_need fun _ _ => Enlarging.bind (putValue_enlarges _ _ s) fun t =>
    Enlarging.bind (putValue_enlarges _ _ t) (literalSent_enlarges v)

theorem emit_enlarges (t : Str) : Enlarging (emit t) := by
  intro s
  refine Enlarging.of_need fun p _ => ?_
  split
  · refine Enlarging.of_read (headOf_reads t) fun v => ?_
    split
    · exact emitLit8_enlarges v s
    · exact emitLit16_enlarges v s
  · exact Enlarging.of_read (codeOf_reads t s) fun _ => Enlarging.of_need fun _ _ =>
      Enlarging.bind (putValue_enlarges _ _ s) tick_enlarges

theorem registerChar_enlarges (c : Char16) : Enlarging (registerChar c) := by
  intro s
  refine Enlarging.of_need fun d _ => ?_
  split
  · exact .refl s
  · exact Enlarging.bind (cInsert_enlarges [c] s) fun t => Enlarging.of_need fun p _ => .of_same rfl rfl rfl rfl

theorem extendMatch_enlarges (c : Char16) : Enlarging (extendMatch c) := by
  intro s
  refine Enlarging.of_need fun d _ => Enlarging.of_need fun w _ => ?_
  split
  · exact .of_same rfl rfl rfl rfl
  · exact Enlarging.bind (emit_enlarges w s) fun t =>
      Enlarging.bind (cInsert_enlarges _ t) fun u => .of_same rfl rfl rfl rfl

theorem cScan_enlarges : Enlarging cScan := by
  intro s
  refine Enlarging.of_need fun i _ => Enlarging.of_need fun n _ => Enlarging.of_read (charIn_reads i s) fun c => ?_
  refine Enlarging.bind (Enlarging.after (t := s.setIi (some (i + 1))) (.of_same rfl rfl rfl rfl) (registerChar_enlarges c _))
    fun t => Enlarging.bind (extendMatch_enlarges c t) fun u => ?_
  split
  · exact .of_same rfl rfl rfl rfl
  · exact .refl u

theorem cFinal_enlarges : Enlarging cFinal := fun s =>
  Enlarging.of_need fun w _ => Enlarging.bind (emit_enlarges w s) fun t => Enlarging.of_need fun _ _ =>
    Enlarging.bind (putValue_enlarges _ _ t) fun u => Enlarging.bind (flush_enlarges u) fun _ => .of_same rfl rfl rfl rfl

/-! The decompressor. -/

theorem common_enlarges (e : Str) : Enlarging (common e) := fun s =>
  Enlarging.bind (charOut_enlarges e s) fun t => Enlarging.of_need fun _ _ => Enlarging.of_read (headOf_reads e) fun _ =>
    Enlarging.bind (dInsert_enlarges _ t) fun u => Enlarging.bind (tick_enlarges u) fun _ => .of_same rfl rfl rfl rfl

theorem loopLiteral_enlarges (v : Char16) : Enlarging (loopLiteral v) := fun s =>
  Enlarging.of_need fun _ _ => Enlarging.bind (dInsert_enlarges _ s) fun t => Enlarging.bind (dec_enlarges t) fun u =>
    Enlarging.bind (grow_enlarges u) fun x => Enlarging.of_read (entryAt_reads _ x) fun e => common_enlarges e x

theorem loopRef_enlarges (code : Nat) : Enlarging (loopRef code) := fun s =>
  Enlarging.bind (grow_enlarges s) fun t => Enlarging.of_read (entryAt_reads _ t) fun e => common_enlarges e t

theorem loopRefNext_enlarges : Enlarging loopRefNext := fun s =>
  Enlarging.bind (grow_enlarges s) fun t => Enlarging.of_need fun w _ => Enlarging.of_read (headOf_reads w) fun _ =>
    common_enlarges _ t

/-- The first token's entry goes to code 3, past the three placeholders, and the schedule is seeded past it (R152, R202). -/
theorem Enlarges.of_first {s t : State} {e : DEntry} (hs : s.sched = none) (hd : s.ddict = some DDict.seed)
    (hm : t.mode = s.mode) (hc : t.cdict = s.cdict) (hdt : t.ddict = some (DDict.seed.put 3 e))
    (hst : t.sched = none ∨ t.sched = some Sched.decompressorSeed) : Enlarges s t where
  mode := hm
  sched := by simp [KeptBy, hs]
  cdict := hc ▸ .refl (fun _ => List.prefix_rfl) _
  ddict _ := by
    refine ⟨fun sc d hsc hd k hk => ?_, hdt ▸ .of_some hd fun k x hk => ?_⟩
    · obtain rfl : DDict.seed.put 3 e = d := by simpa [hdt] using hd
      obtain rfl : Sched.decompressorSeed = sc := by simpa [hst.resolve_left (by simp [hsc])] using hsc
      have h4 : 4 ≤ k := hk
      have hcodes : (DDict.seed.put 3 e).map (·.1) = [0, 1, 2, 3] := rfl
      rw [← Option.not_isSome_iff_eq_none, DDict.get?_isSome, hcodes]
      simp; omega
    · have hne : k ≠ 3 := by rintro rfl; simp [DDict.seed, DDict.get?] at hk
      rwa [DDict.get?_put, if_neg hne]

theorem firstLiteral_enlarges (v : Char16) (pos : Nat) {s : State} {dw : BitVec 5} {len : Nat} (h : FirstOk s dw len) :
    (firstLiteral v (s.setSrcPos (some pos))).Sat True (Enlarges s) (Enlarges s) := by
  unfold firstLiteral
  rcases dInsertAt3_cases [v] (s.setSrcPos (some pos)) (d := DDict.seed) h.ddict with ⟨_, h1⟩ | ⟨_, h1⟩ <;> rw [h1]
  · exact .of_same rfl rfl rfl rfl
  rw [Res.ok_bind]
  rcases charOut_cases [v] (((s.setSrcPos (some pos)).setDdict (some (DDict.seed.put 3 (.str [v])))).setDW (some [v])) with
    ⟨_, h2⟩ | ⟨_, h2⟩ <;> rw [h2]
  · exact .of_first (e := .str [v]) h.sched h.ddict (by simp) (by simp) (by simp) (.inl (by simp [h.sched]))
  · exact .of_first (e := .str [v]) h.sched h.ddict (by simp) (by simp) (by simp) (.inr (by simp))

/-! ### The engine's turn -/

/-- One turn of a running call: the call is running or over, the invariant holds, and the tables are only enlarged. -/
structure Carried (s t : State) : Prop where
  inCall : t.InCall
  enlarges : Enlarges s t

/-- An operation of a running call that completes soundly or is ended by an engine fault, and that only enlarges the tables. -/
theorem carried_of_sat {s u : State} {P : State → Prop} {r : Res State} (h : r.Sat False (Faulted u) P)
    (he : r.Sat True (Enlarges s) (Enlarges s)) (hp : ∀ t, P t → t.InCall) : Answers r.outcome (Carried s) :=
  ((h.and he).mono (P' := Carried s) (Q' := Carried s) (fun t ht => ⟨hp t ht.1, ht.2⟩) fun _ ht => ⟨ht.1.inCall, ht.2⟩).answers

theorem carried_finish {s : State} (hr : s.Running) (p : Option Nat) : Carried s (s.setSrcPos p).finish :=
  ⟨finish_inCall hr.cause hr.faultInfo, .of_same rfl rfl rfl rfl⟩

theorem cScan_carried {s : State} {dw : BitVec 5} {i : Nat} {sc : Sched} {k : Sink} {w : Str} {d : CDict} {p : Pending}
    (hr : s.Running) (hp : s.phase = .pCScan) (h : CompOk s dw i sc k w d p) (hi : i < s.inBuf.length) :
    Answers (cScan s).outcome (Carried s) := by
  refine carried_of_sat (cScan_sat h hi) (cScan_enlarges s) fun t ⟨sc', k', w', d', p', hc, hg, hst, hca, hin, hph⟩ => ?_
  have ht : t.Running := ⟨hst.trans hr.status, hca.trans hr.cause, hin.trans hr.faultInfo⟩
  have hlen := hg.inputs.inBuf
  split at hph
  · rename_i hn
    refine inCall_of_running ht (by simp [hph]) (by simp [hph]) ((phaseOk_final hph).mpr ?_)
    exact ⟨dw, i + 1, sc', k', w', d', p', hc, by rw [hn, hlen], Nat.succ_pos i⟩
  · rename_i hn
    rw [hp] at hph
    refine inCall_of_running ht (by simp [hph]) (by simp [hph]) ((phaseOk_scan hph).mpr ?_)
    exact ⟨dw, i + 1, sc', k', w', d', p', hc, by rw [hlen]; omega⟩

theorem cFinal_carried {s : State} {dw : BitVec 5} {i : Nat} {sc : Sched} {k : Sink} {w : Str} {d : CDict} {p : Pending}
    (hr : s.Running) (h : CompOk s dw i sc k w d p) (hi : 0 < i) : Answers (cFinal s).outcome (Carried s) := by
  refine carried_of_sat (cFinal_sat h hi) (cFinal_enlarges s) ?_
  rintro _ ⟨u, rfl, _, hc, _⟩
  obtain ⟨_, hca, hin⟩ := hr.of_sameControl hc
  exact finish_inCall hca hin

/-- The token a phase reads is run where its bits end (R138, R201, R206). -/
theorem runToken_eq (f : Format) (s : State) {dw : BitVec 5} {len pos : Nat} (hp : s.srcPos = some pos)
    (hw : s.digitW = some dw) (hl : s.length = some len) :
    runToken f s = exec (tokenAt f dw.toNat len s.din pos).1
      (s.setSrcPos (some (pos + (tokenAt f dw.toNat len s.din pos).2))) := by
  rw [runToken, fetch_eq f s hp hw hl 16 le_rfl]
  rfl

/-- The rows of a first token: a literal, the end, or the illegal selector (R81, R96). -/
theorem exec_firstToken (sel payload : Nat) (s : State) :
    (∃ v, exec (firstToken sel payload) s = (firstLiteral v s).outcome) ∨ exec (firstToken sel payload) s = .next s.finish ∨
      exec (firstToken sel payload) s = .next (s.enterFault .badSelector 3) := by
  unfold firstToken
  split
  · exact .inl ⟨_, rfl⟩
  · exact .inl ⟨_, rfl⟩
  · exact .inr (.inl rfl)
  · exact .inr (.inr rfl)

/-- The rows of a later token: a literal, the end, a reference below `NEXT_CODE`, the one at it, or an illegal code past it (R82, R96). -/
theorem exec_loopToken (nextCode code payload : Nat) (s : State) :
    (∃ v, exec (loopToken nextCode code payload) s = (loopLiteral v s).outcome) ∨
    exec (loopToken nextCode code payload) s = .next s.finish ∨
    (3 ≤ code ∧ code < nextCode ∧ exec (loopToken nextCode code payload) s = (loopRef code s).outcome) ∨
    exec (loopToken nextCode code payload) s = (loopRefNext s).outcome ∨
    (nextCode < code ∧ exec (loopToken nextCode code payload) s = .next (s.enterFault .corruptCode code)) := by
  unfold loopToken
  split
  · exact .inl ⟨_, rfl⟩
  · exact .inl ⟨_, rfl⟩
  · exact .inr (.inl rfl)
  · rename_i h0 h1 h2
    have hne : code ≠ 0 ∧ code ≠ 1 ∧ code ≠ 2 := ⟨h0, h1, h2⟩
    split
    · exact .inr (.inr (.inl ⟨by omega, by assumption, rfl⟩))
    · split
      · exact .inr (.inr (.inr (.inl rfl)))
      · exact .inr (.inr (.inr (.inr ⟨by omega, rfl⟩)))

theorem LoopOk.setPhase {s : State} {dw : BitVec 5} {len pos : Nat} {sc : Sched} {w : Str} {d : DDict}
    (h : LoopOk s dw len pos sc w d) (ph : Phase) : LoopOk (s.setPhase ph) dw len pos sc w d := { h with }

theorem first_carried {s : State} {dw : BitVec 5} {len : Nat} (hr : s.Running) (h : FirstOk s dw len) :
    Answers (runToken .first s) (Carried s) := by
  rw [runToken_eq .first s h.srcPos h.digitW h.length]
  generalize (tokenAt .first dw.toNat len s.din 0).2 = width
  rcases exec_firstToken _ _ (s.setSrcPos (some (0 + width))) with ⟨v, hx⟩ | hx | hx
  · refine hx ▸ carried_of_sat (firstLiteral_sat v _ h) (firstLiteral_enlarges v _ h) ?_
    rintro _ ⟨u, rfl, ⟨sc, w, d, hl⟩, _, hc⟩
    have ht : (u.setPhase .pDLoop).Running := { hr.of_sameControl (t := u) hc with }
    exact inCall_of_running ht (by simp) (by simp) ((phaseOk_loop rfl).mpr ⟨dw, len, _, sc, w, d, hl.setPhase _⟩)
  · exact ⟨_, hx, carried_finish hr _⟩
  · exact ⟨_, hx, ⟨enterFault_inv _ _ _ (by simp) rfl, by simp⟩, .of_same rfl rfl rfl rfl⟩

/-- What a token rule of the loop leaves is a running call at a sound loop head. -/
theorem Looped.inCall {s t : State} {dw : BitVec 5} {len pos : Nat} (h : Looped s dw len pos t) (hr : s.Running)
    (hp : s.phase = .pDLoop) : t.InCall := by
  obtain ⟨⟨sc, w, d, hl⟩, _, hc⟩ := h
  have hph := hc.phase.trans hp
  exact inCall_of_running (hr.of_sameControl hc) (by simp [hph]) (by simp [hph]) ((phaseOk_loop hph).mpr ⟨dw, len, pos, sc, w, d, hl⟩)

theorem loopToken_carried {s : State} {dw : BitVec 5} {len pos : Nat} {sc : Sched} {w : Str} {d : DDict} (hr : s.Running)
    (hp : s.phase = .pDLoop) (h : LoopOk s dw len pos sc w d) :
    Answers (runToken (.loop sc.numBits sc.nextCode) s) (Carried s) := by
  rw [runToken_eq _ s h.srcPos h.digitW h.length]
  generalize pos + (tokenAt (.loop sc.numBits sc.nextCode) dw.toNat len s.din pos).2 = stop
  have hm := h.moveTo stop
  have hrm : (s.setSrcPos (some stop)).Running := { hr with }
  have hsame : Enlarges s (s.setSrcPos (some stop)) := .of_same rfl rfl rfl rfl
  rcases exec_loopToken sc.nextCode _ _ (s.setSrcPos (some stop)) with ⟨v, hx⟩ | hx | ⟨h3, hlt, hx⟩ | hx | ⟨hgt, hx⟩
  · exact hx ▸ carried_of_sat (loopLiteral_sat v hm) (Enlarging.after hsame (loopLiteral_enlarges v _)) fun t ht => ht.inCall hrm hp
  · exact ⟨_, hx, carried_finish hr _⟩
  · exact hx ▸ carried_of_sat (loopRef_sat _ hm h3 hlt) (Enlarging.after hsame (loopRef_enlarges _ _)) fun t ht => ht.inCall hrm hp
  · exact hx ▸ carried_of_sat (loopRefNext_sat hm) (Enlarging.after hsame (loopRefNext_enlarges _)) fun t ht => ht.inCall hrm hp
  · have h4 := h.nextCode
    exact ⟨_, hx, ⟨enterFault_inv _ _ _ (by simp) (by simp only [infoLegal]; omega), by simp⟩, .of_same rfl rfl rfl rfl⟩

theorem dLoop_carried {s : State} {dw : BitVec 5} {len pos : Nat} {sc : Sched} {w : Str} {d : DDict} (hr : s.Running)
    (hp : s.phase = .pDLoop) (h : LoopOk s dw len pos sc w d) : Answers (dLoop s) (Carried s) := by
  unfold dLoop
  rw [exhausted_eq s h.srcPos h.digitW h.length, h.sched, need_some]
  cases decide (len * dw.toNat ≤ pos) with
  | true => exact ⟨_, rfl, finish_inCall hr.cause hr.faultInfo, .of_same rfl rfl rfl rfl⟩
  | false => exact loopToken_carried hr hp h

/-- The engine's turn in a running call answers a next state that carries the call on or ends it. -/
theorem engineStep_answers {s : State} (h : s.Inv) (hb : s.status = .busy) : Answers (engineStep s) (Carried s) := by
  obtain ⟨hi, hh⟩ := h.phase_of_busy hb
  obtain ⟨hs, hcause, hinfo⟩ := h.running hi hh
  have hr : s.Running := ⟨hs, hcause, hinfo⟩
  cases hp : s.phase with
  | pIdle => exact absurd hp hi
  | pHalt => exact absurd hp hh
  | pCScan =>
    obtain ⟨dw, i, sc, k, w, d, p, hc, hlt⟩ := (phaseOk_scan hp).mp h.work
    exact engineStep_scan s hp ▸ cScan_carried hr hp hc hlt
  | pCFinal =>
    obtain ⟨dw, i, sc, k, w, d, p, hc, _, hpos⟩ := (phaseOk_final hp).mp h.work
    exact engineStep_final s hp ▸ cFinal_carried hr hc hpos
  | pDFirst =>
    obtain ⟨dw, len, hf⟩ := (phaseOk_first hp).mp h.work
    exact engineStep_first s hp ▸ first_carried hr hf
  | pDLoop =>
    obtain ⟨dw, len, pos, sc, w, d, hl⟩ := (phaseOk_loop hp).mp h.work
    exact engineStep_loop s hp ▸ dLoop_carried hr hp hl

/-- The engine waits while no call runs (R248, R286). -/
theorem engineStep_waits {s : State} (h : s.Inv) (hb : s.status ≠ .busy) : engineStep s = .next s := by
  by_cases hi : s.phase = .pIdle
  · exact engineStep_idle s hi
  · by_cases hh : s.phase = .pHalt
    · exact engineStep_halt s hh
    · exact absurd (h.running hi hh).1 hb

/-- The engine's turn, from any state with the invariant. -/
theorem engineStep_cases {s t : State} (h : s.Inv) (ht : engineStep s = .next t) :
    (s.status = .busy ∧ Carried s t) ∨ (s.status ≠ .busy ∧ t = s) := by
  by_cases hb : s.status = .busy
  · exact .inl ⟨hb, (engineStep_answers h hb).of_next ht⟩
  · rw [engineStep_waits h hb] at ht
    cases ht
    exact .inr ⟨hb, rfl⟩

/-- A move of a running call that is no RESET is the engine's turn or changes nothing but the host's list. -/
theorem step_of_busy {s t : State} (h : s.Inv) (hb : s.status = .busy) (hc : s.cmdPort ≠ 3) (ht : step s = .next t) :
    Carried s.taken t := by
  have hb' : s.taken.status = .busy := hb
  cases step_moved ht with
  | engine _ he => exact (engineStep_answers h.taken hb').of_next he
  | ignored _ ht => subst ht; exact ⟨⟨h.taken, by simp [hb']⟩, .refl _⟩
  | startCompress _ hw _ => exact absurd hb hw
  | startDecompress _ hw _ => exact absurd hb hw
  | reset cmd _ => exact absurd cmd hc
  | write hw _ _ _ _ _ => exact absurd hb hw

/-- In a running call nothing stands at `NEXT_CODE` or past it: there is no decompressor dictionary, no schedule, or R222 holds. -/
theorem State.Inv.nextFree {s : State} (h : s.Inv) (hb : s.status = .busy) : s.NextFree := by
  intro sc d hsc hd k hk
  rcases h.work_of_busy hb with ⟨_, _, _, _, _, _, _, hc⟩ | ⟨_, _, hf⟩ | ⟨_, _, _, sc', _, d', hl⟩
  · simp [hc.ddict] at hd
  · simp [hf.sched] at hsc
  · obtain rfl : sc' = sc := by simpa [hl.sched] using hsc
    obtain rfl : d' = d := by simpa [hl.ddict] using hd
    rw [← Option.not_isSome_iff_eq_none, DDict.get?_isSome, hl.dictOk.codes]
    simpa using hk

/-! ### What the host reads -/

/-- The host reads a digit it has written as it wrote it (R38). -/
theorem readDin_written {s : State} {j x : Nat} (h : s.din[j]? = some x) : s.readDin j = x := by
  simp [State.readDin, dinAt, h]

/-- The result of a call by its `STATUS`, `MODE` being the direction of the call (R249, R221). -/
theorem result_of_call {t : State} {m : Option Mode} (hi : t.status ≠ .idle) (hm : t.mode = m)
    (hd : m = some .compress ∨ m = some .decompress) :
    (t.status = .busy ∧ t.result? = none) ∨
    (t.status = .doneOk ∧ m = some .compress ∧ t.result? = some (.digits t.dout)) ∨
    (t.status = .doneOk ∧ m = some .decompress ∧ t.result? = some (.text t.cout)) ∨
    (t.status = .doneFail ∧ t.result? = some (.failure t.cause t.faultInfo)) := by
  cases hs : t.status with
  | idle => exact absurd hs hi
  | busy => exact .inl ⟨rfl, by rw [State.result?, hs]⟩
  | doneOk =>
    rcases hd with rfl | rfl
    · exact .inr (.inl ⟨rfl, rfl, by rw [State.result?, hs, hm]; rfl⟩)
    · exact .inr (.inr (.inl ⟨rfl, rfl, by rw [State.result?, hs, hm]; rfl⟩))
  | doneFail => exact .inr (.inr (.inr ⟨rfl, by rw [State.result?, hs]⟩))

/-! ### The statements -/

/-- Settles O42, by the cases of a move: the engine's turn, the two STARTs and RESET each leave the invariant, and the host's side is no
part of it. -/
theorem stepKeepsInv : Obligations.StepKeepsInv := by
  intro s t h ht
  cases step_moved ht with
  | engine _ he =>
    rcases engineStep_cases h.taken he with ⟨_, hc⟩ | ⟨_, rfl⟩
    · exact hc.inCall.inv
    · exact h.taken
  | ignored _ ht => exact ht ▸ h.taken
  | startCompress _ _ hs => exact ((startCompress_sat _).answers.of_next hs).inv
  | startDecompress _ _ hs => exact ((startDecompress_sat _).answers.of_next hs).inv
  | reset _ ht => exact ht ▸ powerOn_inv _
  | write hb text digits w len ht => exact ht ▸ h.taken.write hb text digits w len

/-- Settles O49, by the cases of a move: only the engine's turn in a running call, a START and a RESET write `STATUS`, and the first two
do not write IDLE. -/
theorem statusIsWrittenOnlyHere : Obligations.StatusIsWrittenOnlyHere := by
  intro s t h ht hne
  cases step_moved ht with
  | engine turn he =>
    rcases engineStep_cases h.taken he with ⟨hb, hc⟩ | ⟨_, rfl⟩
    · have hbs : s.status = .busy := hb
      exact ⟨fun hx => absurd (hx.trans hbs.symm) hne, fun hx => absurd hx hc.inCall.begun, fun _ => .inl ⟨hbs, turn⟩⟩
    · exact absurd rfl hne
  | ignored _ ht => exact absurd (by rw [ht]; rfl) hne
  | startCompress cmd _ hs =>
    have hi := ((startCompress_sat _).answers.of_next hs).begun
    exact ⟨fun _ => .inl cmd, fun hx => absurd hx hi, fun _ => .inr (.inl cmd)⟩
  | startDecompress cmd _ hs =>
    have hi := ((startDecompress_sat _).answers.of_next hs).begun
    exact ⟨fun _ => .inr cmd, fun hx => absurd hx hi, fun _ => .inr (.inr cmd)⟩
  | reset cmd ht =>
    have hi : t.status = .idle := by rw [ht]; rfl
    exact ⟨fun hx => by simp [hi] at hx, fun _ => cmd, fun hx => by simp [hi] at hx⟩
  | write _ _ _ _ _ ht => exact absurd (by rw [ht]; rfl) hne

/-- Settles O50: a move of a running call only enlarges the tables, and its insertions overwrite nothing. -/
theorem callsOnlyExtendTheirTables : Obligations.CallsOnlyExtendTheirTables := by
  intro s t h hb hc ht
  have he := (step_of_busy h hb hc ht).enlarges
  exact ⟨he.sched, he.cdict, (he.ddict (h.nextFree hb)).2⟩

/-- Settles O60: the encodings and the reads by evaluation, the result of a call because `MODE` stays through it. -/
theorem whatTheHostReads : Obligations.WhatTheHostReads := by
  refine ⟨⟨rfl, rfl, rfl⟩, fun s => ⟨rfl, rfl, rfl, rfl, rfl, fun j x => readDin_written⟩, ?_⟩
  intro s t h hb hc ht
  have hcar := step_of_busy h hb hc ht
  exact result_of_call hcar.inCall.begun hcar.enlarges.mode (h.mode_of_busy hb)

end Sys2Proof.Machine

/-!
SUPPORT and PROOFS. The buffers of 20_memory.md: what a move can write of the host-owned inputs (O47), that it only appends to the outputs
(O48), and what a step of a compression can put into the pending set (O51).
-/

namespace Sys2Proof.Machine

/-! ### How a step ends -/

/-- What holds wherever an operation ends holds of the next state its outcome answers. -/
theorem Res.Sat.of_outcome {M : Prop} {P : State → Prop} {r : Res State} {t : State} (h : r.Sat M P P)
    (ht : r.outcome = .next t) : P t := by
  rcases h.outcome with ⟨u, hu, hP⟩ | ⟨_, f, hf⟩
  · obtain rfl : u = t := by simpa [hu] using ht
    exact hP.elim id id
  · simp [hf] at ht

/-- After a read, which changes no state, the rest of a step ends as it does for each value that could have been read. -/
theorem Res.Sat.of_read {α β : Type} {Q : State → Prop} {P : β → Prop} {r : Res α} {f : α → Res β}
    (hr : r.Sat True (fun _ => False) fun _ => True) (hf : ∀ a, (f a).Sat True Q P) : (r >>= f).Sat True Q P :=
  (hr.mono (fun _ h => h) fun _ h => h.elim).bind fun a _ => hf a

/-- After an element is read, the rest of a step ends as it does for the value the element holds (R40). -/
theorem Res.Sat.of_need {α β : Type} {Q : State → Prop} {P : β → Prop} {e : Element} {o : Option α} {f : α → Res β}
    (hf : ∀ a, o = some a → (f a).Sat True Q P) : (need e o >>= f).Sat True Q P :=
  (need_sat e o fun _ => trivial).bind hf

/-! ### The engine's turn only appends, in any state -/

/-- A fetch gives a token of its format and moves `SRC_POS`, wherever it stops (R138). -/
theorem fetch_reads (f : Format) (s : State) : (fetch f s).Sat True (fun _ => False) fun r =>
    ∃ head payload pos, r = (assemble f head payload, s.setSrcPos pos) := by
  refine (getValue_reads _ s).bind fun h hh => (getValue_reads _ h.2).bind fun x hx => ?_
  obtain ⟨p, hp⟩ := hh
  obtain ⟨q, hq⟩ := hx
  exact ⟨h.1, x.1, q, by rw [hq, hp, setSrcPos_setSrcPos]⟩

theorem exec_firstToken_grows {sel payload : Nat} {s t : State} (h : exec (firstToken sel payload) s = .next t) : Grows s t := by
  rcases exec_firstToken sel payload s with ⟨v, hx⟩ | hx | hx <;> rw [hx] at h
  · exact (firstLiteral_appends v s).of_outcome h
  · cases h; exact finish_grows s
  · cases h; exact enterFault_grows s _ _

theorem exec_loopToken_grows {nextCode code payload : Nat} {s t : State}
    (h : exec (loopToken nextCode code payload) s = .next t) : Grows s t := by
  rcases exec_loopToken nextCode code payload s with ⟨v, hx⟩ | hx | ⟨_, _, hx⟩ | hx | ⟨_, hx⟩ <;> rw [hx] at h
  · exact (loopLiteral_appends v s).of_outcome h
  · cases h; exact finish_grows s
  · exact (loopRef_appends code s).of_outcome h
  · exact (loopRefNext_appends s).of_outcome h
  · cases h; exact enterFault_grows s _ _

/-- A read that stops is a model fault, so a step it ends answers no next state. -/
theorem read_error_outcome {α : Type} {P : α → Prop} {r : Res α} {e : Stop} {t : State} (hr : r.Sat True (fun _ => False) P)
    (he : r = .error e) : Res.outcome (.error e) ≠ .next t := by
  subst he
  cases e with
  | raised s => exact hr.elim
  | model f => simp

/-- A token phase only appends if every token of its format does. -/
theorem runToken_grows {f : Format} {s t : State} (h : runToken f s = .next t)
    (hx : ∀ head payload u, exec (assemble f head payload) u = .next t → Grows u t) : Grows s t := by
  have hf := fetch_reads f s
  unfold runToken at h
  split at h
  · rename_i r hr
    rw [hr] at hf
    obtain ⟨head, payload, pos, rfl⟩ := hf
    exact (grows_setSrcPos s pos).trans (hx head payload _ h)
  · rename_i e he
    exact absurd h (read_error_outcome hf he)

theorem exhausted_reads (s : State) : (exhausted s).Sat True (fun _ => False) fun _ => True :=
  .of_need fun _ _ => .of_need fun _ _ => .of_need fun _ _ => trivial

theorem dLoop_grows {s t : State} (h : dLoop s = .next t) : Grows s t := by
  unfold dLoop at h
  split at h
  · cases h; exact finish_grows s
  · exact runToken_grows h fun _ _ _ => exec_loopToken_grows
  · rename_i e he
    exact absurd h (read_error_outcome (exhausted_reads s) he)
  · rename_i e he _ _
    exact absurd h (read_error_outcome (need_sat _ _ fun _ => trivial) he)

/-- The engine's turn appends to the outputs and writes no host-owned input (R50 to R53). -/
theorem engineStep_grows {s t : State} (h : engineStep s = .next t) : Grows s t := by
  cases hp : s.phase with
  | pIdle => rw [engineStep_idle s hp] at h; cases h; exact .refl s
  | pHalt => rw [engineStep_halt s hp] at h; cases h; exact .refl s
  | pCScan => exact (cScan_appends s).of_outcome (engineStep_scan s hp ▸ h)
  | pCFinal => exact (cFinal_appends s).of_outcome (engineStep_final s hp ▸ h)
  | pDFirst => exact runToken_grows (f := .first) (engineStep_first s hp ▸ h) fun _ _ _ => exec_firstToken_grows
  | pDLoop => exact dLoop_grows (engineStep_loop s hp ▸ h)

/-! ### The host-owned inputs -/

theorem beginCall_inputs (m : Mode) (s : State) : SameInputs s (beginCall m s) := ⟨rfl, rfl, rfl, rfl, rfl, rfl⟩

theorem powerOn_inputs (s : State) : SameInputs s s.powerOn := ⟨rfl, rfl, rfl, rfl, rfl, rfl⟩

theorem configCheck_inputs (dw : BitVec 5) (len : Nat) (s : State) :
    (configCheck dw len s).Sat True (SameInputs s) (SameInputs s) := by
  rcases configCheck_cases dw len s with ⟨_, h⟩ | ⟨_, _, h⟩ | ⟨_, _, h⟩ <;> rw [h]
  · exact (enterFault_grows s _ _).inputs
  · exact (enterFault_grows s _ _).inputs
  · exact .refl s

theorem cInit_inputs (s : State) : (cInit s).Sat True (SameInputs s) (SameInputs s) := by
  refine .of_need fun n _ => ?_
  split <;> exact ⟨rfl, rfl, rfl, rfl, rfl, rfl⟩

theorem dInit_inputs (s : State) : (dInit s).Sat True (SameInputs s) (SameInputs s) := by
  refine .of_need fun len _ => ?_
  split <;> exact ⟨rfl, rfl, rfl, rfl, rfl, rfl⟩

/-- Both STARTs: the check, the two latches, the working state, and no input written (R241, R242). -/
theorem start_inputs {m : Mode} {dw : BitVec 5} {len : Nat} {latch : State → State} {init : State → Res State} (s : State)
    (hl : ∀ u, SameInputs u (latch u)) (hi : ∀ u, (init u).Sat True (SameInputs u) (SameInputs u)) :
    ((configCheck dw len (beginCall m s)) >>= fun u => init (latch u)).Sat True (SameInputs s) (SameInputs s) := by
  have hb := beginCall_inputs m s
  refine ((configCheck_inputs dw len _).mono (fun _ h => hb.trans h) fun _ h => hb.trans h).bind fun u hu => ?_
  have hlu := hu.trans (hl u)
  exact (hi _).mono (fun _ h => hlu.trans h) fun _ h => hlu.trans h

theorem startCompress_inputs (s : State) : (startCompress s).Sat True (SameInputs s) (SameInputs s) :=
  start_inputs s (fun u => ((grows_setDigitW u _).trans (grows_setN _ _)).inputs) cInit_inputs

theorem startDecompress_inputs (s : State) : (startDecompress s).Sat True (SameInputs s) (SameInputs s) :=
  start_inputs s (fun u => ((grows_setDigitW u _).trans (grows_setLength _ _)).inputs) dInit_inputs

/-- The host's write of one of its inputs, which changes that input alone (R240). -/
inductive HostWrote (s t : State) : Prop
  | writeIn (text : Str) (head : s.host.head? = some (.writeIn text)) (h : t = s.taken.setInBuf text)
  | writeDin (digits : List Nat) (head : s.host.head? = some (.writeDin digits))
      (h : t = s.taken.setDin (digits ++ s.din.drop digits.length))
  | writeDigitW (w : BitVec 5) (head : s.host.head? = some (.writeDigitW w)) (h : t = s.taken.setCfgDigitW w)
  | writeLength (len : Nat) (head : s.host.head? = some (.writeLength len)) (h : t = s.taken.setCfgLength len)

/-- No command writes a host-owned input (R93). -/
theorem command_inputs {c : BitVec 2} {s t : State} (h : exec (decodeCmd c) s = .next t) : SameInputs s t := by
  rcases cmd_cases c with rfl | rfl | rfl | rfl
  · cases h; exact .refl s
  · replace h : execStartCompress s = .next t := h
    unfold execStartCompress at h
    split at h
    · cases h; exact .refl s
    · exact (startCompress_inputs s).of_outcome h
  · replace h : execStartDecompress s = .next t := h
    unfold execStartDecompress at h
    split at h
    · cases h; exact .refl s
    · exact (startDecompress_inputs s).of_outcome h
  · cases h; exact powerOn_inputs s

/-- A move leaves the host-owned inputs and the parameters alone, or it is the host's write of one input (R50, R51). -/
theorem step_inputs {s t : State} (h : step s = .next t) : SameInputs s.taken t ∨ HostWrote s t := by
  have ht : s.taken = s.setHost s.host.tail := rfl
  cases hh : s.host with
  | nil => exact .inl (engineStep_grows ((advance_of_turn s (.inl hh)).symm.trans h)).inputs
  | cons m rest =>
    have hm : s.host.head? = some m := by rw [hh]; rfl
    rw [step, advance] at h
    simp only [hh] at h
    rw [hh, List.tail_cons] at ht
    cases m with
    | yield => exact .inl (engineStep_grows (ht ▸ h)).inputs
    | issue c => exact .inl (command_inputs (c := c) (by rw [ht]; exact h))
    | writeIn text => exact .inr (.writeIn text hm (ht ▸ (hostWrite_next h).2))
    | writeDin digits => exact .inr (.writeDin digits hm (ht ▸ (hostWrite_next h).2))
    | writeDigitW w => exact .inr (.writeDigitW w hm (ht ▸ (hostWrite_next h).2))
    | writeLength len => exact .inr (.writeLength len hm (ht ▸ (hostWrite_next h).2))

/-! ### The pending set -/

/-- What is pending against what a compression began with: the keys of `d` are still keys, every pending character is a key, and it was
in `p` or was no key in `d` (R54, R56). -/
structure State.PendingSince (d : CDict) (p : Pending) (t : State) : Prop where
  keys : ∀ d', t.cdict = some d' → ∀ key, d.isKey key = true → d'.isKey key = true
  pending : ∀ d' p', t.cdict = some d' → t.pending = some p' → ∀ v ∈ p', d'.isKey [v] = true ∧ (v ∈ p ∨ d.isKey [v] = false)

/-- An operation that keeps this wherever it ends. -/
abbrev KeepsPending (f : State → Res State) : Prop :=
  ∀ d p s, State.PendingSince d p s → (f s).Sat True (State.PendingSince d p) (State.PendingSince d p)

/-- Only `CDICT` and `PENDING` are spoken of. -/
theorem State.PendingSince.of_same {d : CDict} {p : Pending} {s t : State} (h : s.PendingSince d p) (hd : t.cdict = s.cdict)
    (hp : t.pending = s.pending) : t.PendingSince d p where
  keys d' hd' := h.keys d' (hd ▸ hd')
  pending d' p' hd' hp' := h.pending d' p' (hd ▸ hd') (hp ▸ hp')

/-- A literal that is sent is pending no longer (R176). -/
theorem State.PendingSince.remove {d : CDict} {p p₀ : Pending} {s : State} (h : s.PendingSince d p) (hp : s.pending = some p₀)
    (v : Char16) : (s.setPending (some (p₀.remove v))).PendingSince d p where
  keys := h.keys
  pending d' p' hd' hp' x hx := by
    obtain rfl : p₀.remove v = p' := by simpa using hp'
    exact h.pending d' p₀ hd' hp x ((Pending.mem_remove p₀ v x).mp hx).1

/-- A character becomes pending that is a key now and was none at the beginning (R171). -/
theorem State.PendingSince.add {d d₁ : CDict} {p p₀ : Pending} {s : State} {v : Char16} (h : s.PendingSince d p)
    (hd : s.cdict = some d₁) (hk : d₁.isKey [v] = true) (hn : d.isKey [v] = false) (hp : s.pending = some p₀) :
    (s.setPending (some (p₀.add v))).PendingSince d p where
  keys := h.keys
  pending d' p' hd' hp' x hx := by
    obtain rfl : p₀.add v = p' := by simpa using hp'
    rcases (Pending.mem_add p₀ v x).mp hx with rfl | hx
    · obtain rfl : d₁ = d' := by simpa [hd] using hd'
      exact ⟨hk, .inr hn⟩
    · exact h.pending d' p₀ hd' hp x hx

/-- An insertion only makes more keys (R54). -/
theorem State.PendingSince.insert {d d₀ : CDict} {p : Pending} {s : State} (h : s.PendingSince d p) (hd : s.cdict = some d₀)
    (t : Str) (c : Nat) : (s.setCdict (some (d₀.insert t c))).PendingSince d p where
  keys d' hd' key hk := by
    obtain rfl : d₀.insert t c = d' := by simpa using hd'
    simp [h.keys d₀ hd key hk]
  pending d' p' hd' hp' v hv := by
    obtain rfl : d₀.insert t c = d' := by simpa using hd'
    obtain ⟨hk, hv⟩ := h.pending d₀ p' hd hp' v hv
    exact ⟨by simp [hk], hv⟩

/-- `CInsert` keeps it, and its string is then a key (R184). -/
theorem cInsert_pendingSince (t : Str) {d : CDict} {p : Pending} {s : State} (h : s.PendingSince d p) :
    (cInsert t s).Sat True (State.PendingSince d p) fun u =>
      u.PendingSince d p ∧ ∃ d', u.cdict = some d' ∧ d'.isKey t = true := by
  refine .of_need fun sc _ => .of_need fun d₀ hd => ?_
  split
  · exact h.of_same rfl rfl
  · exact ⟨(h.insert hd t sc.nextCode).of_same rfl rfl, d₀.insert t sc.nextCode, rfl, by simp⟩

theorem onSched_keepsPending (f : Sched → Sched) : KeepsPending (onSched f) := fun _ _ _ h =>
  .of_need fun _ _ => h.of_same rfl rfl

theorem putValue_keepsPending (v n : Nat) : KeepsPending (putValue v n) := by
  intro d p s h
  cases hr : putValue v n s with
  | ok u => rw [putBits_frame _ s u hr]; exact h.of_same rfl rfl
  | error e =>
    cases e with
    | model f => trivial
    | raised x =>
      obtain ⟨dout, sink, _, _, rfl⟩ := putBits_raised _ s x hr
      exact h.of_same rfl rfl

theorem flush_keepsPending : KeepsPending flush := by
  intro d p s h
  refine .of_need fun k _ => .of_need fun w _ => ?_
  rcases digitOut_cases (k.acc * 2 ^ (w.toNat - k.cnt)) s with ⟨_, hr⟩ | ⟨_, hr⟩ <;> rw [hr]
  · exact h.of_same rfl rfl
  · exact h.of_same rfl rfl

theorem literalSent_keepsPending (v : Char16) : KeepsPending (literalSent v) := fun d p _ h =>
  .of_need fun _ hp => (onSched_keepsPending _ d p _ (h.remove hp v)).bind (onSched_keepsPending _ d p)

/-- What the two literal forms share: a code, a payload, and the pending mark gone (R176, R177). -/
theorem literalToken_keepsPending (v : Char16) (code m n : Nat) :
    KeepsPending fun s => putValue code m s >>= fun t => putValue v.toNat n t >>= literalSent v := fun d p s h =>
  (putValue_keepsPending _ _ d p s h).bind fun t ht =>
    (putValue_keepsPending _ _ d p t ht).bind (literalSent_keepsPending v d p)

theorem emitRef_keepsPending (t : Str) : KeepsPending (emitRef t) := fun d p s h =>
  .of_read (codeOf_reads t s) fun _ => .of_need fun _ _ =>
    (putValue_keepsPending _ _ d p s h).bind (onSched_keepsPending _ d p)

theorem emit_keepsPending (t : Str) : KeepsPending (emit t) := by
  intro d p s h
  refine .of_need fun p₀ _ => ?_
  split
  · refine .of_read (headOf_reads t) fun v => ?_
    split
    · exact .of_need fun sc _ => literalToken_keepsPending v 0 sc.numBits 8 d p s h
    · exact .of_need fun sc _ => literalToken_keepsPending v 1 sc.numBits 16 d p s h
  · exact emitRef_keepsPending t d p s h

/-- A character is registered as pending only if it is no key, so it was none at the beginning (R171). -/
theorem registerChar_keepsPending (c : Char16) : KeepsPending (registerChar c) := by
  intro d p s h
  refine .of_need fun d₀ hd => ?_
  split
  · exact h
  · rename_i hk
    have hn : d.isKey [c] = false := Bool.eq_false_iff.mpr fun hc => hk (h.keys d₀ hd [c] hc)
    refine (cInsert_pendingSince [c] h).bind fun t ⟨ht, d₁, hd₁, hk₁⟩ => ?_
    exact .of_need fun p₀ hp => ht.add hd₁ hk₁ hn hp

theorem extendMatch_keepsPending (c : Char16) : KeepsPending (extendMatch c) := by
  intro d p s h
  refine .of_need fun d₀ _ => .of_need fun w _ => ?_
  split
  · exact h.of_same rfl rfl
  · exact (emit_keepsPending w d p s h).bind fun t ht =>
      (cInsert_pendingSince _ ht).bind fun u hu => hu.1.of_same rfl rfl

theorem cScan_keepsPending : KeepsPending cScan := by
  intro d p s h
  refine .of_need fun i _ => .of_need fun n _ =>
    .of_read (charIn_reads i s) fun c => ?_
  refine (registerChar_keepsPending c d p (s.setIi (some (i + 1))) (h.of_same rfl rfl)).bind fun t ht =>
    (extendMatch_keepsPending c d p t ht).bind fun u hu => ?_
  split
  · exact hu.of_same rfl rfl
  · exact hu

theorem cFinal_keepsPending : KeepsPending cFinal := fun d p s h =>
  .of_need fun w _ => (emit_keepsPending w d p s h).bind fun t ht =>
    .of_need fun _ _ => (putValue_keepsPending _ _ d p t ht).bind fun u hu =>
      (flush_keepsPending d p u hu).bind fun _ hx => hx.of_same rfl rfl

/-- A busy engine that has a compressor dictionary is in a compression, and what is pending there is a key (R24, R56). -/
theorem State.Inv.compression {s : State} {d : CDict} {p : Pending} (h : s.Inv) (hb : s.status = .busy) (hd : s.cdict = some d)
    (hp : s.pending = some p) : (s.phase = .pCScan ∨ s.phase = .pCFinal) ∧ ∀ v ∈ p, d.isKey [v] = true := by
  have hcomp : ∀ {dw i sc k w d₀ p₀}, CompOk s dw i sc k w d₀ p₀ → ∀ v ∈ p, d.isKey [v] = true := by
    intro dw i sc k w d₀ p₀ hc
    obtain rfl : d₀ = d := by simpa [hc.cdict] using hd
    obtain rfl : p₀ = p := by simpa [hc.pending] using hp
    exact hc.pendingOk.key
  obtain ⟨hi, hh⟩ := h.phase_of_busy hb
  cases hph : s.phase with
  | pIdle => exact absurd hph hi
  | pHalt => exact absurd hph hh
  | pCScan =>
    obtain ⟨_, _, _, _, _, _, _, hc, _⟩ := (phaseOk_scan hph).mp h.work
    exact ⟨.inl rfl, hcomp hc⟩
  | pCFinal =>
    obtain ⟨_, _, _, _, _, _, _, hc, _⟩ := (phaseOk_final hph).mp h.work
    exact ⟨.inr rfl, hcomp hc⟩
  | pDFirst =>
    obtain ⟨_, _, hf⟩ := (phaseOk_first hph).mp h.work
    simp [hf.cdict] at hd
  | pDLoop =>
    obtain ⟨_, _, _, _, _, _, hl⟩ := (phaseOk_loop hph).mp h.work
    simp [hl.cdict] at hd

theorem pendingSince_self {s : State} {d : CDict} {p : Pending} (hd : s.cdict = some d) (hp : s.pending = some p)
    (hk : ∀ v ∈ p, d.isKey [v] = true) : s.PendingSince d p where
  keys d' hd' key h := by
    obtain rfl : d = d' := by simpa [hd] using hd'
    exact h
  pending d' p' hd' hp' v hv := by
    obtain rfl : d = d' := by simpa [hd] using hd'
    obtain rfl : p = p' := by simpa [hp] using hp'
    exact ⟨hk v hv, .inl hv⟩

/-! ### The statements -/

/-- Settles O47, by the cases of a move: a host write changes its own input, and no other move writes one. -/
theorem onlyTheHostWritesItsInputs : Obligations.OnlyTheHostWritesItsInputs := by
  intro s t h
  rcases step_inputs h with hs | hw
  · exact ⟨.inl hs.inBuf, .inl hs.din, .inl hs.cfgDigitW, .inl hs.cfgLength, hs.caps, hs.host⟩
  · cases hw with
    | writeIn text head h => subst h; exact ⟨.inr head, .inl rfl, .inl rfl, .inl rfl, rfl, rfl⟩
    | writeDin digits head h => subst h; exact ⟨.inl rfl, .inr ⟨digits, head⟩, .inl rfl, .inl rfl, rfl, rfl⟩
    | writeDigitW w head h => subst h; exact ⟨.inl rfl, .inl rfl, .inr head, .inl rfl, rfl, rfl⟩
    | writeLength len head h => subst h; exact ⟨.inl rfl, .inl rfl, .inl rfl, .inr head, rfl, rfl⟩

/-- Settles O48, by the cases of a move: the engine's turn appends, and of the others only a START and a RESET write an output. -/
theorem outputsOnlyGrow : Obligations.OutputsOnlyGrow := by
  intro s t h
  cases step_moved h with
  | engine _ he =>
    have hg := engineStep_grows he
    exact .inl ⟨hg.dout, hg.cout⟩
  | ignored _ ht => subst ht; exact .inl ⟨List.prefix_rfl, List.prefix_rfl⟩
  | startCompress cmd waits _ => exact .inr (.inr ⟨.inl cmd, waits⟩)
  | startDecompress cmd waits _ => exact .inr (.inr ⟨.inr cmd, waits⟩)
  | reset cmd _ => exact .inr (.inl cmd)
  | write _ _ _ _ _ ht => subst ht; exact .inl ⟨List.prefix_rfl, List.prefix_rfl⟩

/-- Settles O51: in a compression's turn `PendingSince` holds at the beginning and every operation keeps it, wherever the turn ends; no
other move that the hypotheses allow writes the two elements. -/
theorem pendingEntersOnce : Obligations.PendingEntersOnce := by
  intro s t d d' p p' v h hb hc ht hd hp hd' hp' hv
  obtain ⟨hph, hk⟩ := h.compression hb hd hp
  have h₀ : s.taken.PendingSince d p := pendingSince_self hd hp hk
  have h₁ : t.PendingSince d p := by
    cases step_moved ht with
    | engine _ he =>
      rcases hph with hph | hph
      · exact (cScan_keepsPending d p _ h₀).of_outcome (engineStep_scan s.taken hph ▸ he)
      · exact (cFinal_keepsPending d p _ h₀).of_outcome (engineStep_final s.taken hph ▸ he)
    | ignored _ ht => exact ht ▸ h₀
    | startCompress _ waits _ => exact absurd hb waits
    | startDecompress _ waits _ => exact absurd hb waits
    | reset cmd _ => exact absurd cmd hc
    | write waits _ _ _ _ _ => exact absurd hb waits
  exact h₁.pending d' p' hd' hp' v hv

end Sys2Proof.Machine

/-!
SUPPORT and PROOFS. The encoding family. A word of a format is a classifying field and a payload; `HasFields` says once which two values
each row has, `assemble_hasFields` and `exists_assemble_of_wf` that the well-formed instructions are exactly the assembled ones. From
them: decoding an encoded instruction (O2), every bit sequence as one row (O3), what a code means (O4), and a step on a command (O5).
-/

namespace Sys2Proof

/-! ### Fields -/

/-- A payload held at its field's width writes the bits of the number it was read as. -/
theorem bitsOf_toNat_ofNat (o : Config.CodeOrder) (n v : Nat) : bitsOf o n (BitVec.ofNat n v).toNat = bitsOf o n v := by
  have h : msbBits n (v % 2 ^ n) = msbBits n v :=
    msbBits_testBit_congr n _ _ fun i hi => by simp [Nat.testBit_mod_two_pow, hi]
  cases o <;> simp [bitsOf, h]

/-- The bits read from a sequence are the bits of the value they have. -/
theorem bitsOf_valueOf_takeBits (o : Config.CodeOrder) (n : Nat) (bits : List Bool) :
    bitsOf o n (valueOf o (takeBits n bits)) = takeBits n bits := by
  simpa using bitsOf_valueOf o (takeBits n bits)

theorem valueOf_takeBits_lt (o : Config.CodeOrder) (n : Nat) (bits : List Bool) : valueOf o (takeBits n bits) < 2 ^ n := by
  simpa using valueOf_lt o (takeBits n bits)

/-- Bit `i` of the bits read is bit `i` of the sequence, or zero past its end (R94, R135). -/
theorem getElem_takeBits (n : Nat) (bits : List Bool) (i : Nat) (h : i < (takeBits n bits).length) :
    (takeBits n bits)[i] = bits.getD i false := by
  simp only [takeBits, List.getElem_take, List.getElem_append]
  split
  · next hi => simp [hi]
  · next hi => simp [not_lt.mp hi]

/-- Two fields read one after the other are one longer field, past the end of the sequence too. -/
theorem takeBits_add (n m : Nat) (bits : List Bool) : takeBits (n + m) bits = takeBits n bits ++ takeBits m (bits.drop n) := by
  refine List.ext_getElem (by simp) fun i _ _ => ?_
  rw [getElem_takeBits, List.getElem_append]
  split
  · rw [getElem_takeBits]
  · next hi =>
    have hn : n ≤ i := by simpa using hi
    simp [getElem_takeBits, Nat.add_sub_cancel' hn]

/-! ### The rows of a later token (R82) -/

theorem loopToken_of_lt {nextCode code : Nat} (payload : Nat) (h3 : 3 ≤ code) (h : code < nextCode) :
    loopToken nextCode code payload = .ref code := by
  obtain ⟨c, rfl⟩ := Nat.exists_eq_add_of_le' h3
  exact if_pos h

theorem loopToken_self {nextCode : Nat} (payload : Nat) (h3 : 3 ≤ nextCode) : loopToken nextCode nextCode payload = .refNext := by
  obtain ⟨c, rfl⟩ := Nat.exists_eq_add_of_le' h3
  exact (if_neg (lt_irrefl _)).trans (if_pos rfl)

theorem loopToken_of_gt {nextCode code : Nat} (payload : Nat) (h3 : 3 ≤ code) (h : nextCode < code) :
    loopToken nextCode code payload = .illegal code := by
  obtain ⟨c, rfl⟩ := Nat.exists_eq_add_of_le' h3
  exact (if_neg h.not_gt).trans (if_neg h.ne')

theorem literalWidth_of_three_le {code : Nat} (h3 : 3 ≤ code) : literalWidth code = 0 := by
  obtain ⟨c, rfl⟩ := Nat.exists_eq_add_of_le' h3
  rfl

/-! ### An instruction and the values of its two fields -/

/-- The format expresses `i`, and the two fields of `i` hold `head` and `payload` (R81, R83, R93). -/
structure HasFields (f : Format) (i : Instr) (head payload : Nat) : Prop where
  wf : i.wf f = true
  head_eq : headValue f i = head
  payload_eq : payloadBits i = bitsOf Config.codeOrder (payloadWidth f head) payload

theorem HasFields.encode_eq {f : Format} {i : Instr} {head payload : Nat} (h : HasFields f i head payload) :
    encode f i = bitsOf Config.codeOrder (headWidth f) head ++ bitsOf Config.codeOrder (payloadWidth f head) payload := by
  rw [encode, h.head_eq, h.payload_eq]

theorem commandOf_hasFields {head : Nat} (payload : Nat) (h : head < 4) : HasFields .cmd (commandOf head) head payload :=
  match head, h with
  | 0, _ | 1, _ | 2, _ | 3, _ => ⟨rfl, rfl, rfl⟩

theorem firstToken_hasFields {sel : Nat} (payload : Nat) (h : sel < 4) : HasFields .first (firstToken sel payload) sel payload :=
  match sel, h with
  | 0, _ => ⟨rfl, rfl, bitsOf_toNat_ofNat Config.codeOrder 8 payload⟩
  | 1, _ => ⟨rfl, rfl, bitsOf_toNat_ofNat Config.codeOrder 16 payload⟩
  | 2, _ | 3, _ => ⟨rfl, rfl, rfl⟩

/-- A code that is no control is a reference, the next code or illegal, as it lies below, at or past `NEXT_CODE` (R82). -/
theorem loopToken_hasFields_of_three_le {numBits nextCode code : Nat} (payload : Nat) (h : code < 2 ^ numBits) (h3 : 3 ≤ code) :
    HasFields (.loop numBits nextCode) (loopToken nextCode code payload) code payload := by
  have hp : payloadWidth (.loop numBits nextCode) code = 0 := literalWidth_of_three_le h3
  rcases lt_trichotomy code nextCode with hlt | rfl | hgt
  · rw [loopToken_of_lt payload h3 hlt]
    exact ⟨decide_eq_true ⟨h3, hlt, h⟩, rfl, by simp [hp, payloadBits]⟩
  · rw [loopToken_self payload h3]
    exact ⟨decide_eq_true ⟨h3, h⟩, rfl, by simp [hp, payloadBits]⟩
  · rw [loopToken_of_gt payload h3 hgt]
    exact ⟨decide_eq_true ⟨h3, hgt, h⟩, rfl, by simp [hp, payloadBits]⟩

theorem loopToken_hasFields {numBits code : Nat} (nextCode payload : Nat) (h : code < 2 ^ numBits) :
    HasFields (.loop numBits nextCode) (loopToken nextCode code payload) code payload :=
  match code, h with
  | 0, _ => ⟨rfl, rfl, bitsOf_toNat_ofNat Config.codeOrder 8 payload⟩
  | 1, h => ⟨decide_eq_true h, rfl, bitsOf_toNat_ofNat Config.codeOrder 16 payload⟩
  | 2, h => ⟨decide_eq_true h, rfl, rfl⟩
  | _ + 3, h => loopToken_hasFields_of_three_le payload h (Nat.le_add_left _ _)

/-- What the decoder assembles from a classifying value that fits its field is a row with those two fields (R88, R94). -/
theorem assemble_hasFields (f : Format) {head : Nat} (payload : Nat) (h : head < 2 ^ headWidth f) :
    HasFields f (assemble f head payload) head payload :=
  match f, h with
  | .cmd, h => commandOf_hasFields payload h
  | .first, h => firstToken_hasFields payload h
  | .loop _ nextCode, h => loopToken_hasFields nextCode payload h

/-! ### Every well-formed instruction is assembled -/

theorem Format.eq_cmd_of_isCmd {f : Format} (h : f.isCmd = true) : f = .cmd := by
  cases f with
  | cmd => rfl
  | first | loop => cases h

theorem Format.eq_first_of_isFirst {f : Format} (h : f.isFirst = true) : f = .first := by
  cases f with
  | first => rfl
  | cmd | loop => cases h

theorem Format.exists_eq_loop_of_isLoop {f : Format} {cond : Nat → Nat → Bool} (h : f.isLoop cond = true) :
    ∃ numBits nextCode, f = .loop numBits nextCode ∧ cond numBits nextCode = true := by
  cases f with
  | loop numBits nextCode => exact ⟨numBits, nextCode, rfl, h⟩
  | cmd | first => cases h

/-- The instruction is what the decoder assembles from two values that fit their fields. -/
def Assembled (f : Format) (i : Instr) : Prop :=
  ∃ head payload, head < 2 ^ headWidth f ∧ payload < 2 ^ payloadWidth f head ∧ assemble f head payload = i

/-- A row without payload is assembled from its classifying value alone. -/
theorem Assembled.of_head {f : Format} {i : Instr} (head : Nat) (h : head < 2 ^ headWidth f) (hi : assemble f head 0 = i) :
    Assembled f i :=
  ⟨head, 0, h, Nat.two_pow_pos _, hi⟩

theorem assembled_of_wf {f : Format} {i : Instr} (h : i.wf f = true) : Assembled f i := by
  cases i with
  | cmdNone => obtain rfl := Format.eq_cmd_of_isCmd h; exact .of_head 0 (by decide) rfl
  | startCompress => obtain rfl := Format.eq_cmd_of_isCmd h; exact .of_head 1 (by decide) rfl
  | startDecompress => obtain rfl := Format.eq_cmd_of_isCmd h; exact .of_head 2 (by decide) rfl
  | reset => obtain rfl := Format.eq_cmd_of_isCmd h; exact .of_head 3 (by decide) rfl
  | fLit8 p =>
    obtain rfl := Format.eq_first_of_isFirst h
    exact ⟨0, p.toNat, by decide, p.isLt, by simp [assemble, firstToken]⟩
  | fLit16 p =>
    obtain rfl := Format.eq_first_of_isFirst h
    exact ⟨1, p.toNat, by decide, p.isLt, by simp [assemble, firstToken]⟩
  | fEos => obtain rfl := Format.eq_first_of_isFirst h; exact .of_head 2 (by decide) rfl
  | fIllegal => obtain rfl := Format.eq_first_of_isFirst h; exact .of_head 3 (by decide) rfl
  | lit8 p =>
    obtain ⟨numBits, nextCode, rfl, -⟩ := Format.exists_eq_loop_of_isLoop h
    exact ⟨0, p.toNat, Nat.two_pow_pos _, p.isLt, by simp [assemble, loopToken]⟩
  | lit16 p =>
    obtain ⟨numBits, nextCode, rfl, hc⟩ := Format.exists_eq_loop_of_isLoop h
    exact ⟨1, p.toNat, of_decide_eq_true hc, p.isLt, by simp [assemble, loopToken]⟩
  | eos =>
    obtain ⟨numBits, nextCode, rfl, hc⟩ := Format.exists_eq_loop_of_isLoop h
    exact .of_head 2 (of_decide_eq_true hc) rfl
  | ref code =>
    obtain ⟨numBits, nextCode, rfl, hc⟩ := Format.exists_eq_loop_of_isLoop h
    obtain ⟨h3, hlt, hfit⟩ := of_decide_eq_true hc
    exact .of_head code hfit (loopToken_of_lt 0 h3 hlt)
  | refNext =>
    obtain ⟨numBits, nextCode, rfl, hc⟩ := Format.exists_eq_loop_of_isLoop h
    obtain ⟨h3, hfit⟩ := of_decide_eq_true hc
    exact .of_head nextCode hfit (loopToken_self 0 h3)
  | illegal code =>
    obtain ⟨numBits, nextCode, rfl, hc⟩ := Format.exists_eq_loop_of_isLoop h
    obtain ⟨h3, hgt, hfit⟩ := of_decide_eq_true hc
    exact .of_head code hfit (loopToken_of_gt 0 h3 hgt)

/-! ### The decoder on a sequence of bits -/

/-- The decoder from the values of the two fields the bits begin with. -/
theorem decode_of_fields {f : Format} {bits : List Bool} {head payload : Nat}
    (hh : valueOf Config.codeOrder (takeBits (headWidth f) bits) = head)
    (hp : valueOf Config.codeOrder (takeBits (payloadWidth f head) (bits.drop (headWidth f))) = payload) :
    decode f bits = (assemble f head payload, headWidth f + payloadWidth f head) := by
  subst hh hp
  rfl

/-- Bits that begin with the encoding of a well-formed instruction decode to it: the two fields are cut apart at the width of the first,
and each has the value it was written with. -/
theorem decode_of_takeBits_eq_encode {f : Format} {i : Instr} {bits : List Bool} (hw : i.wf f = true)
    (hb : takeBits (encode f i).length bits = encode f i) : decode f bits = (i, (encode f i).length) := by
  obtain ⟨head, payload, hhead, hpayload, rfl⟩ := assembled_of_wf hw
  have he := (assemble_hasFields f payload hhead).encode_eq
  have hlen : (encode f (assemble f head payload)).length = headWidth f + payloadWidth f head := by simp [he]
  rw [hlen, takeBits_add, he] at hb
  obtain ⟨h₁, h₂⟩ := List.append_inj hb (by simp)
  rw [hlen]
  exact decode_of_fields (by rw [h₁, valueOf_bitsOf_of_lt _ _ _ hhead]) (by rw [h₂, valueOf_bitsOf_of_lt _ _ _ hpayload])

/-- The decoder of a later token whose code is known. -/
theorem decode_loop {numBits nextCode code : Nat} {bits : List Bool}
    (h : valueOf Config.codeOrder (takeBits numBits bits) = code) :
    decode (.loop numBits nextCode) bits =
      (loopToken nextCode code (valueOf Config.codeOrder (takeBits (literalWidth code) (bits.drop numBits))),
        numBits + literalWidth code) :=
  decode_of_fields h rfl

/-! ### The statements -/

/-- Settles O2: the encoding followed by any bits begins with the encoding. -/
theorem decodeEncodeRoundTrip : Obligations.DecodeEncodeRoundTrip := by
  intro f i rest hw
  exact decode_of_takeBits_eq_encode hw (takeBits_append _ rest)

/-- Settles O3: the decoder assembles a row from two values that fit their fields, writing those values gives the bits read, and a row
with the bits read is the one decoded. -/
theorem everyBitPatternIsOneRow : Obligations.EveryBitPatternIsOneRow := by
  intro f bits
  have hrow : HasFields f (decode f bits).1 _ _ := assemble_hasFields f _ (valueOf_takeBits_lt _ (headWidth f) bits)
  refine ⟨hrow.wf, ?_, fun j hj hb => by rw [decode_of_takeBits_eq_encode hj hb]⟩
  calc encode f (decode f bits).1
      = takeBits (headWidth f) bits ++ takeBits _ (bits.drop (headWidth f)) := by
        rw [hrow.encode_eq, bitsOf_valueOf_takeBits, bitsOf_valueOf_takeBits]
    _ = takeBits (decode f bits).2 bits := (takeBits_add _ _ bits).symm

/-- Settles O4, by the rows of a later token: the controls have their payload's width, the codes from 3 on have no payload. -/
theorem codeMeanings : Obligations.CodeMeanings := by
  intro numBits nextCode code bits hnc hcode
  have hd := decode_loop (nextCode := nextCode) hcode
  refine ⟨?_, ?_, ?_, ?_, ?_, ?_⟩
  · rintro rfl; exact hd
  · rintro rfl; exact hd
  · rintro rfl; exact hd
  · rintro ⟨h3, hlt⟩
    rw [hd, loopToken_of_lt _ h3 hlt, literalWidth_of_three_le h3, Nat.add_zero]
  · rintro rfl
    rw [hd, loopToken_self _ hnc, literalWidth_of_three_le hnc, Nat.add_zero]
  · intro hgt
    have h3 : 3 ≤ code := hnc.trans hgt.le
    rw [hd, loopToken_of_gt _ h3 hgt, literalWidth_of_three_le h3, Nat.add_zero]

/-- Settles O1, by evaluation: the words are closed. -/
theorem sampleWordsDecode : Obligations.SampleWordsDecode := by
  unfold Obligations.SampleWordsDecode
  decide

/-- Settles O5: the issued command is the host's next move, and `advance` runs that one. -/
theorem stepRunsIssuedCommand : Obligations.StepRunsIssuedCommand := by
  intro s c rest h
  rw [Machine.step, Machine.advance, h]

end Sys2Proof

/-!
SUPPORT and PROOFS. The bit-packer of 40_bitsink.md: one rule for each thing `PutBit` and `Flush` can do (O29, O30); the digits that a
sequence of bits and one `Flush` append, and the bits they are read back as (O31); the packer's invariant (O32), which every operation of a
compression keeps, so that a digit is output only when it fits `DIGIT_W` bits (O54).
-/

namespace Sys2Proof

/-! ### The value of a sequence of bits -/

/-- Bit i of a field's value, counted from the most significant one, is bit i in stream order (R62). -/
theorem getElem_msbBits (n v i : Nat) (h : i < (msbBits n v).length) : (msbBits n v)[i] = v.testBit (n - 1 - i) := by
  induction n generalizing i with
  | zero => simp at h
  | succ n ih =>
    cases i with
    | zero => rfl
    | succ i =>
      simp only [msbBits, List.getElem_cons_succ, ih]
      congr 1
      omega

theorem testBit_msbValue (bs : List Bool) (r i : Nat) (h : i < bs.length) :
    (msbValue r bs).testBit (bs.length - 1 - i) = bs[i] := by
  rw [← getElem_msbBits bs.length _ i (by simpa using h)]
  simp only [msbBits_msbValue]

theorem msbValue_replicate_false (r n : Nat) : msbValue r (List.replicate n false) = r * 2 ^ n := by
  induction n generalizing r with
  | zero => simp [msbValue]
  | succ n ih =>
    rw [List.replicate_succ, msbValue, ih, Bool.toNat_false, pow_succ]
    ring

/-- The value is the sum of its bits at their weights (R115). -/
theorem msbValue_eq_sum (bs : List Bool) :
    msbValue 0 bs = ((List.range bs.length).map fun i => (bs.getD i false).toNat * 2 ^ (bs.length - 1 - i)).sum := by
  induction bs with
  | nil => rfl
  | cons b bs ih =>
    rw [msbValue, msbValue_eq, ih, List.length_cons, List.range_succ_eq_map, List.map_cons, List.map_map, List.sum_cons]
    congr 1
    · simp
    · congr 1
      refine List.map_congr_left fun i _ => ?_
      simp only [Function.comp_apply, List.getD_cons_succ]
      congr 2
      omega

/-! ### The digits of a sequence of bits -/

/-- Bits that do not fill a field are padded with zeros, which shift their value (R113). -/
theorem msbValue_takeBits_of_length_le {w : Nat} {bits : List Bool} (h : bits.length ≤ w) :
    msbValue 0 (takeBits w bits) = msbValue 0 bits * 2 ^ (w - bits.length) := by
  rw [takeBits, List.take_append, List.take_of_length_le h, List.take_replicate, msbValue_append, msbValue_replicate_false,
    min_eq_left (Nat.sub_le _ _)]

/-- Bits that do not fill a digit give one, padded (R113). -/
theorem digitsOf_of_length_lt {w : Nat} {bits : List Bool} (h : bits.length < w) :
    digitsOf w bits = [msbValue 0 bits * 2 ^ (w - bits.length)] := by
  simp [digitsOf, Nat.div_eq_of_lt h, digitOf, msbValue_takeBits_of_length_le h.le]

/-- Bits that fill a digit give it, and then the digits of the bits that follow it. -/
theorem digitsOf_append {w : Nat} {chunk : List Bool} (rest : List Bool) (hw : 1 ≤ w) (h : chunk.length = w) :
    digitsOf w (chunk ++ rest) = msbValue 0 chunk :: digitsOf w rest := by
  have hlen : (chunk ++ rest).length / w = rest.length / w + 1 := by
    rw [List.length_append, h, Nat.add_div_left _ hw]
  have hdigit (k : Nat) : digitOf w (chunk ++ rest) (k + 1) = digitOf w rest k := by
    rw [digitOf, digitOf, Nat.succ_mul, Nat.add_comm, ← h, List.drop_length_add_append]
  have hfirst : digitOf w (chunk ++ rest) 0 = msbValue 0 chunk := by
    rw [digitOf, Nat.zero_mul, List.drop_zero, takeBits_append_of_length w chunk rest h]
  rw [digitsOf, hlen, List.range_succ_eq_map, List.map_cons, List.map_map, hfirst, digitsOf]
  congr 1
  exact List.map_congr_left fun k _ => hdigit k

@[simp] theorem digitsOf_length (w : Nat) (bits : List Bool) : (digitsOf w bits).length = bits.length / w + 1 := by
  simp [digitsOf]

theorem getElem?_digitsOf {w k : Nat} {bits : List Bool} (h : k < (digitsOf w bits).length) :
    (digitsOf w bits)[k]? = some (digitOf w bits k) := by
  rw [digitsOf_length] at h
  simp [digitsOf, h]

theorem digitOf_lt (w : Nat) (bits : List Bool) (k : Nat) : digitOf w bits k < 2 ^ w := by
  simpa [digitOf] using msbValue_lt (takeBits w (bits.drop (k * w)))

theorem getD_takeBits {n i : Nat} (bits : List Bool) (h : i < n) : (takeBits n bits).getD i false = bits.getD i false := by
  have hi : i < (takeBits n bits).length := by simpa using h
  rw [List.getD_eq_getElem _ _ hi, getElem_takeBits]

/-- Digit k is the sum R115 gives. -/
theorem digitOf_eq_sum (w : Nat) (bits : List Bool) (k : Nat) :
    digitOf w bits k =
      ((List.range w).map fun i => (bits.getD (k * w + i) false).toNat * 2 ^ (w - 1 - i)).sum := by
  rw [digitOf, msbValue_eq_sum, takeBits_length]
  congr 1
  refine List.map_congr_left fun i hi => ?_
  rw [getD_takeBits _ (List.mem_range.mp hi)]
  simp [List.getD_eq_getElem?_getD]

/-- Bit i of digit k, counted from the most significant one, is bit `k * DIGIT_W + i` of the sequence (R80). -/
theorem testBit_digitOf {w i : Nat} (bits : List Bool) (k : Nat) (h : i < w) :
    (digitOf w bits k).testBit (w - 1 - i) = bits.getD (k * w + i) false := by
  have hi : i < (takeBits w (bits.drop (k * w))).length := by simpa using h
  have hbit := testBit_msbValue _ 0 i hi
  rw [takeBits_length, getElem_takeBits] at hbit
  rw [digitOf, hbit]
  simp [List.getD_eq_getElem?_getD]

namespace Machine

/-- The unpacker reads the digits of a sequence as the sequence, followed by zeros (R115, R131). -/
theorem streamBit_digitsOf {w : Nat} (bits : List Bool) (n : Nat) (hw : 1 ≤ w) :
    streamBit w (digitsOf w bits).length (digitsOf w bits) n = bits.getD n false := by
  rw [streamBit, digitInOf]
  split
  · next h =>
    rw [dinAt, getElem?_digitsOf h, Option.getD_some, Nat.mod_eq_of_lt (digitOf_lt w bits _),
      testBit_digitOf bits _ (Nat.mod_lt n hw), Nat.div_add_mod']
  · next h =>
    have hn : bits.length ≤ n := by
      by_contra hlt
      exact h (by simpa using Nat.lt_succ_of_le (Nat.div_le_div_right (not_le.mp hlt).le))
    simp [hn]

/-! ### What `PutBit` and `Flush` do -/

section
variable {s : State} {dw : BitVec 5} {k : Sink} (hw : s.digitW = some dw) (hk : s.sink = some k)
include hw hk

/-- A bit that completes no digit is kept in the accumulator (R111). -/
theorem putBit_of_cnt_ne (b : Bool) (hc : k.cnt ≠ dw.toNat - 1) :
    putBit b s = .ok (s.setSink (some ⟨2 * k.acc + b.toNat, k.cnt + 1⟩)) := by
  simp only [putBit, hw, hk, need_some, Res.ok_bind, if_neg hc]

/-- A bit that completes a digit outputs it at once and empties the packer (R111). -/
theorem putBit_of_room (b : Bool) (hc : k.cnt = dw.toNat - 1) (hroom : full s.caps.out s.dout.length = false) :
    putBit b s = .ok ((s.setDout (s.dout ++ [2 * k.acc + b.toNat])).setSink (some ⟨0, 0⟩)) := by
  simp [putBit, digitOut, hw, hk, hc, hroom]

/-- The accumulator is written before the fault of the digit it completes (R111, R276). -/
theorem putBit_of_full (b : Bool) (hc : k.cnt = dw.toNat - 1) (hfull : full s.caps.out s.dout.length = true) :
    putBit b s = .error (.raised ((s.setSink (some ⟨2 * k.acc + b.toNat, k.cnt⟩)).enterFault .capacity 2)) := by
  simp [putBit, digitOut, hw, hk, hc, hfull]

/-- `Flush` outputs the accumulator, padded, and empties the packer (R113). -/
theorem flush_of_room (hroom : full s.caps.out s.dout.length = false) :
    flush s = .ok ((s.setDout (s.dout ++ [k.acc * 2 ^ (dw.toNat - k.cnt)])).setSink (some ⟨0, 0⟩)) := by
  simp [flush, digitOut, hw, hk, hroom]

/-- A `Flush` that has no room for its digit writes nothing (R113, R114). -/
theorem flush_of_full (hfull : full s.caps.out s.dout.length = true) :
    flush s = .error (.raised (s.enterFault .capacity 2)) := by
  simp [flush, digitOut, hw, hk, hfull]

end

/-! ### The digits that a sequence of bits and one `Flush` append -/

/-- Bits that complete no digit are kept in the accumulator, in order (R111). -/
theorem putBits_accumulate (bs : List Bool) {s : State} {dw : BitVec 5} {k : Sink} (hw : s.digitW = some dw)
    (hk : s.sink = some k) (hc : k.cnt + bs.length < dw.toNat) :
    putBits bs s = .ok (s.setSink (some ⟨msbValue k.acc bs, k.cnt + bs.length⟩)) := by
  induction bs generalizing s k with
  | nil => rw [putBits, msbValue, List.length_nil, Nat.add_zero, setSink_self s _ hk]
  | cons b bs ih =>
    rw [List.length_cons] at hc
    have hstep := putBit_of_cnt_ne hw hk b (by omega)
    have hrest := ih (s := s.setSink (some ⟨2 * k.acc + b.toNat, k.cnt + 1⟩)) hw rfl (by simp only []; omega)
    rw [putBits, hstep, Res.ok_bind, hrest, setSink_setSink, msbValue, List.length_cons, Nat.add_right_comm, Nat.add_assoc]

/-- From an empty packer, `DIGIT_W` bits output their digit and leave the packer empty (R111, R117). -/
theorem putBits_digit {bs : List Bool} {s : State} {dw : BitVec 5} (hw : s.digitW = some dw) (hk : s.sink = some ⟨0, 0⟩)
    (h1 : 1 ≤ dw.toNat) (hlen : bs.length = dw.toNat) (hroom : full s.caps.out s.dout.length = false) :
    putBits bs s = .ok (s.setDout (s.dout ++ [msbValue 0 bs])) := by
  rcases bs.eq_nil_or_concat with rfl | ⟨init, b, rfl⟩
  · simp [← hlen] at h1
  · rw [List.concat_eq_append, List.length_append, List.length_singleton] at hlen
    have hinit := putBits_accumulate init hw hk (by simp only []; omega)
    have hlast := putBit_of_room (s := s.setSink (some ⟨msbValue 0 init, 0 + init.length⟩)) hw rfl b (by simp only []; omega) hroom
    rw [List.concat_eq_append, putBits_append, hinit, Res.ok_bind, putBits, hlast, msbValue_append, ← hk]
    rfl

/-- From an empty packer, the bits and one `Flush` append the digits of the bits and leave the packer empty (R115). -/
theorem putBits_flush (bits : List Bool) {s : State} {dw : BitVec 5} (hw : s.digitW = some dw) (hk : s.sink = some ⟨0, 0⟩)
    (h1 : 1 ≤ dw.toNat) (ho : s.caps.out = none) :
    (putBits bits s >>= flush) = .ok (s.setDout (s.dout ++ digitsOf dw.toNat bits)) := by
  have hroom (t : State) (ht : t.caps.out = none) : full t.caps.out t.dout.length = false := by rw [ht, full_none]
  by_cases hlt : bits.length < dw.toNat
  · have hbits := putBits_accumulate bits hw hk (by simpa using hlt)
    have hflush := flush_of_room (s := s.setSink (some ⟨msbValue 0 bits, 0 + bits.length⟩)) hw rfl (hroom s ho)
    rw [hbits, Res.ok_bind, hflush, digitsOf_of_length_lt hlt, Nat.zero_add, ← hk]
    rfl
  · have hchunk : (bits.take dw.toNat).length = dw.toNat := by simpa using hlt
    have hdigit := putBits_digit hw hk h1 hchunk (hroom s ho)
    have hrest := putBits_flush (bits.drop dw.toNat) (s := s.setDout (s.dout ++ [msbValue 0 (bits.take dw.toNat)])) hw hk h1 ho
    rw [← List.take_append_drop dw.toNat bits, putBits_append, hdigit, Res.ok_bind, hrest, digitsOf_append _ h1 hchunk]
    simp
termination_by bits.length
decreasing_by
  rw [List.length_drop]
  omega

/-! ### Wherever a step of a compression ends, its digits fit their width -/

/-- Every digit of `DOUT` is below `2^DIGIT_W` (R116). -/
def State.DigitsFit (dw : BitVec 5) (s : State) : Prop := ∀ x ∈ s.dout, x < 2 ^ dw.toNat

/-- The engine stands between two packer operations of a compression at this width (R116). -/
structure State.PackerSound (dw : BitVec 5) (s : State) : Prop where
  digitW : s.digitW = some dw
  packer : ∃ k, s.sink = some k ∧ PackerOk dw k s.dout

/-- An operation that keeps the packer sound, and whose digits fit where a fault ends it: the accumulator need not be sound there. -/
abbrev KeepsPacker (f : State → Res State) : Prop :=
  ∀ dw s, State.PackerSound dw s → (f s).Sat True (State.DigitsFit dw) (State.PackerSound dw)

theorem State.PackerSound.fit {dw : BitVec 5} {s : State} (h : s.PackerSound dw) : s.DigitsFit dw := by
  obtain ⟨k, -, hp⟩ := h.packer
  exact hp.digits

/-- Only `DIGIT_W`, the packer and `DOUT` are spoken of. -/
theorem State.PackerSound.of_same {dw : BitVec 5} {s t : State} (h : s.PackerSound dw) (hw : t.digitW = s.digitW)
    (hk : t.sink = s.sink) (hd : t.dout = s.dout) : t.PackerSound dw where
  digitW := hw.trans h.digitW
  packer := by rw [hk, hd]; exact h.packer

theorem Packed.packer {dw : BitVec 5} {s t : State} (h : Packed dw s t) : ∃ k, t.sink = some k ∧ PackerOk dw k t.dout := by
  obtain ⟨k, more, hp, rfl⟩ := h
  exact ⟨k, rfl, hp⟩

theorem Res.Sat.of_ok {α : Type} {M : Prop} {Q : State → Prop} {P : α → Prop} {r : Res α} {a : α} (h : r.Sat M Q P)
    (ha : r = .ok a) : P a := by
  subst ha
  exact h

/-- A packer operation that completes soundly, and that a fault ends before it outputs anything. -/
theorem State.PackerSound.sat {dw : BitVec 5} {s : State} {r : Res State} (h : s.PackerSound dw)
    (hr : r.Sat False (Faulted s) (Packed dw s)) (hd : r.Sat True (fun t => t.dout = s.dout) fun _ => True) :
    r.Sat True (State.DigitsFit dw) (State.PackerSound dw) := by
  match r, hr, hd with
  | .ok _, hr, _ => exact ⟨hr.digitW.trans h.digitW, hr.packer⟩
  | .error (.raised t), _, hd =>
    show ∀ x ∈ t.dout, x < 2 ^ dw.toNat
    rw [show t.dout = s.dout from hd]
    exact h.fit
  | .error (.model _), _, _ => trivial

/-- The fault of `DigitOut` outputs nothing (R114). -/
theorem digitOut_raised_dout (d : Nat) (s : State) : (digitOut d s).Sat True (fun t => t.dout = s.dout) fun _ => True := by
  rcases digitOut_cases d s with ⟨_, h⟩ | ⟨_, h⟩ <;> rw [h]
  · rfl
  · trivial

theorem putBit_raised_dout (b : Bool) (s : State) : (putBit b s).Sat True (fun t => t.dout = s.dout) fun _ => True := by
  refine .of_need fun k _ => .of_need fun w _ => ?_
  split
  · exact (digitOut_raised_dout _ (s.setSink _)).bind fun _ _ => trivial
  · trivial

theorem flush_raised_dout (s : State) : (flush s).Sat True (fun t => t.dout = s.dout) fun _ => True :=
  .of_need fun _ _ => .of_need fun _ _ => (digitOut_raised_dout _ s).bind fun _ _ => trivial

theorem putBit_keepsPacker (b : Bool) : KeepsPacker (putBit b) := by
  intro dw s h
  obtain ⟨k, hk, hp⟩ := h.packer
  exact h.sat (putBit_sat b s h.digitW hk hp) (putBit_raised_dout b s)

theorem flush_keepsPacker : KeepsPacker flush := by
  intro dw s h
  obtain ⟨k, hk, hp⟩ := h.packer
  exact h.sat (flush_sat s h.digitW hk hp) (flush_raised_dout s)

theorem putBits_keepsPacker (bs : List Bool) : KeepsPacker (putBits bs) := by
  induction bs with
  | nil => exact fun _ _ h => h
  | cons b bs ih => exact fun dw s h => (putBit_keepsPacker b dw s h).bind (ih dw)

theorem putValue_keepsPacker (v n : Nat) : KeepsPacker (putValue v n) := putBits_keepsPacker _

theorem cInsert_keepsPacker (t : Str) : KeepsPacker (cInsert t) := by
  intro dw s h
  refine .of_need fun sc _ => .of_need fun d _ => ?_
  split
  · exact h.fit
  · exact h.of_same rfl rfl rfl

theorem tick_keepsPacker : KeepsPacker tick := fun _ _ h => .of_need fun _ _ => h.of_same rfl rfl rfl

theorem literalSent_keepsPacker (v : Char16) : KeepsPacker (literalSent v) := fun dw s h =>
  .of_need fun p _ => (tick_keepsPacker dw (s.setPending (some (p.remove v))) (h.of_same rfl rfl rfl)).bind (tick_keepsPacker dw)

/-- What the two literal forms share: a code, a payload, and the pending mark gone (R176, R177). -/
theorem literalToken_keepsPacker (v : Char16) (code m n : Nat) :
    KeepsPacker fun s => putValue code m s >>= fun t => putValue v.toNat n t >>= literalSent v := fun dw s h =>
  (putValue_keepsPacker _ _ dw s h).bind fun t ht =>
    (putValue_keepsPacker _ _ dw t ht).bind (literalSent_keepsPacker v dw)

theorem emitRef_keepsPacker (t : Str) : KeepsPacker (emitRef t) := fun dw s h =>
  .of_read (codeOf_reads t s) fun _ => .of_need fun _ _ =>
    (putValue_keepsPacker _ _ dw s h).bind (tick_keepsPacker dw)

theorem emit_keepsPacker (t : Str) : KeepsPacker (emit t) := by
  intro dw s h
  refine .of_need fun p _ => ?_
  split
  · refine .of_read (headOf_reads t) fun v => ?_
    split
    · exact .of_need fun sc _ => literalToken_keepsPacker v 0 sc.numBits 8 dw s h
    · exact .of_need fun sc _ => literalToken_keepsPacker v 1 sc.numBits 16 dw s h
  · exact emitRef_keepsPacker t dw s h

theorem registerChar_keepsPacker (c : Char16) : KeepsPacker (registerChar c) := by
  intro dw s h
  refine .of_need fun d _ => ?_
  split
  · exact h
  · exact (cInsert_keepsPacker [c] dw s h).bind fun t ht => .of_need fun p _ => ht.of_same rfl rfl rfl

theorem extendMatch_keepsPacker (c : Char16) : KeepsPacker (extendMatch c) := by
  intro dw s h
  refine .of_need fun d _ => .of_need fun w _ => ?_
  split
  · exact h.of_same rfl rfl rfl
  · exact (emit_keepsPacker w dw s h).bind fun t ht =>
      (cInsert_keepsPacker _ dw t ht).bind fun u hu => hu.of_same rfl rfl rfl

theorem cScan_keepsPacker : KeepsPacker cScan := by
  intro dw s h
  refine .of_need fun i _ => .of_need fun n _ => .of_read (charIn_reads i s) fun c => ?_
  refine (registerChar_keepsPacker c dw (s.setIi (some (i + 1))) (h.of_same rfl rfl rfl)).bind fun t ht =>
    (extendMatch_keepsPacker c dw t ht).bind fun u hu => ?_
  split
  · exact hu.of_same rfl rfl rfl
  · exact hu

theorem cFinal_keepsPacker : KeepsPacker cFinal := fun dw s h =>
  .of_need fun w _ => (emit_keepsPacker w dw s h).bind fun t ht =>
    .of_need fun _ _ => (putValue_keepsPacker _ _ dw t ht).bind fun u hu =>
      (flush_keepsPacker dw u hu).bind fun _ hx => hx.of_same rfl rfl rfl

/-- A running compression stands in one of its two phases, between two packer operations (R24, R116). -/
theorem State.Inv.packerSound {s : State} {dw : BitVec 5} (h : s.Inv) (hb : s.status = .busy) (hm : s.mode = some .compress)
    (hw : s.digitW = some dw) : (s.phase = .pCScan ∨ s.phase = .pCFinal) ∧ s.PackerSound dw := by
  rcases h.work_of_busy hb with ⟨dw', _, _, k, _, _, _, hc⟩ | ⟨_, _, hf⟩ | ⟨_, _, _, _, _, _, hl⟩
  · obtain rfl : dw' = dw := by simpa [hc.digitW] using hw
    exact ⟨(h.compression hb hc.cdict hc.pending).1, hw, k, hc.sink, hc.packer⟩
  · simp [hf.mode] at hm
  · simp [hl.mode] at hm

/-- What keeps the packer sound answers a state whose digits fit. -/
theorem KeepsPacker.of_outcome {f : State → Res State} (hf : KeepsPacker f) {dw : BitVec 5} {s t : State}
    (h : s.PackerSound dw) (ht : (f s).outcome = .next t) : t.DigitsFit dw :=
  ((hf dw s h).mono (fun _ hu => hu.fit) fun _ hu => hu).of_outcome ht

/-! ### The statements -/

/-- Settles O31: the digits are those of the bits, with the sum and the bits that each of them has. -/
theorem packerOutputsTheBits : Obligations.PackerOutputsTheBits := by
  intro s dw bits hw h1 ho
  refine ⟨digitsOf dw.toNat bits, putBits_flush bits (s := sinkInit s) hw rfl h1 ho, digitsOf_length _ bits, ?_, ?_⟩
  · intro k hk
    rw [getElem?_digitsOf hk, digitOf_eq_sum]
  · exact fun n => streamBit_digitsOf bits n h1

/-- Settles O32: an empty packer is sound, and what a packer operation leaves is (`putBit_sat`, `flush_sat`). -/
theorem packerInvariantHolds : Obligations.PackerInvariantHolds := by
  intro s t dw k b hw h1 hd
  refine ⟨⟨⟨0, 0⟩, rfl, Nat.one_pos, h1, hd⟩, fun hk hp ht => ?_⟩
  rcases ht with ht | ht
  · exact ((putBit_sat b s hw hk hp).of_ok ht).packer
  · exact ((flush_sat s hw hk hp).of_ok ht).packer

/-- Settles O54, by the cases of a move: the turn of a compression keeps the packer sound or ends in a fault with digits that fit; no other
move that the hypotheses allow writes `DOUT`. -/
theorem digitsFitTheirWidth : Obligations.DigitsFitTheirWidth := by
  intro s t dw h hb hc ht hm hw
  obtain ⟨hph, hs⟩ := h.packerSound hb hm hw
  have h₀ : s.taken.PackerSound dw := hs.of_same rfl rfl rfl
  cases step_moved ht with
  | engine _ he =>
    rcases hph with hph | hph
    · exact cScan_keepsPacker.of_outcome h₀ (engineStep_scan s.taken hph ▸ he)
    · exact cFinal_keepsPacker.of_outcome h₀ (engineStep_final s.taken hph ▸ he)
  | ignored _ ht => exact ht ▸ h₀.fit
  | startCompress _ waits _ => exact absurd hb waits
  | startDecompress _ waits _ => exact absurd hb waits
  | reset cmd _ => exact absurd cmd hc
  | write waits _ _ _ _ _ => exact absurd hb waits

/-- Settles O29, by the count of bits held and the room in `DOUT`. -/
theorem putBitAppendsOneBit : Obligations.PutBitAppendsOneBit := by
  intro s dw k b hw _ hk
  exact ⟨putBit_of_cnt_ne hw hk b, putBit_of_room hw hk b, putBit_of_full hw hk b⟩

/-- Settles O30, by the room in `DOUT`. -/
theorem flushPadsTheLastDigit : Obligations.FlushPadsTheLastDigit := by
  intro s dw k hw hk
  exact ⟨flush_of_room hw hk, flush_of_full hw hk⟩

end Machine

end Sys2Proof

/-!
SUPPORT and PROOFS. The bit-unpacker of 41_bitsource.md: the digit a read gives (O33), the value of a field (O34) and the eager form
(O35); then what a decompression depends on (O55): no token rule looks at the stream, so a step answers the same at any two streams that
hold the same bits as far as the step reads them.
-/

namespace Sys2Proof.Machine

/-! ### Digits and bits -/

theorem digitIn_eq (j : Nat) (s : State) {dw : BitVec 5} {len : Nat} (hw : s.digitW = some dw) (hl : s.length = some len) :
    digitIn j s = .ok (digitInOf dw.toNat len s.din j) := by
  simp only [digitIn, hw, hl, need_some, Res.ok_bind]

theorem digitInOf_of_lt {len j : Nat} (w : Nat) (din : List Nat) (h : j < len) : digitInOf w len din j = dinAt din j % 2 ^ w :=
  if_pos h

theorem digitInOf_of_le {len j : Nat} (w : Nat) (din : List Nat) (h : len ≤ j) : digitInOf w len din j = 0 :=
  if_neg (by omega)

/-- The value is built from the most significant bit down (R132). -/
theorem msbValue_eq_foldl (r : Nat) (bs : List Bool) : msbValue r bs = bs.foldl (fun r b => 2 * r + b.toNat) r := by
  induction bs generalizing r with
  | nil => rfl
  | cons b bs ih => exact ih _

/-- Within a digit the next bit is one place to the right; after its last bit comes the next digit (R131). -/
theorem succ_div_mod {w pos : Nat} (hw : 1 ≤ w) :
    (pos % w + 1 < w ∧ (pos + 1) / w = pos / w ∧ (pos + 1) % w = pos % w + 1) ∨
      (pos % w + 1 = w ∧ (pos + 1) / w = pos / w + 1 ∧ (pos + 1) % w = 0) := by
  have hr := Nat.mod_lt pos hw
  have hp := Nat.mod_add_div pos w
  rcases Nat.lt_or_eq_of_le (Nat.succ_le_of_lt hr) with h | h
  · exact .inl ⟨h, (Nat.div_mod_unique hw).mpr ⟨by omega, h⟩⟩
  · exact .inr ⟨h, (Nat.div_mod_unique hw).mpr ⟨by rw [Nat.mul_succ]; omega, hw⟩⟩

/-! ### The streams of two buffers -/

/-- The bits of a budget of `len` digits are the same under the same digits and any larger budget (R131, R134). -/
theorem streamBit_of_sameDigits {w len len' pos : Nat} {a b : List Nat} (h : sameDigits w len a b) (hle : len ≤ len')
    (hpos : pos < len * w) : streamBit w len' b pos = streamBit w len a pos := by
  have hj : pos / w < len := Nat.div_lt_of_lt_mul (by rwa [Nat.mul_comm])
  rw [streamBit, streamBit, digitInOf_of_lt w b (hj.trans_le hle), digitInOf_of_lt w a hj, h _ hj]

/-- Under one budget they are the same past it too, where all bits are zeros (R135). -/
theorem streamBit_of_sameDigits_self {w len : Nat} {a b : List Nat} (h : sameDigits w len a b) (pos : Nat) :
    streamBit w len b pos = streamBit w len a pos := by
  rw [streamBit, streamBit]
  rcases lt_or_ge (pos / w) len with hj | hj
  · rw [digitInOf_of_lt w b hj, digitInOf_of_lt w a hj, h _ hj]
  · rw [digitInOf_of_le w b hj, digitInOf_of_le w a hj]

/-! ### A token depends only on its own bits -/

theorem decode_snd_le (f : Format) (bits : List Bool) : (decode f bits).2 ≤ headWidth f + 16 :=
  Nat.add_le_add_left (payloadWidth_le f _) _

/-- A sequence that begins with a token's bits holds that token (R88). -/
theorem decode_congr {f : Format} {bits bits' : List Bool}
    (h : takeBits (decode f bits).2 bits' = takeBits (decode f bits).2 bits) : decode f bits' = decode f bits := by
  obtain ⟨hwf, henc, -⟩ := everyBitPatternIsOneRow f bits
  have hlen : (encode f (decode f bits).1).length = (decode f bits).2 := by rw [henc, takeBits_length]
  rw [decode_of_takeBits_eq_encode hwf (by rw [hlen, h, henc]), hlen]

/-- Two streams that hold the same bits up to the end of a token hold the same token. -/
theorem tokenAt_congr {f : Format} {w len len' pos : Nat} {din din' : List Nat}
    (h : ∀ q < pos + (tokenAt f w len din pos).2, streamBit w len' din' q = streamBit w len din q) :
    tokenAt f w len' din' pos = tokenAt f w len din pos := by
  have hn := decode_snd_le f (streamBits w len din pos (headWidth f + 16))
  refine decode_congr ?_
  rw [takeBits_streamBits _ _ _ _ _ _ hn, takeBits_streamBits _ _ _ _ _ _ hn]
  exact List.map_congr_left fun k hk => h _ (Nat.add_lt_add_left (List.mem_range.mp hk) pos)

/-! ### No token rule looks at the stream -/

/-- What the unpacker reads: `DIGIT_W`, `LENGTH`, `SRC_POS` and `DIN`. -/
structure BitSource where
  digitW : Option (BitVec 5)
  length : Option Nat
  srcPos : Option Nat
  din : List Nat

def State.source (s : State) : BitSource := ⟨s.digitW, s.length, s.srcPos, s.din⟩

/-- The same engine at another stream. -/
def State.onSource (s : State) (x : BitSource) : State :=
  { s with digitW := x.digitW, length := x.length, srcPos := x.srcPos, din := x.din }

/-- The same end of a step, at another stream. -/
def Res.onSource (x : BitSource) : Res State → Res State
  | .ok s => .ok (s.onSource x)
  | .error (.raised s) => .error (.raised (s.onSource x))
  | .error (.model f) => .error (.model f)

/-- An operation that neither reads nor writes the stream. -/
abbrev SourceBlind (f : State → Res State) : Prop := ∀ x s, f (s.onSource x) = Res.onSource x (f s)

theorem onSource_bind {x : BitSource} {r r' : Res State} {f : State → Res State} (hr : r' = Res.onSource x r) (hf : SourceBlind f) :
    (r' >>= f) = Res.onSource x (r >>= f) := by
  subst hr
  match r with
  | .ok s => exact hf x s
  | .error (.raised _) => rfl
  | .error (.model _) => rfl

/-- After a read, which ends no step by a fault entry, what follows is the same for each value that could have been read. -/
theorem onSource_read {α : Type} {x : BitSource} {r : Res α} {f f' : α → Res State}
    (hr : r.Sat True (fun _ => False) fun _ => True) (hf : ∀ a, f' a = Res.onSource x (f a)) :
    (r >>= f') = Res.onSource x (r >>= f) := by
  match r, hr with
  | .ok a, _ => exact hf a
  | .error (.raised _), hr => exact hr.elim
  | .error (.model _), _ => rfl

theorem onSource_need {α : Type} {x : BitSource} {e : Element} {o : Option α} {f f' : α → Res State}
    (hf : ∀ a, f' a = Res.onSource x (f a)) : (need e o >>= f') = Res.onSource x (need e o >>= f) :=
  onSource_read ((need_sat e o fun _ => trivial).mono (fun _ _ => trivial) fun _ h => h) hf

theorem onSource_ite {x : BitSource} {p : Prop} [Decidable p] {a a' b b' : Res State} (ha : a' = Res.onSource x a)
    (hb : b' = Res.onSource x b) : (if p then a' else b') = Res.onSource x (if p then a else b) := by
  rw [apply_ite (Res.onSource x), ha, hb]

theorem charOut_sourceBlind (t : Str) : SourceBlind (charOut t) := fun _ _ => onSource_ite rfl rfl

theorem dInsert_sourceBlind (t : Str) : SourceBlind (dInsert t) := fun _ _ =>
  onSource_need fun _ => onSource_need fun _ => onSource_ite rfl rfl

theorem dInsertAt3_sourceBlind (t : Str) : SourceBlind (dInsertAt3 t) := fun _ _ => onSource_need fun _ => onSource_ite rfl rfl

theorem onSched_sourceBlind (f : Sched → Sched) : SourceBlind (onSched f) := fun _ _ => onSource_need fun _ => rfl

theorem firstLiteral_sourceBlind (v : Char16) : SourceBlind (firstLiteral v) := fun x s =>
  onSource_bind (dInsertAt3_sourceBlind [v] x s) fun x t =>
    onSource_bind (charOut_sourceBlind [v] x (t.setDW (some [v]))) fun _ _ => rfl

theorem common_sourceBlind (e : Str) : SourceBlind (common e) := fun x s =>
  onSource_bind (charOut_sourceBlind e x s) fun x t => onSource_need fun _ => onSource_read (headOf_reads e) fun _ =>
    onSource_bind (dInsert_sourceBlind _ x t) fun x u => onSource_bind (onSched_sourceBlind _ x u) fun _ _ => rfl

theorem loopLiteral_sourceBlind (v : Char16) : SourceBlind (loopLiteral v) := fun x s =>
  onSource_need fun _ => onSource_bind (dInsert_sourceBlind [v] x s) fun x t =>
    onSource_bind (onSched_sourceBlind _ x t) fun x u => onSource_bind (onSched_sourceBlind _ x u) fun x y =>
      onSource_read (entryAt_reads _ y) fun e => common_sourceBlind e x y

theorem loopRef_sourceBlind (code : Nat) : SourceBlind (loopRef code) := fun x s =>
  onSource_bind (onSched_sourceBlind _ x s) fun x t => onSource_read (entryAt_reads code t) fun e => common_sourceBlind e x t

theorem loopRefNext_sourceBlind : SourceBlind loopRefNext := fun x s =>
  onSource_bind (onSched_sourceBlind _ x s) fun x t => onSource_need fun w => onSource_read (headOf_reads w) fun _ =>
    common_sourceBlind _ x t

/-- A rule that answers the same next state at every stream, but for the stream. -/
abbrev AnswersBlind (e : State → Host.Outcome State Fault Refusal) : Prop :=
  ∀ x s t, e s = .next t → e (s.onSource x) = .next (t.onSource x)

theorem SourceBlind.answers {f : State → Res State} (hf : SourceBlind f) : AnswersBlind fun s => (f s).outcome := by
  intro x s t (h : (f s).outcome = .next t)
  show (f (s.onSource x)).outcome = _
  rw [hf x s]
  match hr : f s with
  | .ok u => rw [hr] at h; cases h; rfl
  | .error (.raised u) => rw [hr] at h; cases h; rfl
  | .error (.model m) => rw [hr] at h; cases h

/-- A rule that does not look at the stream does not write it. -/
theorem AnswersBlind.source_eq {e : State → Host.Outcome State Fault Refusal} (he : AnswersBlind e) {s t : State}
    (h : e s = .next t) : t.source = s.source := by
  have ht : Host.Outcome.next t = .next (t.onSource s.source) := h.symm.trans (he s.source s t h)
  injection ht with ht
  rw [ht]
  rfl

theorem exec_firstToken_blind (sel payload : Nat) : AnswersBlind (exec (firstToken sel payload)) := by
  unfold firstToken
  split
  · exact (firstLiteral_sourceBlind _).answers
  · exact (firstLiteral_sourceBlind _).answers
  · rintro x s _ ⟨⟩; rfl
  · rintro x s _ ⟨⟩; rfl

theorem exec_loopToken_blind (nextCode code payload : Nat) : AnswersBlind (exec (loopToken nextCode code payload)) := by
  unfold loopToken
  split
  · exact (loopLiteral_sourceBlind _).answers
  · exact (loopLiteral_sourceBlind _).answers
  · rintro x s _ ⟨⟩; rfl
  · split
    · exact (loopRef_sourceBlind _).answers
    · split
      · exact loopRefNext_sourceBlind.answers
      · rintro x s _ ⟨⟩; rfl

/-! ### One turn of a decompression -/

/-- The format of the next token: the schedule is there from the first token on (R84, R152). -/
def State.tokenFormat (s : State) : Format :=
  match s.sched with
  | none => .first
  | some sc => .loop sc.numBits sc.nextCode

/-- A decompression with its next token at bit `pos` of the stream; before the first token the budget is not used up (R200, R206). -/
structure State.Reading (s : State) (dw : BitVec 5) (len pos : Nat) : Prop where
  digitW : s.digitW = some dw
  length : s.length = some len
  srcPos : s.srcPos = some pos
  phase : (s.phase = .pDFirst ∧ s.sched = none ∧ pos < len * dw.toNat) ∨ (s.phase = .pDLoop ∧ ∃ sc, s.sched = some sc)

section
variable {s t : State} {dw : BitVec 5} {len len' pos : Nat} {din din' : List Nat}

/-- The turn ends the call when the budget is used up, and else runs the token at `SRC_POS` (R201, R206). -/
theorem State.Reading.engineStep_eq (h : s.Reading dw len pos) :
    engineStep s = if len * dw.toNat ≤ pos then .next s.finish
      else exec (tokenAt s.tokenFormat dw.toNat len s.din pos).1
        (s.setSrcPos (some (pos + (tokenAt s.tokenFormat dw.toNat len s.din pos).2))) := by
  obtain ⟨hw, hl, hp, ⟨hph, hs, hlt⟩ | ⟨hph, sc, hs⟩⟩ := h
  · rw [engineStep_first s hph, runToken_eq _ s hp hw hl, if_neg (by omega), State.tokenFormat, hs]
  · rw [engineStep_loop s hph, dLoop, exhausted_eq s hp hw hl, State.tokenFormat, hs, need_some]
    by_cases hx : len * dw.toNat ≤ pos
    · rw [if_pos hx, decide_eq_true hx]
    · rw [if_neg hx, decide_eq_false hx]
      exact runToken_eq _ s hp hw hl

theorem exec_tokenAt_blind (s : State) (w len : Nat) (din : List Nat) (pos : Nat) :
    AnswersBlind (exec (tokenAt s.tokenFormat w len din pos).1) := by
  unfold State.tokenFormat
  split
  · exact exec_firstToken_blind _ _
  · exact exec_loopToken_blind _ _ _

/-- Another budget and other digits. -/
def State.withDigits (s : State) (din : List Nat) (len : Nat) : State := { s with din := din, length := some len }

/-- A turn ends the call, its budget used up, or moves `SRC_POS` past a token that does the same at every stream. -/
theorem State.Reading.cases (h : s.Reading dw len pos) (ht : engineStep s = .next t) :
    (len * dw.toNat ≤ pos ∧ t = s.finish) ∨
    ∃ token, ¬ len * dw.toNat ≤ pos ∧ tokenAt s.tokenFormat dw.toNat len s.din pos = token ∧
      t.source = { s.source with srcPos := some (pos + token.2) } ∧
      ∀ din' len', exec token.1 ((s.withDigits din' len').setSrcPos (some (pos + token.2))) = .next (t.withDigits din' len') := by
  rw [h.engineStep_eq] at ht
  split at ht
  · rename_i hx; cases ht; exact .inl ⟨hx, rfl⟩
  · rename_i hx
    generalize htok : tokenAt s.tokenFormat dw.toNat len s.din pos = token at ht
    have hb : AnswersBlind (exec token.1) := htok ▸ exec_tokenAt_blind s dw.toNat len s.din pos
    have hs : t.source = { s.source with srcPos := some (pos + token.2) } := hb.source_eq ht
    refine .inr ⟨token, hx, rfl, hs, fun din' len' => ?_⟩
    have he := hb { t.source with din := din', length := some len' } _ _ ht
    rw [hs] at he
    exact he.trans (by rw [← hs]; rfl)

/-- A turn moves `SRC_POS` on, and changes nothing else of the stream. -/
theorem State.Reading.source_eq (h : s.Reading dw len pos) (ht : engineStep s = .next t) :
    ∃ stop, pos ≤ stop ∧ t.source = { s.source with srcPos := some stop } := by
  rcases h.cases ht with ⟨_, rfl⟩ | ⟨token, _, _, hs, _⟩
  · exact ⟨pos, le_rfl, by rw [← h.srcPos]; rfl⟩
  · exact ⟨_, Nat.le_add_right _ _, hs⟩

theorem State.Reading.withDigits (h : s.Reading dw len pos) (hle : len ≤ len') (din' : List Nat) :
    (s.withDigits din' len').Reading dw len' pos where
  digitW := h.digitW
  length := rfl
  srcPos := h.srcPos
  phase := h.phase.imp_left fun ⟨hp, hs, hlt⟩ => ⟨hp, hs, hlt.trans_le (Nat.mul_le_mul_right _ hle)⟩

/-- A turn is the same under a larger length and other digits, if a budget used up under the smaller length is used up under the larger
one, and the two streams agree up to where the turn stops reading. -/
theorem State.Reading.engineStep_withDigits {stop : Nat} (h : s.Reading dw len pos) (ht : engineStep s = .next t) (hle : len ≤ len')
    (hstop : t.srcPos = some stop) (hbudget : len * dw.toNat ≤ pos → len' * dw.toNat ≤ pos)
    (hbits : ∀ q < stop, streamBit dw.toNat len' din' q = streamBit dw.toNat len s.din q) :
    engineStep (s.withDigits din' len') = .next (t.withDigits din' len') := by
  rw [(h.withDigits hle din').engineStep_eq]
  rcases h.cases ht with ⟨hx, rfl⟩ | ⟨token, hx, htok, hs, he⟩
  · rw [if_pos (hbudget hx)]
    rfl
  · have hend : pos + token.2 = stop := by
      have hp := congrArg BitSource.srcPos hs
      exact Option.some.inj (hp.symm.trans hstop)
    have hmono : len * dw.toNat ≤ len' * dw.toNat := Nat.mul_le_mul_right _ hle
    have htok' : tokenAt (s.withDigits din' len').tokenFormat dw.toNat len' (s.withDigits din' len').din pos = token := by
      rw [← htok]
      exact tokenAt_congr fun q hq => hbits q (by rw [← hend, ← htok]; exact hq)
    rw [if_neg (by omega), htok']
    exact he din' len'

/-! ### A decompression and the host's digits -/

/-- A decompression, running or over, of `len` digits of `din`, with no move of the host to come. -/
structure State.Decoding (s : State) (dw : BitVec 5) (len : Nat) (din : List Nat) : Prop where
  inv : s.Inv
  host : s.host = []
  mode : s.mode = some .decompress
  digitW : s.digitW = some dw
  length : s.length = some len
  din : s.din = din

/-- Other digits under the same length. -/
theorem State.Decoding.withDin_eq (h : s.Decoding dw len din) (din' : List Nat) :
    ({ s with din := din' } : State) = s.withDigits din' len := by
  rw [State.withDigits, ← h.length]

theorem step_of_no_host (h : s.host = []) : step s = engineStep s := by
  rw [step, advance, h]

/-- While it runs it reads its stream. -/
theorem State.Decoding.reading (h : s.Decoding dw len din) (hb : s.status = .busy) : ∃ pos, s.Reading dw len pos := by
  have hw := h.digitW
  have hl := h.length
  have hm := h.mode
  obtain ⟨hi, hh⟩ := h.inv.phase_of_busy hb
  cases hp : s.phase with
  | pIdle => exact absurd hp hi
  | pHalt => exact absurd hp hh
  | pCScan =>
    obtain ⟨_, _, _, _, _, _, _, hc, _⟩ := (phaseOk_scan hp).mp h.inv.work
    simp [hc.mode] at hm
  | pCFinal =>
    obtain ⟨_, _, _, _, _, _, _, hc, _⟩ := (phaseOk_final hp).mp h.inv.work
    simp [hc.mode] at hm
  | pDFirst =>
    obtain ⟨dw', len', hf⟩ := (phaseOk_first hp).mp h.inv.work
    obtain rfl : dw' = dw := by simpa [hf.digitW] using hw
    obtain rfl : len' = len := by simpa [hf.length] using hl
    exact ⟨0, hw, hl, hf.srcPos, .inl ⟨hp, hf.sched, Nat.mul_pos hf.lengthPos hf.width.1⟩⟩
  | pDLoop =>
    obtain ⟨_, _, pos, sc, _, _, hd⟩ := (phaseOk_loop hp).mp h.inv.work
    exact ⟨pos, hw, hl, hd.srcPos, .inr ⟨hp, sc, hd.sched⟩⟩

/-- A move of a decompression is a turn that reads its stream, or, once it is over, changes nothing. -/
theorem State.Decoding.step_cases (h : s.Decoding dw len din) (ht : step s = .next t) :
    (∃ pos, s.Reading dw len pos ∧ engineStep s = .next t ∧ Carried s t) ∨ (s.status ≠ .busy ∧ t = s) := by
  rw [step_of_no_host h.host] at ht
  rcases engineStep_cases h.inv ht with ⟨hb, hc⟩ | ⟨hb, hts⟩
  · obtain ⟨pos, hr⟩ := h.reading hb
    exact .inl ⟨pos, hr, ht, hc⟩
  · exact .inr ⟨hb, hts⟩

theorem State.Decoding.after_step (h : s.Decoding dw len din) (ht : step s = .next t) : t.Decoding dw len din := by
  rcases h.step_cases ht with ⟨pos, hr, he, hc⟩ | ⟨_, rfl⟩
  · obtain ⟨stop, _, hs⟩ := hr.source_eq he
    exact ⟨hc.inCall.inv, (engineStep_grows he).inputs.host.trans h.host, hc.enlarges.mode.trans h.mode,
      (congrArg BitSource.digitW hs).trans h.digitW, (congrArg BitSource.length hs).trans h.length,
      (congrArg BitSource.din hs).trans h.din⟩
  · exact h

theorem moves_succ_iff {k : Nat} :
    moves (k + 1) s = .next t ↔ ∃ u, step s = .next u ∧ moves k u = .next t := by
  cases hs : step s <;> simp [moves, Host.Core.run, show core.step s = _ from hs]

/-- The last of `k + 1` moves is a step from where `k` moves lead. -/
theorem moves_succ_iff_last {k : Nat} :
    moves (k + 1) s = .next t ↔ ∃ u, moves k s = .next u ∧ step u = .next t := by
  induction k generalizing s with
  | zero =>
    rw [moves_succ_iff]
    exact ⟨fun ⟨u, hu, ht⟩ => ⟨s, rfl, hu.trans ht⟩, fun ⟨u, hu, ht⟩ => ⟨t, by cases hu; exact ht, rfl⟩⟩
  | succ k ih =>
    rw [moves_succ_iff]
    constructor
    · rintro ⟨v, hv, ht⟩
      obtain ⟨u, hu, ht⟩ := ih.mp ht
      exact ⟨u, moves_succ_iff.mpr ⟨v, hv, hu⟩, ht⟩
    · rintro ⟨u, hu, ht⟩
      obtain ⟨v, hv, hu⟩ := moves_succ_iff.mp hu
      exact ⟨v, hv, ih.mpr ⟨u, hu, ht⟩⟩

/-- An engine that is not `BUSY` waits at any stream. -/
theorem State.Decoding.step_withDigits_of_not_busy (h : s.Decoding dw len din) (hb : s.status ≠ .busy) (din' : List Nat)
    (len' : Nat) : step (s.withDigits din' len') = .next (s.withDigits din' len') := by
  rw [step_of_no_host (by exact h.host)]
  by_cases hi : s.phase = .pIdle
  · exact engineStep_idle _ hi
  · by_cases hh : s.phase = .pHalt
    · exact engineStep_halt _ hh
    · exact absurd (h.inv.running hi hh).1 hb

/-- Reading two streams up to bit p does not tell them apart: the same bits, and no end of the one's budget before the other's. -/
structure SameUpTo (w len : Nat) (din : List Nat) (len' : Nat) (din' : List Nat) (p : Nat) : Prop where
  bits : ∀ q < p, streamBit w len' din' q = streamBit w len din q
  budget : ∀ q ≤ p, len * w ≤ q → len' * w ≤ q

theorem SameUpTo.mono {w p q : Nat} (h : SameUpTo w len din len' din' p) (hq : q ≤ p) :
    SameUpTo w len din len' din' q :=
  ⟨fun x hx => h.bits x (hx.trans_le hq), fun x hx => h.budget x (hx.trans hq)⟩

theorem State.Decoding.step_withDigits (h : s.Decoding dw len din) (ht : step s = .next t) (hle : len ≤ len')
    (hbudget : ∀ p, s.srcPos = some p → len * dw.toNat ≤ p → len' * dw.toNat ≤ p)
    (hbits : ∀ p, t.srcPos = some p → ∀ q < p, streamBit dw.toNat len' din' q = streamBit dw.toNat len din q) :
    step (s.withDigits din' len') = .next (t.withDigits din' len') := by
  rcases h.step_cases ht with ⟨pos, hr, he, _⟩ | ⟨hb, rfl⟩
  · obtain ⟨stop, _, hs⟩ := hr.source_eq he
    have hstop : t.srcPos = some stop := congrArg BitSource.srcPos hs
    rw [step_of_no_host (by exact h.host)]
    exact hr.engineStep_withDigits he hle hstop (hbudget pos hr.srcPos) (h.din ▸ hbits stop hstop)
  · exact h.step_withDigits_of_not_busy hb din' len'

/-- `SRC_POS` of a decompression does not go back. -/
theorem State.Decoding.srcPos_le {p : Nat} (h : s.Decoding dw len din) (ht : step s = .next t) (hp : s.srcPos = some p) :
    ∃ q, p ≤ q ∧ t.srcPos = some q := by
  rcases h.step_cases ht with ⟨pos, hr, he, _⟩ | ⟨_, rfl⟩
  · obtain rfl : pos = p := Option.some.inj (hr.srcPos.symm.trans hp)
    obtain ⟨stop, hle, hs⟩ := hr.source_eq he
    exact ⟨stop, hle, congrArg BitSource.srcPos hs⟩
  · exact ⟨p, le_rfl, hp⟩

theorem State.Decoding.after_moves {k : Nat} (h : s.Decoding dw len din) (ht : moves k s = .next t) : t.Decoding dw len din := by
  induction k generalizing t with
  | zero => cases ht; exact h
  | succ k ih =>
    obtain ⟨u, hu, htu⟩ := moves_succ_iff_last.mp ht
    exact (ih hu).after_step htu

/-- Any number of moves is the same at two streams that what was read does not tell apart. -/
theorem State.Decoding.moves_withDigits {k : Nat} (h : s.Decoding dw len din) (ht : moves k s = .next t) (hle : len ≤ len')
    (hsame : ∀ p, t.srcPos = some p → SameUpTo dw.toNat len din len' din' p) :
    moves k (s.withDigits din' len') = .next (t.withDigits din' len') := by
  induction k generalizing t with
  | zero => cases ht; rfl
  | succ k ih =>
    obtain ⟨u, hu, htu⟩ := moves_succ_iff_last.mp ht
    have hud := h.after_moves hu
    have hsame' : ∀ p, u.srcPos = some p → SameUpTo dw.toNat len din len' din' p := fun p hp => by
      obtain ⟨q, hpq, hq⟩ := hud.srcPos_le htu hp
      exact (hsame q hq).mono hpq
    exact moves_succ_iff_last.mpr ⟨_, ih hu hsame',
      hud.step_withDigits htu hle (fun p hp => (hsame' p hp).budget p le_rfl) fun p hp => (hsame p hp).bits⟩

end

/-! ### The statements -/

/-- Settles O55: under one length the streams are the same everywhere; under a larger one they are the same up to the end of the smaller
budget, and the last step begins before that end and reads no further. -/
theorem decompressionReadsOnlyItsDigits : Obligations.DecompressionReadsOnlyItsDigits := by
  intro s din' dw len hinv hh hm hw hl hsame
  have hd : s.Decoding dw len s.din := ⟨hinv, hh, hm, hw, hl, rfl⟩
  constructor
  · intro k t ht
    rw [hd.withDin_eq din', (hd.after_moves ht).withDin_eq din']
    exact hd.moves_withDigits ht le_rfl fun p _ => ⟨fun q _ => streamBit_of_sameDigits_self hsame q, fun _ _ hq => hq⟩
  · intro k u t pos stop len' hle hu _ hpos hlt ht _ hstop hbound
    have hbits : ∀ q < len * dw.toNat, streamBit dw.toNat len' din' q = streamBit dw.toNat len s.din q :=
      fun q hq => streamBit_of_sameDigits hsame hle hq
    refine moves_succ_iff_last.mpr ⟨u.withDigits din' len', hd.moves_withDigits hu hle fun p hp => ?_, ?_⟩
    · obtain rfl : pos = p := Option.some.inj (hpos.symm.trans hp)
      exact ⟨fun q hq => hbits q (hq.trans hlt), fun q hq hx => absurd hx (by omega)⟩
    · refine (hd.after_moves hu).step_withDigits ht hle (fun p hp hx => ?_) fun p hp q hq => hbits q ?_
      · obtain rfl : pos = p := Option.some.inj (hpos.symm.trans hp)
        exact absurd hx (by omega)
      · obtain rfl : stop = p := Option.some.inj (hstop.symm.trans hp)
        exact hq.trans_le hbound

/-- Settles O34, by the value of a field (`getValue_eq`), each of its bits being the digit's at its weight. -/
theorem getValueReadsInOrder : Obligations.GetValueReadsInOrder := by
  intro s dw len pos n hw hl hp
  refine ⟨_, getValue_eq n s hp hw hl, ?_, ?_⟩
  · simpa using valueOf_lt Config.codeOrder (streamBits dw.toNat len s.din pos n)
  · show msbValue 0 (streamBits dw.toNat len s.din pos n) = _
    rw [msbValue_eq_foldl, streamBits, List.foldl_map]
    simp only [streamBit, Nat.toNat_testBit]

/-- Settles O35: the mask picks the bit of R131, and its halving ends exactly where the next bit is in the next digit. -/
theorem eagerUnpackerIsEquivalent : Obligations.EagerUnpackerIsEquivalent := by
  intro w len pos din hw
  have hbit : decide (digitInOf w len din (pos / w) &&& 2 ^ (w - 1 - pos % w) ≠ 0) = streamBit w len din pos := by
    rw [Nat.and_two_pow, streamBit]
    cases (digitInOf w len din (pos / w)).testBit (w - 1 - pos % w) <;> simp
  rw [eagerGetBit, eagerAt, eagerAt, hbit]
  rcases succ_div_mod (pos := pos) hw with ⟨h, hdiv, hmod⟩ | ⟨h, hdiv, hmod⟩
  · have hexp : w - 1 - pos % w = w - 1 - (pos % w + 1) + 1 := by omega
    rw [hdiv, hmod, hexp, pow_succ, Nat.mul_div_cancel _ two_pos, if_neg (by positivity)]
  · have hexp : w - 1 - pos % w = 0 := by omega
    rw [hdiv, hmod, hexp, if_pos (show 2 ^ 0 / 2 = 0 from rfl), Nat.sub_zero]

/-- Settles O33, by the two cases of a digit's index. -/
theorem digitInMasksAndPads : Obligations.DigitInMasksAndPads := by
  intro s dw len j hw hl
  rw [digitIn_eq j s hw hl]
  refine ⟨fun x hj hx => ?_, fun hj => ?_, fun hj => ?_⟩
  · rw [digitInOf_of_lt _ _ hj, dinAt, hx, Option.getD_some]
  · rw [digitInOf_of_lt _ _ hj]
    exact ⟨_, rfl, Nat.mod_lt _ (Nat.two_pow_pos _)⟩
  · rw [digitInOf_of_le _ _ hj]

end Sys2Proof.Machine

/-!
SUPPORT and PROOFS. The code-width schedule of 42_width_schedule.md: the two cases of an event (O36); `Sched.closed`, the row of the table
of R159 that an event moves down by one, and with it the closed form (O37); then the balances the invariant carries, at a loop head (O44)
and between two compressor steps (O45), and from the second one that every code fits its field (O46).
-/

namespace Sys2Proof.Machine

/-! ### Schedule events -/

theorem Sched.tick_of_one (numBits nextCode : Nat) : Sched.tick ⟨numBits, 1, nextCode⟩ = ⟨numBits + 1, 2 ^ numBits, nextCode⟩ := rfl

theorem Sched.tick_of_two_le (numBits nextCode : Nat) {enlargeIn : Nat} (h : 2 ≤ enlargeIn) :
    Sched.tick ⟨numBits, enlargeIn, nextCode⟩ = ⟨numBits, enlargeIn - 1, nextCode⟩ :=
  Sched.grow_of_pos ⟨numBits, enlargeIn - 1, nextCode⟩ (Nat.le_sub_one_of_lt h)

theorem Sched.numBits_le_ticks (k : Nat) (sc : Sched) : sc.numBits ≤ (Sched.ticks k sc).numBits := by
  induction k generalizing sc with
  | zero => exact le_rfl
  | succ k ih => exact (Sched.grow_numBits_le sc.dec).trans (ih sc.tick)

/-! ### The closed form -/

/-- The schedule in which n is the count of R159 plus 2: the width of n in bits, and the distance from n to the next power of two. -/
def Sched.closed (n nextCode : Nat) : Sched := ⟨n.log2 + 1, 2 ^ (n.log2 + 1) - n, nextCode⟩

theorem Sched.closed_enlargeIn_add (n nextCode : Nat) :
    (Sched.closed n nextCode).enlargeIn + n = 2 ^ (Sched.closed n nextCode).numBits :=
  Nat.sub_add_cancel Nat.lt_log2_self.le

theorem Sched.tick_closed {n : Nat} (nextCode : Nat) (hn : n ≠ 0) :
    (Sched.closed n nextCode).tick = Sched.closed (n + 1) nextCode := by
  have hlow : 2 ^ n.log2 ≤ n := Nat.log2_self_le hn
  have hhigh : n < 2 ^ (n.log2 + 1) := Nat.lt_log2_self
  rcases (Nat.succ_le_of_lt hhigh).eq_or_lt with hgrow | hstay
  · have hlog : (n + 1).log2 = n.log2 + 1 := by rw [← Nat.succ_eq_add_one, hgrow, Nat.log2_two_pow]
    have hone : 2 ^ (n.log2 + 1) - n = 1 := by omega
    have hnext : 2 ^ (n.log2 + 1 + 1) - (n + 1) = 2 ^ (n.log2 + 1) := by rw [pow_succ]; omega
    rw [Sched.closed, Sched.closed, hlog, hone, hnext, Sched.tick_of_one]
  · have hlog : (n + 1).log2 = n.log2 := (Nat.log2_eq_iff n.succ_ne_zero).mpr ⟨by omega, hstay⟩
    rw [Sched.closed, Sched.closed, hlog, Sched.tick_of_two_le _ _ (by omega), Nat.sub_sub]

theorem Sched.ticks_closed (k : Nat) {n : Nat} (nextCode : Nat) (hn : n ≠ 0) :
    Sched.ticks k (Sched.closed n nextCode) = Sched.closed (n + k) nextCode := by
  induction k generalizing n with
  | zero => rfl
  | succ k ih => rw [Sched.ticks, Sched.tick_closed nextCode hn, ih n.succ_ne_zero, Nat.succ_add_eq_add_succ]

/-- The compressor's seed (R153) is the closed form at 2. -/
theorem Sched.compressorSeed_eq_closed : Sched.compressorSeed = Sched.closed 2 3 := by decide

/-- The decompressor's seed (R152) is the closed form at 4. -/
theorem Sched.decompressorSeed_eq_closed : Sched.decompressorSeed = Sched.closed 4 4 := by decide

theorem Sched.ticks_compressorSeed (k : Nat) : Sched.ticks k Sched.compressorSeed = Sched.closed (k + 2) 3 := by
  rw [Sched.compressorSeed_eq_closed, Sched.ticks_closed k 3 two_ne_zero, Nat.add_comm]

theorem Sched.ticks_decompressorSeed (k : Nat) : Sched.ticks k Sched.decompressorSeed = Sched.closed (k + 4) 4 := by
  rw [Sched.decompressorSeed_eq_closed, Sched.ticks_closed k 4 four_ne_zero, Nat.add_comm]

/-! ### The balances -/

/-- A code is illegal at a loop head when it is past `NEXT_CODE` and fits the field (R82, R96); 0, 1 and 2 are below every `NEXT_CODE`. -/
theorem illegal_wf_iff {numBits nextCode : Nat} (code : Nat) (h : 2 ≤ nextCode) :
    (Instr.illegal code).wf (.loop numBits nextCode) = true ↔ nextCode + 1 ≤ code ∧ code ≤ 2 ^ numBits - 1 := by
  have hpos := Nat.two_pow_pos numBits
  simp only [Instr.wf, Format.isLoop, decide_eq_true_eq]
  omega

/-- In the two phases of a compression the invariant is that of a compression (R24). -/
theorem State.Inv.compOk {s : State} (h : s.Inv) (hph : s.phase = .pCScan ∨ s.phase = .pCFinal) :
    ∃ dw i sc k w d p, CompOk s dw i sc k w d p := by
  rcases hph with hph | hph
  · obtain ⟨dw, i, sc, k, w, d, p, hc, _⟩ := (phaseOk_scan hph).mp h.work
    exact ⟨dw, i, sc, k, w, d, p, hc⟩
  · obtain ⟨dw, i, sc, k, w, d, p, hc, _⟩ := (phaseOk_final hph).mp h.work
    exact ⟨dw, i, sc, k, w, d, p, hc⟩

theorem State.Inv.cSchedOk {s : State} {sc : Sched} {p : Pending} {w : Str} (h : s.Inv)
    (hph : s.phase = .pCScan ∨ s.phase = .pCFinal) (hs : s.sched = some sc) (hp : s.pending = some p) (hw : s.cW = some w) :
    CSchedOk sc p w := by
  obtain ⟨_, _, sc', _, w', _, p', hc⟩ := h.compOk hph
  obtain rfl : sc' = sc := Option.some.inj (hc.sched.symm.trans hs)
  obtain rfl : p' = p := Option.some.inj (hc.pending.symm.trans hp)
  obtain rfl : w' = w := Option.some.inj (hc.cW.symm.trans hw)
  exact hc.schedOk

theorem State.Inv.cDictOk {s : State} {sc : Sched} {d : CDict} (h : s.Inv) (hph : s.phase = .pCScan ∨ s.phase = .pCFinal)
    (hs : s.sched = some sc) (hd : s.cdict = some d) : CDictOk d sc.nextCode := by
  obtain ⟨_, _, sc', _, _, d', _, hc⟩ := h.compOk hph
  obtain rfl : sc' = sc := Option.some.inj (hc.sched.symm.trans hs)
  obtain rfl : d' = d := Option.some.inj (hc.cdict.symm.trans hd)
  exact hc.dictOk

/-! ### The codes of a match -/

theorem CSchedOk.four_le {sc : Sched} {p : Pending} {w : Str} (h : CSchedOk sc p w) : 4 ≤ 2 ^ sc.numBits :=
  Nat.pow_le_pow_right two_pos h.numBits

/-- While the match is not pending the balance leaves `NEXT_CODE` at most `2^NUM_BITS` (R156), so the code of every key fits (R158). -/
theorem CSchedOk.code_lt {sc : Sched} {p : Pending} {w : Str} {d : CDict} {code : Nat} (h : CSchedOk sc p w)
    (hd : CDictOk d sc.nextCode) (hw : p.has w = false) (hc : d.get? w = some code) : code < 2 ^ sc.numBits := by
  have hcode := (CDict.get?_bounds d w code hd.wf hc).2
  have hnext := hd.next
  have henlarge := h.enlargeIn
  have hbal := h.balance
  rw [hw, Bool.toNat_false] at hbal
  omega

/-- The token of a match is a literal, or, while the match is not pending, the reference to its code (R175). -/
theorem matchToken_cases {p : Pending} {d : CDict} {w : Str} {tok : Instr} (h : matchToken p d w = some tok) :
    (∃ v, tok = .lit8 v) ∨ (∃ v, tok = .lit16 v) ∨ ∃ code, p.has w = false ∧ d.get? w = some code ∧ tok = .ref code := by
  unfold matchToken at h
  cases hp : p.has w with
  | true =>
    obtain ⟨v, rfl, _⟩ := (Pending.has_iff p w).mp hp
    simp only [hp, if_true, Option.some.injEq] at h
    split at h
    · exact .inl ⟨_, h.symm⟩
    · exact .inr (.inl ⟨_, h.symm⟩)
  | false =>
    simp only [hp, Bool.false_eq_true, if_false, Option.map_eq_some_iff] at h
    obtain ⟨code, hcode, rfl⟩ := h
    exact .inr (.inr ⟨code, rfl, hcode, rfl⟩)

/-! ### The statements -/

/-- Settles O37: both seeds are rows of the closed form, and an event leads from each row to the next. -/
theorem scheduleClosedForm : Obligations.ScheduleClosedForm := by
  intro k
  have hc (j : Nat) : Sched.ticks j ⟨2, 2, 3⟩ = Sched.closed (j + 2) 3 := Sched.ticks_compressorSeed j
  have hd : Sched.ticks k ⟨3, 4, 4⟩ = Sched.closed (k + 4) 4 := Sched.ticks_decompressorSeed k
  rw [hc, hc, hd]
  exact ⟨rfl, by rw [Nat.add_assoc, Nat.add_comm 2 k, Sched.closed_enlargeIn_add], rfl⟩

/-- Settles O44: the move keeps the invariant, which holds the balance at a loop head; the rest is arithmetic from it. -/
theorem loopHeadBalance : Obligations.LoopHeadBalance := by
  intro s t sc h ht hph hs
  obtain ⟨_, _, _, sc', _, _, hl⟩ := (phaseOk_loop hph).mp (stepKeepsInv s t h ht).work
  obtain rfl : sc' = sc := Option.some.inj (hl.sched.symm.trans hs)
  have hbal := hl.balance
  have henlarge := hl.enlargeIn
  have hnext := hl.nextCode
  exact ⟨hbal, henlarge, by omega, fun code hcode => by omega, fun code => illegal_wf_iff code (by omega)⟩

/-- Settles O45: the move keeps the invariant, which holds the balance of a compression. -/
theorem compressorBalance : Obligations.CompressorBalance := by
  intro s t sc p w h ht hph hs hp hw
  have hbal := ((stepKeepsInv s t h ht).cSchedOk hph hs hp hw).balance
  rwa [Bool.toNat, Bool.cond_eq_ite] at hbal

/-- Settles O46, by the token of the match: a literal's code is 0 or 1, a reference's is below `NEXT_CODE`; the width is 2 or more, and no
event lowers it. -/
theorem codesFitTheirField : Obligations.CodesFitTheirField := by
  intro s sc d p w tok h hph hs hd hp hw htok
  have hsched := h.cSchedOk hph hs hp hw
  have hdict := h.cDictOk hph hs hd
  have hfour := hsched.four_le
  have hend : 2 < 2 ^ (Sched.ticks (tokenEvents tok) sc).numBits :=
    (show 2 < 2 ^ sc.numBits by omega).trans_le (Nat.pow_le_pow_right two_pos (Sched.numBits_le_ticks _ sc))
  rcases matchToken_cases htok with ⟨v, rfl⟩ | ⟨v, rfl⟩ | ⟨code, hnot, hcode, rfl⟩
  · exact ⟨show 0 < 2 ^ sc.numBits by omega, nofun, hend⟩
  · exact ⟨show 1 < 2 ^ sc.numBits by omega, nofun, hend⟩
  · refine ⟨hsched.code_lt hdict hnot hcode, ?_, hend⟩
    rintro _ ⟨⟩
    exact (CDict.get?_bounds d w code hdict.wf hcode).1

/-- Settles O36, by the two cases of an event. -/
theorem tickCountsDownAndGrows : Obligations.TickCountsDownAndGrows :=
  fun numBits _ nextCode => ⟨Sched.tick_of_one numBits nextCode, Sched.tick_of_two_le numBits nextCode⟩

end Sys2Proof.Machine

/-!
SUPPORT and PROOFS. The compressor of 43_compressor.md. A START as an equation (O14); the token of a match, and with it the character step
(O25, O26, O27) and the final step (O28), as equations; then, said once of every operation of a compression (`CompressorOp`), that it does
the same at any `DIN` and `CFG_LENGTH` and that only a bounded capacity stops it: from the first what the host observes of a compression
(O56), from the second how many steps it takes (O57).
-/

namespace Sys2Proof.Machine

/-! ### A START -/

/-- The configuration check lets the call begin (R243). -/
def State.Accepts (s : State) : Prop := legalWidth s.cfgDigitW ∧ overfull s.caps.lenMax s.inBuf.length = false

/-- The working state of a call whose check has passed (R170, R241). -/
def State.seeded (s : State) : State :=
  sinkInit (((beginCall .compress s).setDigitW (some s.cfgDigitW)).setN (some s.inBuf.length)).initCompress

/-- An accepted START ends the call of an empty text, and begins the scan of any other (R170, R180). -/
def State.started (s : State) : State := if s.inBuf = [] then s.seeded.finish else s.seeded.setPhase .pCScan

theorem started_of_empty {s : State} (h : s.inBuf = []) : s.started = s.seeded.finish := if_pos h

theorem started_of_text {s : State} (h : s.inBuf ≠ []) : s.started = s.seeded.setPhase .pCScan := if_neg h

/-- The cause and the information of a START that the check refuses: the width comes before the length (R243, R277). -/
def refusalOf (dw : BitVec 5) : Cause × Nat := if legalWidth dw then (.capacity, 4) else (.badConfig, dw.toNat)

theorem exec_startCompress {s : State} (h : s.status ≠ .busy) : exec .startCompress s = (startCompress s).outcome := if_neg h

theorem startCompress_of_accepts {s : State} (h : s.Accepts) : startCompress s = .ok s.started := by
  obtain ⟨hl, ho⟩ := h
  have hcheck : configCheck s.cfgDigitW s.inBuf.length (beginCall .compress s) = .ok (beginCall .compress s) := by
    rcases configCheck_cases s.cfgDigitW s.inBuf.length (beginCall .compress s) with ⟨hl', _⟩ | ⟨_, ho', _⟩ | ⟨_, _, h⟩
    · exact absurd hl hl'
    · exact absurd (ho.symm.trans ho') Bool.false_ne_true
    · exact h
  rw [startCompress, hcheck, Res.ok_bind, cInit, State.setN_n, need_some, Res.ok_bind]
  show (if s.inBuf.length = 0 then _ else _) = _
  by_cases hn : s.inBuf = []
  · rw [started_of_empty hn, if_pos (List.length_eq_zero_iff.mpr hn)]
    rfl
  · rw [started_of_text hn, if_neg (List.length_eq_zero_iff.not.mpr hn)]
    rfl

/-- A refused START writes what both STARTs begin with, and takes the fault of the check (R243, R276). -/
theorem startCompress_of_not_accepts {s : State} (h : ¬ s.Accepts) : startCompress s =
    .error (.raised ((beginCall .compress s).enterFault (refusalOf s.cfgDigitW).1 (refusalOf s.cfgDigitW).2)) := by
  unfold startCompress refusalOf
  rcases configCheck_cases s.cfgDigitW s.inBuf.length (beginCall .compress s) with ⟨hl, hc⟩ | ⟨hl, _, hc⟩ | ⟨hl, ho, _⟩
  · rw [hc, if_neg hl]; rfl
  · rw [hc, if_pos hl]; rfl
  · exact absurd ⟨hl, ho⟩ h

/-! ### The character of a step -/

theorem Res.bind_congr {α β : Type} {r : Res α} {f g : α → Res β} (h : ∀ a, r = .ok a → f a = g a) : (r >>= f) = (r >>= g) := by
  cases r with
  | ok a => exact h a rfl
  | error e => rfl

theorem charIn_of_getElem? {s : State} {i n : Nat} {c : Char16} (hn : s.n = some n) (hi : i < n) (hc : s.inBuf[i]? = some c) :
    charIn i s = .ok c := by
  simp only [charIn, hn, need_some, Res.ok_bind, if_pos hi, hc]

/-- `C_SCAN` reads its character, registers it, and extends or sends the match; after the last one comes `P_C_FINAL` (R171, R174). -/
theorem cScan_eq {s : State} {i n : Nat} {c : Char16} (hi : s.ii = some i) (hn : s.n = some n) (hlt : i < n)
    (hc : s.inBuf[i]? = some c) : cScan s = registerChar c (s.setIi (some (i + 1))) >>= fun t => extendMatch c t >>= fun u =>
      .ok (if i + 1 = n then u.setPhase .pCFinal else u) := by
  rw [cScan, hi, need_some, Res.ok_bind, hn, need_some, Res.ok_bind, charIn_of_getElem? hn hlt hc, Res.ok_bind]
  simp only [apply_ite Except.ok]

/-- The engine's turn in `P_C_SCAN` (R171). -/
theorem step_eq_of_scan {s : State} {i n : Nat} {c : Char16} (ht : s.engineTurn) (hp : s.phase = .pCScan) (hi : s.ii = some i)
    (hn : s.n = some n) (hlt : i < n) (hc : s.inBuf[i]? = some c) :
    step s = (registerChar c (s.taken.setIi (some (i + 1))) >>= fun t => extendMatch c t >>= fun u =>
      .ok (if i + 1 = n then u.setPhase .pCFinal else u)).outcome := by
  rw [step, advance_of_turn s ht, engineStep_scan s.taken hp, cScan_eq (s := s.taken) hi hn hlt hc]

theorem phase_after_char {u : State} (i n : Nat) (hp : u.phase = .pCScan) :
    (if i + 1 = n then u.setPhase .pCFinal else u) = u.setPhase (if i + 1 = n then .pCFinal else .pCScan) := by
  split
  · rfl
  · rw [← hp]; rfl

/-- A character that is a key needs no registration (R171). -/
theorem registerChar_of_key {s : State} {d : CDict} {c : Char16} (hd : s.cdict = some d) (hk : d.isKey [c] = true) :
    registerChar c s = .ok s := by
  rw [registerChar, hd, need_some, Res.ok_bind, if_pos hk]

theorem cInsert_of_room {s : State} {sc : Sched} {d : CDict} (t : Str) (hs : s.sched = some sc) (hd : s.cdict = some d)
    (hr : full s.caps.dict sc.nextCode = false) :
    cInsert t s = .ok ((s.setCdict (some (d.insert t sc.nextCode))).setSched (some sc.bump)) :=
  ((cInsert_cases t s hs hd).resolve_left fun h => by simp [hr] at h).2

theorem cInsert_of_full {s : State} {sc : Sched} {d : CDict} (t : Str) (hs : s.sched = some sc) (hd : s.cdict = some d)
    (hf : full s.caps.dict sc.nextCode = true) : cInsert t s = .error (.raised (s.enterFault .capacity 1)) :=
  ((cInsert_cases t s hs hd).resolve_right fun h => by simp [hf] at h).2

/-- A new character gets the next code, and then its pending mark (R171). -/
theorem registerChar_of_room {s : State} {sc : Sched} {d : CDict} {p : Pending} {c : Char16} (hs : s.sched = some sc)
    (hd : s.cdict = some d) (hp : s.pending = some p) (hk : d.isKey [c] = false) (hr : full s.caps.dict sc.nextCode = false) :
    registerChar c s =
      .ok (((s.setCdict (some (d.insert [c] sc.nextCode))).setSched (some sc.bump)).setPending (some (p.add c))) := by
  rw [registerChar, hd, need_some, Res.ok_bind, if_neg (by simp [hk]), cInsert_of_room [c] hs hd hr, Res.ok_bind,
    State.setSched_pending, State.setCdict_pending, hp, need_some, Res.ok_bind]

/-- With no code left it is not registered (R72, R184). -/
theorem registerChar_of_full {s : State} {sc : Sched} {d : CDict} {c : Char16} (hs : s.sched = some sc) (hd : s.cdict = some d)
    (hk : d.isKey [c] = false) (hf : full s.caps.dict sc.nextCode = true) :
    registerChar c s = .error (.raised (s.enterFault .capacity 1)) := by
  rw [registerChar, hd, need_some, Res.ok_bind, if_neg (by simp [hk]), cInsert_of_full [c] hs hd hf, Res.error_bind]

/-! ### The token of a match -/

@[simp] theorem Sched.ticks_nextCode (k : Nat) (sc : Sched) : (Sched.ticks k sc).nextCode = sc.nextCode := by
  induction k generalizing sc with
  | zero => rfl
  | succ k ih => rw [Sched.ticks, ih, Sched.tick_nextCode]

/-- After the bits of the token of w: its pending mark is gone and its schedule events are made (R154, R176 to R178). -/
def State.tokenSent (p : Pending) (sc : Sched) (w : Str) (tok : Instr) (u : State) : State :=
  (u.setPending (some (sentPending p w))).setSched (some (Sched.ticks (tokenEvents tok) sc))

@[simp] theorem tokenSent_sched (p : Pending) (sc : Sched) (w : Str) (tok : Instr) (u : State) :
    (u.tokenSent p sc w tok).sched = some (Sched.ticks (tokenEvents tok) sc) := rfl

/-- A literal: its code and its payload, then its pending mark and its events (R176, R177). -/
theorem literalToken_eq {s : State} {sc : Sched} {p : Pending} (v : Char16) (code m n : Nat) (hs : s.sched = some sc)
    (hp : s.pending = some p) : (putValue code m s >>= fun t => putValue v.toNat n t >>= literalSent v) =
      putBits (bitsOf Config.codeOrder m code ++ bitsOf Config.codeOrder n v.toNat) s >>= fun u =>
        .ok ((u.setPending (some (p.remove v))).setSched (some sc.tick.tick)) := by
  rw [← bind_assoc, putBits_append]
  refine Res.bind_congr fun u hu => literalSent_eq v u ?_ ?_
  all_goals rw [putBits_frame _ s u ((putBits_append _ _ s).trans hu)]; assumption

/-- A reference: the code of its key, then its event (R178). -/
theorem emitRef_eq {s : State} {sc : Sched} {d : CDict} {w : Str} {code : Nat} (hs : s.sched = some sc) (hd : s.cdict = some d)
    (hc : d.get? w = some code) : emitRef w s =
      putBits (bitsOf Config.codeOrder sc.numBits code) s >>= fun u => .ok (u.setSched (some sc.tick)) := by
  rw [emitRef, codeOf_eq w s hd hc, Res.ok_bind, hs, need_some, Res.ok_bind]
  refine Res.bind_congr fun u hu => onSched_some _ u sc ?_
  rw [putBits_frame _ s u hu]
  exact hs

/-- The word of a later reference is its code alone (R83). -/
theorem encode_ref (m n code : Nat) : encode (.loop m n) (.ref code) = bitsOf Config.codeOrder m code := List.append_nil _

/-- The word of a literal below `LIT8_LIMIT` carries the character whole (R83, R86). -/
theorem encode_lit8 {v : Char16} (m n : Nat) (h : v.toNat < 128) :
    encode (.loop m n) (.lit8 (v.setWidth 8)) = bitsOf Config.codeOrder m 0 ++ bitsOf Config.codeOrder 8 v.toNat := by
  have hv : (v.setWidth 8).toNat = v.toNat := by rw [BitVec.toNat_setWidth]; omega
  rw [← hv]
  rfl

/-- `EMIT` of a match puts the bits of its token, with the width and the next code in force (R86, R175). -/
theorem emit_eq {s : State} {sc : Sched} {d : CDict} {p : Pending} {w : Str} {tok : Instr} (hs : s.sched = some sc)
    (hd : s.cdict = some d) (hp : s.pending = some p) (htok : matchToken p d w = some tok) :
    emit w s = putBits (encode (.loop sc.numBits sc.nextCode) tok) s >>= fun u => .ok (u.tokenSent p sc w tok) := by
  unfold matchToken at htok
  rw [emit, hp, need_some, Res.ok_bind]
  cases hw : p.has w with
  | true =>
    obtain ⟨v, rfl, _⟩ := (Pending.has_iff p w).mp hw
    simp only [hw, if_true, Option.some.injEq] at htok
    rw [if_pos rfl, headOf_cons, Res.ok_bind]
    unfold State.tokenSent
    rw [sentPending_remove]
    by_cases hv : v.toNat < 128
    · obtain rfl := (if_pos hv).symm.trans htok
      rw [if_pos (show v.toNat < Config.lit8Limit from hv), emitLit8, hs, encode_lit8 _ _ hv]
      exact literalToken_eq v 0 _ 8 hs hp
    · obtain rfl := (if_neg hv).symm.trans htok
      rw [if_neg (show ¬ v.toNat < Config.lit8Limit from hv), emitLit16, hs]
      exact literalToken_eq v 1 _ 16 hs hp
  | false =>
    simp only [hw, Bool.false_eq_true, if_false, Option.map_eq_some_iff] at htok
    obtain ⟨code, hcode, rfl⟩ := htok
    rw [if_neg Bool.false_ne_true, emitRef_eq hs hd hcode, encode_ref]
    refine Res.bind_congr fun u hu => ?_
    have hpu : u.pending = some p := by rw [putBits_frame _ s u hu]; exact hp
    rw [State.tokenSent, sentPending_of_not p w hw, ← hpu]
    rfl

/-! ### The match of a step -/

/-- An extending step (R172). -/
theorem extendMatch_of_key {s : State} {d : CDict} {w : Str} {c : Char16} (hd : s.cdict = some d) (hw : s.cW = some w)
    (hk : d.isKey (w ++ [c]) = true) : extendMatch c s = .ok (s.setCW (some (w ++ [c]))) := by
  rw [extendMatch, hd, need_some, Res.ok_bind, hw, need_some, Res.ok_bind, if_pos hk]

/-- A non-extending step sends the token, inserts the candidate, and begins the match again (R173). -/
theorem extendMatch_of_not_key {s : State} {sc : Sched} {d : CDict} {p : Pending} {w : Str} {c : Char16} {tok : Instr}
    (hs : s.sched = some sc) (hd : s.cdict = some d) (hp : s.pending = some p) (hw : s.cW = some w)
    (hk : d.isKey (w ++ [c]) = false) (htok : matchToken p d w = some tok) :
    extendMatch c s = putBits (encode (.loop sc.numBits sc.nextCode) tok) s >>= fun u =>
      cInsert (w ++ [c]) (u.tokenSent p sc w tok) >>= fun t => .ok (t.setCW (some [c])) := by
  rw [extendMatch, hd, need_some, Res.ok_bind, hw, need_some, Res.ok_bind, if_neg (by simp [hk]), emit_eq hs hd hp htok, bind_assoc]
  rfl

/-! ### Writes that an operation does not see -/

/-- The same end of a step, with a write made on it. -/
def Res.through (g : State → State) : Res State → Res State
  | .ok s => .ok (g s)
  | .error (.raised s) => .error (.raised (g s))
  | .error (.model f) => .error (.model f)

/-- An operation ends the same way whether the write comes before it or after it. -/
abbrev Unseen (g : State → State) (f : State → Res State) : Prop := ∀ s, f (g s) = (f s).through g

theorem Unseen.bind {g : State → State} {f h : State → Res State} (hf : Unseen g f) (hh : Unseen g h) :
    Unseen g fun s => f s >>= h := by
  intro s
  show (f (g s) >>= h) = (f s >>= h).through g
  rw [hf s]
  rcases f s with (_ | _) | t
  · rfl
  · rfl
  · exact hh t

/-- Two writes that can change places. -/
theorem Unseen.write {g h : State → State} (hw : ∀ s, h (g s) = g (h s)) : Unseen g fun s => .ok (h s) :=
  fun s => congrArg Except.ok (hw s)

/-- An operation after a write that can change places with the first one. -/
theorem Unseen.after {g : State → State} {f : State → Res State} (w : State → State) (hf : Unseen g f)
    (hw : ∀ s, w (g s) = g (w s)) : Unseen g fun s => f (w s) :=
  (Unseen.write hw).bind hf

/-- A read that gives the same after the write, and that ends no step by a fault entry. -/
theorem Unseen.read {α : Type} {g : State → State} {r : State → Res α} {f : α → State → Res State} (hr : ∀ s, r (g s) = r s)
    (hn : ∀ s, (r s).Sat True (fun _ => False) fun _ => True) (hf : ∀ a, Unseen g (f a)) :
    Unseen g fun s => r s >>= fun a => f a s := by
  intro s
  show (r (g s) >>= fun a => f a (g s)) = (r s >>= fun a => f a s).through g
  rw [hr s]
  match r s, hn s with
  | .ok a, _ => exact hf a s
  | .error (.raised _), hs => exact hs.elim
  | .error (.model _), _ => rfl

theorem Unseen.need {α : Type} {g : State → State} {e : Element} {o : State → Option α} {f : α → State → Res State}
    (ho : ∀ s, o (g s) = o s) (hf : ∀ a, Unseen g (f a)) : Unseen g fun s => Machine.need e (o s) >>= fun a => f a s :=
  .read (fun s => congrArg (Machine.need e) (ho s))
    (fun s => (need_sat e (o s) fun _ => trivial).mono (fun _ _ => trivial) fun _ h => h) hf

theorem Unseen.ite {c : Prop} [Decidable c] {g : State → State} {f h : State → Res State} (hf : Unseen g f) (hh : Unseen g h) :
    Unseen g fun s => if c then f s else h s := by
  split
  · exact hf
  · exact hh

/-! ### The final step -/

section
variable {p : Pending} {sc : Sched} {w : Str} {tok : Instr}

/-! The packer does not see what the end of a token writes. -/

theorem digitOut_unseen (x : Nat) : Unseen (State.tokenSent p sc w tok) (digitOut x) := by
  intro s
  unfold digitOut
  rw [apply_ite (Res.through _)]
  rfl

theorem putBit_unseen (b : Bool) : Unseen (State.tokenSent p sc w tok) (putBit b) :=
  .need (fun _ => rfl) fun k => .need (fun _ => rfl) fun _ =>
    .ite (((digitOut_unseen _).after (·.setSink (some ⟨2 * k.acc + b.toNat, k.cnt⟩)) fun _ => rfl).bind (.write fun _ => rfl))
      (.write fun _ => rfl)

theorem putBits_unseen (bs : List Bool) : Unseen (State.tokenSent p sc w tok) (putBits bs) := by
  induction bs with
  | nil => exact fun _ => rfl
  | cons b bs ih => exact (putBit_unseen b).bind ih

theorem flush_unseen : Unseen (State.tokenSent p sc w tok) flush :=
  .need (fun _ => rfl) fun _ => .need (fun _ => rfl) fun _ => (digitOut_unseen _).bind (.write fun _ => rfl)

end

/-- `C_FINAL` with room for its digits: the packer does not see the pending mark and the events between the token and the end code
(R179). -/
theorem cFinal_eq {s u x : State} {sc : Sched} {d : CDict} {p : Pending} {w : Str} {tok : Instr} (hs : s.sched = some sc)
    (hd : s.cdict = some d) (hp : s.pending = some p) (hw : s.cW = some w) (htok : matchToken p d w = some tok)
    (hu : putBits (encode (.loop sc.numBits sc.nextCode) tok ++
      bitsOf Config.codeOrder (Sched.ticks (tokenEvents tok) sc).numBits 2) s = .ok u) (hx : flush u = .ok x) :
    cFinal s = .ok (x.tokenSent p sc w tok).finish := by
  rw [putBits_append] at hu
  obtain ⟨v, hv, hvu⟩ := Res.bind_ok hu
  rw [cFinal, hw, need_some, Res.ok_bind, emit_eq hs hd hp htok, hv, Res.ok_bind, Res.ok_bind, tokenSent_sched, need_some,
    Res.ok_bind, putValue, putBits_unseen, hvu, Res.through, Res.ok_bind, flush_unseen, hx]
  rfl

/-! ### What every operation of a compression does -/

/-- Other values of the two host-owned inputs that are a decompression's alone (R51, R93). -/
def State.withUnread (s : State) (din : List Nat) (cfgLength : Nat) : State := { s with din := din, cfgLength := cfgLength }

/-- An operation that does the same at any `DIN` and `CFG_LENGTH` (R181), and that a fault entry ends only where a capacity is bounded
(R275); the capacities stay as they are. -/
structure CompressorOp (f : State → Res State) : Prop where
  blind : ∀ din len, Unseen (State.withUnread · din len) f
  stops : ∀ s, (f s).Sat True (fun _ => s.caps ≠ Config.Caps.unbounded) fun t => t.caps = s.caps

namespace CompressorOp
variable {f h : State → Res State}

theorem write {w : State → State} (hw : ∀ s din len, w (s.withUnread din len) = (w s).withUnread din len := by intros; rfl)
    (hc : ∀ s, (w s).caps = s.caps := by intros; rfl) : CompressorOp fun s => .ok (w s) :=
  ⟨fun din len => .write fun s => hw s din len, hc⟩

theorem bind (hf : CompressorOp f) (hh : CompressorOp h) : CompressorOp fun s => f s >>= h where
  blind din len := (hf.blind din len).bind (hh.blind din len)
  stops s := (hf.stops s).bind fun t ht => by
    have hs := hh.stops t
    rwa [ht] at hs

/-- A write, and then an operation. -/
theorem after (w : State → State) (hf : CompressorOp f)
    (hw : ∀ s din len, w (s.withUnread din len) = (w s).withUnread din len := by intros; rfl)
    (hc : ∀ s, (w s).caps = s.caps := by intros; rfl) : CompressorOp fun s => f (w s) :=
  (write hw hc).bind hf

theorem read {α : Type} {r : State → Res α} {f : α → State → Res State} (hn : ∀ s, (r s).Sat True (fun _ => False) fun _ => True)
    (hf : ∀ a, CompressorOp (f a)) (hr : ∀ s din len, r (s.withUnread din len) = r s := by intros; rfl) :
    CompressorOp fun s => r s >>= fun a => f a s where
  blind din len := .read (fun s => hr s din len) hn fun a => (hf a).blind din len
  stops s := .of_read (hn s) fun a => (hf a).stops s

theorem need {α : Type} {e : Element} {o : State → Option α} {f : α → State → Res State} (hf : ∀ a, CompressorOp (f a))
    (ho : ∀ s din len, o (s.withUnread din len) = o s := by intros; rfl) :
    CompressorOp fun s => Machine.need e (o s) >>= fun a => f a s where
  blind din len := .need (fun s => ho s din len) fun a => (hf a).blind din len
  stops s := .of_need fun a _ => (hf a).stops s

theorem ite {c : Prop} [Decidable c] (hf : CompressorOp f) (hh : CompressorOp h) :
    CompressorOp fun s => if c then f s else h s := by
  split
  · exact hf
  · exact hh

/-- A write that a capacity guards (R274). -/
theorem guarded {cap : Config.Caps → Option Nat} {used : State → Nat} {c : Cause} {i : Nat} {w : State → State}
    (hcap : cap Config.Caps.unbounded = none := by rfl)
    (hu : ∀ s din len, used (s.withUnread din len) = used s := by intros; rfl)
    (hw : ∀ s din len, w (s.withUnread din len) = (w s).withUnread din len := by intros; rfl)
    (hc : ∀ s, (w s).caps = s.caps := by intros; rfl) :
    CompressorOp fun s => if full (cap s.caps) (used s) then raise c i s else .ok (w s) where
  blind din len s := by
    show (if full (cap s.caps) (used (s.withUnread din len)) then _ else _) = _
    rw [hu, hw, apply_ite (Res.through _)]
    rfl
  stops s := by
    split
    · rename_i hfull
      intro hunb
      rw [hunb, hcap] at hfull
      cases hfull
    · exact hc s

end CompressorOp

theorem digitOut_compressorOp (x : Nat) : CompressorOp (digitOut x) := .guarded (cap := Config.Caps.out)

theorem putBit_compressorOp (b : Bool) : CompressorOp (putBit b) :=
  .need fun k => .need fun _ =>
    .ite (((digitOut_compressorOp _).after (·.setSink (some ⟨2 * k.acc + b.toNat, k.cnt⟩))).bind .write) .write

theorem putBits_compressorOp (bs : List Bool) : CompressorOp (putBits bs) := by
  induction bs with
  | nil => exact .write
  | cons b bs ih => exact (putBit_compressorOp b).bind ih

theorem putValue_compressorOp (v n : Nat) : CompressorOp (putValue v n) := putBits_compressorOp _

theorem flush_compressorOp : CompressorOp flush := .need fun _ => .need fun _ => (digitOut_compressorOp _).bind .write

theorem cInsert_compressorOp (t : Str) : CompressorOp (cInsert t) :=
  .need fun sc => .need fun _ => .guarded (cap := Config.Caps.dict) (used := fun _ => sc.nextCode)

theorem tick_compressorOp : CompressorOp tick := .need fun _ => .write

theorem literalSent_compressorOp (v : Char16) : CompressorOp (literalSent v) :=
  .need fun p => (tick_compressorOp.after (·.setPending (some (p.remove v)))).bind tick_compressorOp

/-- The two literal forms (R176, R177). -/
theorem literalToken_compressorOp (v : Char16) (code m n : Nat) :
    CompressorOp fun s => putValue code m s >>= fun t => putValue v.toNat n t >>= literalSent v :=
  (putValue_compressorOp _ _).bind <| (putValue_compressorOp _ _).bind (literalSent_compressorOp v)

theorem emitRef_compressorOp (t : Str) : CompressorOp (emitRef t) :=
  .read (codeOf_reads t) fun _ => .need fun _ => (putValue_compressorOp _ _).bind tick_compressorOp

theorem emit_compressorOp (t : Str) : CompressorOp (emit t) :=
  .need fun _ => .ite
    (.read (fun _ => headOf_reads t) fun v => .ite
      (.need fun sc => literalToken_compressorOp v 0 sc.numBits 8) (.need fun sc => literalToken_compressorOp v 1 sc.numBits 16))
    (emitRef_compressorOp t)

theorem registerChar_compressorOp (c : Char16) : CompressorOp (registerChar c) :=
  .need fun _ => .ite .write <| (cInsert_compressorOp [c]).bind <| .need fun _ => .write

theorem extendMatch_compressorOp (c : Char16) : CompressorOp (extendMatch c) :=
  .need fun _ => .need fun w => .ite .write <| (emit_compressorOp w).bind <| (cInsert_compressorOp _).bind .write

theorem cScan_compressorOp : CompressorOp cScan :=
  .need fun i => .need fun _ => .read (charIn_reads i) fun c =>
    ((registerChar_compressorOp c).after (·.setIi (some (i + 1)))).bind <| (extendMatch_compressorOp c).bind <| .ite .write .write

theorem cFinal_compressorOp : CompressorOp cFinal :=
  .need fun w => (emit_compressorOp w).bind <| .need fun _ =>
    (putValue_compressorOp _ _).bind <| flush_compressorOp.bind .write

/-! ### What a compression observes -/

/-- A compression is in none of the two phases of a decompression (R24). -/
theorem State.Inv.not_decompressing {s : State} (h : s.Inv) (hm : s.mode = some .compress) :
    s.phase ≠ .pDFirst ∧ s.phase ≠ .pDLoop := by
  constructor
  · intro hp
    obtain ⟨_, _, hf⟩ := (phaseOk_first hp).mp h.work
    simp [hf.mode] at hm
  · intro hp
    obtain ⟨_, _, _, _, _, _, hl⟩ := (phaseOk_loop hp).mp h.work
    simp [hl.mode] at hm

/-- A compression, running or over, with no move of the host to come. -/
structure State.Compressing (s : State) : Prop where
  inv : s.Inv
  host : s.host = []
  mode : s.mode = some .compress

theorem CompressorOp.outcome {f : State → Res State} (hf : CompressorOp f) {s t : State} (ht : (f s).outcome = .next t)
    (din : List Nat) (len : Nat) : (f (s.withUnread din len)).outcome = .next (t.withUnread din len) := by
  rw [hf.blind din len s]
  rcases hr : f s with (_ | _) | _ <;> rw [hr] at ht <;> cases ht <;> rfl

section
variable {s t : State}

theorem State.Compressing.after_step (h : s.Compressing) (ht : step s = .next t) : t.Compressing := by
  have he := (step_of_no_host h.host).symm.trans ht
  refine ⟨stepKeepsInv s t h.inv ht, (engineStep_grows he).inputs.host.trans h.host, ?_⟩
  rcases engineStep_cases h.inv he with ⟨_, hc⟩ | ⟨_, rfl⟩
  · exact hc.enlarges.mode.trans h.mode
  · exact h.mode

/-- An accepted START begins a compression. -/
theorem started_compressing (ha : s.Accepts) (hh : s.host = []) : s.started.Compressing := by
  have hinv := ((startCompress_sat s).of_ok (startCompress_of_accepts ha)).inv
  refine ⟨hinv, ?_, ?_⟩ <;> unfold State.started <;> split
  · exact hh
  · exact hh
  · rfl
  · rfl

/-- Two STARTs on one text, with one width and the same capacities, leave the same state but for `DIN` and `CFG_LENGTH`, whatever came
before (R74, R303). -/
theorem started_withUnread {r : State} (hin : r.inBuf = s.inBuf) (hw : r.cfgDigitW = s.cfgDigitW) (hc : r.caps = s.caps)
    (hh : r.host = s.host) : r.started = s.started.withUnread r.din r.cfgLength := by
  unfold State.started
  rw [hin]
  split <;> simp [State.ext_iff, State.seeded, State.withUnread, hin, hw, hc, hh]

/-- A move of a compression is the same at any `DIN` and `CFG_LENGTH` (R181). -/
theorem State.Compressing.step_withUnread (h : s.Compressing) (ht : step s = .next t) (din : List Nat) (len : Nat) :
    step (s.withUnread din len) = .next (t.withUnread din len) := by
  rw [step_of_no_host h.host] at ht
  rw [step_of_no_host (by exact h.host)]
  obtain ⟨hfirst, hloop⟩ := h.inv.not_decompressing h.mode
  cases hp : s.phase with
  | pIdle => rw [engineStep_idle s hp] at ht; cases ht; exact engineStep_idle _ hp
  | pHalt => rw [engineStep_halt s hp] at ht; cases ht; exact engineStep_halt _ hp
  | pCScan =>
    rw [engineStep_scan s hp] at ht
    exact (engineStep_scan (s.withUnread din len) hp).trans (cScan_compressorOp.outcome ht din len)
  | pCFinal =>
    rw [engineStep_final s hp] at ht
    exact (engineStep_final (s.withUnread din len) hp).trans (cFinal_compressorOp.outcome ht din len)
  | pDFirst => exact absurd hp hfirst
  | pDLoop => exact absurd hp hloop

theorem State.Compressing.moves_withUnread {k : Nat} (h : s.Compressing) (ht : moves k s = .next t) (din : List Nat) (len : Nat) :
    moves k (s.withUnread din len) = .next (t.withUnread din len) := by
  induction k generalizing s with
  | zero => cases ht; rfl
  | succ k ih =>
    obtain ⟨u, hu, ht⟩ := moves_succ_iff.mp ht
    exact moves_succ_iff.mpr ⟨_, h.step_withUnread hu din len, ih (h.after_step hu) ht⟩

/-- A halted engine stays as it is while the host makes no move (R248). -/
theorem moves_of_halt (k : Nat) (hh : s.host = []) (hp : s.phase = .pHalt) : moves k s = .next s := by
  induction k with
  | zero => rfl
  | succ k ih => exact moves_succ_iff.mpr ⟨s, (step_of_no_host hh).trans (engineStep_halt s hp), ih⟩

/-! ### The steps of a compression -/

/-- A running compression of a text that has read i of its characters, with no move of the host to come (R171, R174). -/
structure State.Scanning (s : State) (text : Str) (i : Nat) : Prop where
  running : s.Running
  host : s.host = []
  inBuf : s.inBuf = text
  phase : s.phase = if i < text.length then .pCScan else .pCFinal
  comp : ∃ dw sc k w d p, CompOk s dw i sc k w d p

/-- The engine has failed, and some capacity is bounded (R275). -/
def State.FailedBounded (s : State) : Prop := s.status = .doneFail ∧ s.caps ≠ Config.Caps.unbounded

/-- An operation of a compression that ends soundly, wherever it ends: the capacities are the same, and it has failed only where one of
them is bounded. -/
theorem CompressorOp.answers {f : State → Res State} (hf : CompressorOp f) (ha : Appends f) {P : State → Prop}
    (hs : (f s).Sat False (Faulted s) P) :
    Answers (f s).outcome fun t => t.caps = s.caps ∧ (P t ∨ t.FailedBounded) := by
  refine (((hs.and (hf.stops s)).and (ha s)).mono ?_ ?_).answers
  · rintro t ⟨⟨hP, hc⟩, _⟩
    exact ⟨hc, .inl hP⟩
  · rintro t ⟨⟨hF, hc⟩, hg⟩
    obtain ⟨u, c, i, rfl, _⟩ := hF
    have hcaps := hg.inputs.caps
    exact ⟨hcaps, .inr ⟨rfl, by rwa [hcaps]⟩⟩

variable {text : Str} {i : Nat}

/-- One `C_SCAN` (R171). -/
theorem State.Scanning.scan (h : s.Scanning text i) (hi : i < text.length) :
    Answers (step s) fun t => t.caps = s.caps ∧ (t.Scanning text (i + 1) ∨ t.FailedBounded) := by
  have hp : s.phase = .pCScan := h.phase.trans (if_pos hi)
  obtain ⟨dw, sc, k, w, d, p, hc⟩ := h.comp
  rw [step_of_no_host h.host, engineStep_scan s hp]
  obtain ⟨t, ht, hcaps, hP⟩ := cScan_compressorOp.answers cScan_appends (cScan_sat hc (h.inBuf ▸ hi))
  refine ⟨t, ht, hcaps, hP.imp_left ?_⟩
  rintro ⟨sc', k', w', d', p', hc', hg, hst, hca, hin, hph⟩
  refine ⟨⟨hst.trans h.running.status, hca.trans h.running.cause, hin.trans h.running.faultInfo⟩, hg.inputs.host.trans h.host,
    hg.inputs.inBuf.trans h.inBuf, ?_, dw, sc', k', w', d', p', hc'⟩
  rw [hph, h.inBuf, hp]
  by_cases hn : i + 1 = text.length
  · rw [if_pos hn, if_neg (by omega)]
  · rw [if_neg hn, if_pos (by omega)]

/-- The one `C_FINAL` (R179). -/
theorem State.Scanning.final (h : s.Scanning text text.length) (hn : text ≠ []) :
    Answers (step s) fun t => t.caps = s.caps ∧ ((t.status = .doneOk ∧ t.phase = .pHalt) ∨ t.FailedBounded) := by
  have hp : s.phase = .pCFinal := h.phase.trans (if_neg (lt_irrefl _))
  obtain ⟨dw, sc, k, w, d, p, hc⟩ := h.comp
  rw [step_of_no_host h.host, engineStep_final s hp]
  obtain ⟨t, ht, hcaps, hP⟩ := cFinal_compressorOp.answers cFinal_appends (cFinal_sat hc (List.length_pos_iff.mpr hn))
  refine ⟨t, ht, hcaps, hP.imp_left ?_⟩
  rintro ⟨u, rfl, _⟩
  exact ⟨rfl, rfl⟩

/-- After k steps k characters have been read, or the compression has failed before. -/
theorem State.Scanning.moves {k : Nat} (h : s.Scanning text 0) (hk : k ≤ text.length) :
    (∃ u, Machine.moves k s = .next u ∧ u.caps = s.caps ∧ u.Scanning text k) ∨
      ∃ j ≤ k, ∃ u, Machine.moves j s = .next u ∧ u.caps = s.caps ∧ u.FailedBounded := by
  induction k with
  | zero => exact .inl ⟨s, rfl, rfl, h⟩
  | succ k ih =>
    rcases ih (Nat.le_of_succ_le hk) with ⟨u, hu, hcu, hsu⟩ | ⟨j, hj, u, hu, hf⟩
    · obtain ⟨t, ht, hct, hst⟩ := hsu.scan hk
      have hmt := moves_succ_iff_last.mpr ⟨u, hu, ht⟩
      exact hst.imp (fun hst => ⟨t, hmt, hct.trans hcu, hst⟩) fun hf => ⟨k + 1, le_rfl, t, hmt, hct.trans hcu, hf⟩
    · exact .inr ⟨j, Nat.le_succ_of_le hj, u, hu, hf⟩

/-- With no capacity bounded nothing fails. -/
theorem State.Scanning.moves_of_unbounded {k : Nat} (h : s.Scanning text 0) (hc : s.caps = Config.Caps.unbounded)
    (hk : k ≤ text.length) : ∃ u, Machine.moves k s = .next u ∧ u.Scanning text k := by
  rcases h.moves hk with ⟨u, hu, _, hsu⟩ | ⟨_, _, u, _, hcu, hf⟩
  · exact ⟨u, hu, hsu⟩
  · exact absurd (hcu.trans hc) hf.2

/-- With no capacity bounded the compression ends normally after N + 1 steps (R187). -/
theorem State.Scanning.finishes (h : s.Scanning text 0) (hc : s.caps = Config.Caps.unbounded) (hn : text ≠ []) :
    ∃ u, Machine.moves (text.length + 1) s = .next u ∧ u.status = .doneOk ∧ u.phase = .pHalt := by
  rcases h.moves le_rfl with ⟨u, hu, hcu, hsu⟩ | ⟨_, _, u, _, hcu, hf⟩
  · obtain ⟨t, ht, hct, hend⟩ := hsu.final hn
    exact ⟨t, moves_succ_iff_last.mpr ⟨u, hu, ht⟩, hend.resolve_right fun hf => hf.2 (hct.trans (hcu.trans hc))⟩
  · exact absurd (hcu.trans hc) hf.2

/-- Whatever the capacities, the compression is over after at most N + 1 steps (R187). -/
theorem State.Scanning.ends (h : s.Scanning text 0) (hn : text ≠ []) :
    ∃ k u, k ≤ text.length + 1 ∧ Machine.moves k s = .next u ∧ u.ended := by
  rcases h.moves le_rfl with ⟨u, hu, _, hsu⟩ | ⟨k, hk, u, hu, _, hf⟩
  · obtain ⟨t, ht, _, hend⟩ := hsu.final hn
    exact ⟨_, t, le_rfl, moves_succ_iff_last.mpr ⟨u, hu, ht⟩, hend.imp And.left And.left⟩
  · exact ⟨k, u, Nat.le_succ_of_le hk, hu, .inr hf.1⟩

/-- The scan of a nonempty text begins with nothing read (R170). -/
theorem started_scanning (hl : legalWidth s.cfgDigitW) (hh : s.host = []) (hn : s.inBuf ≠ []) : s.started.Scanning s.inBuf 0 := by
  rw [started_of_text hn]
  exact {
    running := ⟨rfl, rfl, rfl⟩
    host := hh
    inBuf := rfl
    phase := (if_pos (List.length_pos_iff.mpr hn)).symm
    comp := ⟨s.cfgDigitW, _, _, _, _, _, (compOk_init rfl rfl hl rfl rfl rfl).setPhase _⟩ }

end

/-! ### The statements -/

/-- Settles O56: two accepted STARTs leave states that differ in `DIN` and `CFG_LENGTH` alone, which no move of a compression sees; two
refused ones halt alike. -/
theorem compressionIsAFunctionOfItsInput : Obligations.CompressionIsAFunctionOfItsInput := by
  intro s r s' r' u k hs hr hsh hrh hin hw hc hs' hr' hu
  rw [exec_startCompress hs] at hs'
  rw [exec_startCompress hr] at hr'
  have hacc : r.Accepts ↔ s.Accepts := by rw [State.Accepts, State.Accepts, hin, hw, hc]
  by_cases ha : s.Accepts
  · rw [startCompress_of_accepts ha] at hs'
    rw [startCompress_of_accepts (hacc.mpr ha), started_withUnread hin hw hc (hrh.trans hsh.symm)] at hr'
    cases hs'
    cases hr'
    exact ⟨_, (started_compressing ha hsh).moves_withUnread hu r.din r.cfgLength, rfl⟩
  · rw [startCompress_of_not_accepts ha] at hs'
    rw [startCompress_of_not_accepts (hacc.not.mpr ha), hw] at hr'
    cases hs'
    cases hr'
    obtain rfl := Host.Outcome.next.inj ((moves_of_halt k (by exact hsh) rfl).symm.trans hu)
    exact ⟨_, moves_of_halt k (by exact hrh) rfl, rfl⟩

/-- Settles O57: with no capacity bounded every step of the scan reads one character, and N of them lead to the one final step; with any
capacities the call may fail before. -/
theorem compressionTakesNPlusOneSteps : Obligations.CompressionTakesNPlusOneSteps := by
  constructor
  · intro s hs hl hunb hh hn
    have hacc : s.Accepts := ⟨hl, by rw [show s.caps = _ from hunb]; rfl⟩
    have hscan := started_scanning hl hh hn
    have hcaps : s.started.caps = Config.Caps.unbounded := by rw [started_of_text hn]; exact hunb
    obtain ⟨u, hu, hsu⟩ := hscan.moves_of_unbounded hcaps le_rfl
    refine ⟨s.started, by rw [exec_startCompress hs, startCompress_of_accepts hacc, outcome_ok], fun k hk => ?_, ?_,
      hscan.finishes hcaps hn⟩
    · obtain ⟨v, hv, hsv⟩ := hscan.moves_of_unbounded hcaps hk.le
      exact ⟨v, hv, hsv.running.status, hsv.phase.trans (if_pos hk)⟩
    · exact ⟨u, hu, hsu.running.status, hsu.phase.trans (if_neg (lt_irrefl _))⟩
  · intro s t hs hh ht
    rw [exec_startCompress hs] at ht
    by_cases hacc : s.Accepts
    · rw [startCompress_of_accepts hacc] at ht
      cases ht
      by_cases hn : s.inBuf = []
      · exact ⟨0, _, Nat.zero_le _, rfl, .inl (by rw [started_of_empty hn]; rfl)⟩
      · exact (started_scanning hacc.1 hh hn).ends hn
    · rw [startCompress_of_not_accepts hacc] at ht
      cases ht
      exact ⟨0, _, Nat.zero_le _, rfl, .inr rfl⟩

/-- Settles O14, by whether there is a character to read. -/
theorem startCompressBegins : Obligations.StartCompressBegins := by
  intro s hs hl ho
  rw [exec_startCompress hs, startCompress_of_accepts ⟨hl, ho⟩]
  refine ⟨_, rfl, ?_⟩
  by_cases hn : s.inBuf = []
  · rw [started_of_empty hn]
    exact ⟨rfl, rfl, rfl, rfl, rfl, rfl, rfl, rfl, rfl, rfl, rfl, rfl, rfl, absurd hn, fun _ => ⟨rfl, rfl⟩,
      rfl, rfl, rfl, rfl, rfl, rfl⟩
  · rw [started_of_text hn]
    exact ⟨rfl, rfl, rfl, rfl, rfl, rfl, rfl, rfl, rfl, rfl, rfl, rfl, rfl, fun _ => ⟨rfl, rfl⟩, fun h => absurd h hn,
      rfl, rfl, rfl, rfl, rfl, rfl⟩

/-- Settles O25: the character is known, and the candidate is a key. -/
theorem scanExtendsTheMatch : Obligations.ScanExtendsTheMatch := by
  intro s i n c w d ht hph hi hn hlt hc hw hd hk hext
  rw [step_eq_of_scan ht hph hi hn hlt hc, registerChar_of_key (s := s.taken.setIi (some (i + 1))) hd hk, Res.ok_bind,
    extendMatch_of_key (s := s.taken.setIi (some (i + 1))) hd hw hext, Res.ok_bind, outcome_ok, phase_after_char i n (by exact hph)]
  rfl

/-- Settles O26: after the registration, and in the state that has it, the step goes on alike. -/
theorem scanRegistersANewCharacter : Obligations.ScanRegistersANewCharacter := by
  intro s i n c d p sc ht hph hi hn hlt hc hd hp hs hk
  rw [step_eq_of_scan ht hph hi hn hlt hc]
  constructor
  · intro hroom
    have hnew := registerChar_of_room (s := s.taken.setIi (some (i + 1))) hs hd hp hk hroom
    refine Eq.trans ?_ (step_eq_of_scan (by exact ht) (by exact hph) (by exact hi) (by exact hn) hlt (by exact hc)).symm
    rw [hnew, registerChar_of_key (d := d.insert [c] sc.nextCode) rfl (by simp)]
    rfl
  · intro hfull
    rw [registerChar_of_full (s := s.taken.setIi (some (i + 1))) hs hd hk hfull]
    rfl

/-- Settles O27: the packer writes nothing but `DOUT` and the sink, so the insertion finds the dictionary and the schedule of the token. -/
theorem scanSendsTheMatch : Obligations.ScanSendsTheMatch := by
  intro s i n c w d p sc tok ht hph hi hn hlt hc hw hd hp hs hk hext htok
  rw [step_eq_of_scan ht hph hi hn hlt hc, registerChar_of_key (s := s.taken.setIi (some (i + 1))) hd hk, Res.ok_bind,
    extendMatch_of_not_key (s := s.taken.setIi (some (i + 1))) hs hd hp hw hext htok]
  constructor
  · intro u (hu : putBits _ (s.taken.setIi (some (i + 1))) = .ok u)
    have hframe := putBits_frame _ _ u hu
    have hdu : u.cdict = some d := by rw [hframe]; exact hd
    have hpu : u.phase = .pCScan := by rw [hframe]; exact hph
    have hcu : u.caps = s.caps := by rw [hframe]; rfl
    have hnext := Sched.ticks_nextCode (tokenEvents tok) sc
    rw [hu, Res.ok_bind, ← hcu, ← hnext]
    constructor
    · intro hroom
      rw [cInsert_of_room (s := u.tokenSent p sc w tok) _ rfl hdu hroom, Res.ok_bind, Res.ok_bind, outcome_ok,
        phase_after_char i n (by simpa [State.tokenSent] using hpu)]
      simp only [State.tokenSent, sentPending, Sched.bump, State.setPhase, State.setCW, State.setCdict, State.setSched,
        State.setPending]
    · intro hfull
      rw [cInsert_of_full (s := u.tokenSent p sc w tok) _ rfl hdu hfull]
      rfl
  · intro x (hx : putBits _ (s.taken.setIi (some (i + 1))) = .error (.raised x))
    rw [hx]
    exact ⟨rfl, putBits_raised _ _ x hx⟩

/-- Settles O28: the token, the end code and the pad, with room for their digits. -/
theorem finalStepEndsTheStream : Obligations.FinalStepEndsTheStream := by
  intro s u x w d p sc tok ht hph hw hd hp hs htok hu hx
  rw [step, advance_of_turn s ht, engineStep_final s.taken hph, cFinal_eq (s := s.taken) hs hd hp hw htok hu hx]
  rfl

end Sys2Proof.Machine

/-!
SUPPORT and PROOFS. The decompressor of 44_decompressor.md. Each token rule as an equation, where its capacities have room (O18, O21, O22,
O23), the two ends (O19, O20), the step in each phase (O6, O7), and a START as an equation (O15); then how many steps a decompression can
take (O58).
-/

namespace Sys2Proof.Machine

/-! ### A write with room for it -/

theorem charOut_of_room {s : State} (t : Str) (hr : overfull s.caps.out (s.cout.length + t.length) = false) :
    charOut t s = .ok (s.setCout (s.cout ++ t)) :=
  ((charOut_cases t s).resolve_left fun h => by simp [hr] at h).2

theorem dInsert_of_room {s : State} {sc : Sched} {d : DDict} (t : Str) (hs : s.sched = some sc) (hd : s.ddict = some d)
    (hr : full s.caps.dict sc.nextCode = false) :
    dInsert t s = .ok ((s.setDdict (some (d.put sc.nextCode (.str t)))).setSched (some sc.bump)) :=
  ((dInsert_cases t s hs hd).resolve_left fun h => by simp [hr] at h).2

theorem dInsertAt3_of_room {s : State} {d : DDict} (t : Str) (hd : s.ddict = some d) (hr : full s.caps.dict 3 = false) :
    dInsertAt3 t s = .ok (s.setDdict (some (d.put 3 (.str t)))) :=
  ((dInsertAt3_cases t s hd).resolve_left fun h => by simp [hr] at h).2

theorem headOf_of_head? {t : Str} {c : Char16} (h : t.head? = some c) : headOf t = .ok c := by
  obtain ⟨l, rfl⟩ := List.head?_eq_some_iff.mp h
  rfl

/-- The same width and count with another next code (R27 to R29). -/
def Sched.withNextCode (sc : Sched) (n : Nat) : Sched := { sc with nextCode := n }

/-- An event does not see the next code (R150). -/
theorem Sched.tick_withNextCode (sc : Sched) (n : Nat) : (sc.withNextCode n).tick = sc.tick.withNextCode n := by
  unfold Sched.tick Sched.grow
  rw [apply_ite (Sched.withNextCode · n)]
  rfl

theorem Sched.ticks_withNextCode (k : Nat) (sc : Sched) (n : Nat) :
    Sched.ticks k (sc.withNextCode n) = (Sched.ticks k sc).withNextCode n := by
  induction k generalizing sc with
  | zero => rfl
  | succ k ih => rw [Sched.ticks, Sched.tick_withNextCode, ih, Sched.ticks]

/-! ### The token rules -/

/-- What the first literal leaves (R202, R203). -/
def State.firstDecoded (s : State) (d : DDict) (v : Char16) : State :=
  { s with
    ddict := some (d.put 3 (.str [v])), dW := some [v], cout := s.cout ++ [v], sched := some Sched.decompressorSeed, phase := .pDLoop }

/-- What a later literal or reference leaves: a dictionary, a schedule, and its entry as output and as `D_W` (R214). -/
def State.decoded (s : State) (d : DDict) (sc : Sched) (entry : Str) : State :=
  { s with ddict := some d, sched := some sc, cout := s.cout ++ entry, dW := some entry }

/-- The first token as a literal (R202, R203). -/
theorem firstLiteral_of_room {s : State} {d : DDict} (v : Char16) (hd : s.ddict = some d) (hi : full s.caps.dict 3 = false)
    (ho : overfull s.caps.out (s.cout.length + 1) = false) : firstLiteral v s = .ok (s.firstDecoded d v) := by
  have hout := charOut_of_room (s := (s.setDdict (some (d.put 3 (.str [v])))).setDW (some [v])) [v] ho
  rw [firstLiteral, dInsertAt3_of_room [v] hd hi, Res.ok_bind, hout]
  rfl

section
variable {s : State} {sc : Sched} {d : DDict} {w : Str} (hs : s.sched = some sc) (hd : s.ddict = some d) (hw : s.dW = some w)
include hs hd hw

/-- The common end of a token (R214). -/
theorem common_of_room {e : Str} {c : Char16} (he : e.head? = some c) (hi : full s.caps.dict sc.nextCode = false)
    (ho : overfull s.caps.out (s.cout.length + e.length) = false) : common e s =
      .ok (s.decoded (d.put sc.nextCode (.str (w ++ [c]))) (sc.tick.withNextCode (sc.nextCode + 1)) e) := by
  have hbump : sc.bump.tick = sc.tick.withNextCode (sc.nextCode + 1) := Sched.tick_withNextCode sc _
  have hdw : (s.setCout (s.cout ++ e)).dW = some w := hw
  rw [common, charOut_of_room e ho, Res.ok_bind, hdw, need_some, Res.ok_bind, headOf_of_head? he, Res.ok_bind,
    dInsert_of_room (s := s.setCout (s.cout ++ e)) _ hs hd hi, Res.ok_bind, tick, onSched_some _ _ sc.bump rfl, Res.ok_bind,
    setSched_setSched, hbump]
  rfl

/-- A literal of the loop (R208, R209): the growth check after its own event is that of the event (R150). -/
theorem loopLiteral_of_room (v : Char16) (hi : full s.caps.dict sc.nextCode = false)
    (hi' : full s.caps.dict (sc.nextCode + 1) = false) (ho : overfull s.caps.out (s.cout.length + 1) = false) :
    loopLiteral v s =
      .ok (s.decoded ((d.put sc.nextCode (.str [v])).put (sc.nextCode + 1) (.str (w ++ [v])))
        ((Sched.ticks 2 sc).withNextCode (sc.nextCode + 2)) [v]) := by
  have hgrow : sc.bump.dec.grow = sc.tick.withNextCode (sc.nextCode + 1) := Sched.tick_withNextCode sc _
  have hcommon := common_of_room
    (s := (s.setDdict (some (d.put sc.nextCode (.str [v])))).setSched (some (sc.tick.withNextCode (sc.nextCode + 1))))
    rfl rfl hw (e := [v]) rfl hi' ho
  rw [loopLiteral, hs, need_some, Res.ok_bind, dInsert_of_room [v] hs hd hi, Res.ok_bind, dec, onSched_some _ _ sc.bump rfl,
    Res.ok_bind, setSched_setSched, grow, onSched_some _ _ sc.bump.dec rfl, Res.ok_bind, setSched_setSched, hgrow,
    entryAt_eq sc.nextCode _ (d := d.put sc.nextCode (.str [v])) (t := [v]) rfl (by simp), Res.ok_bind, hcommon,
    Sched.tick_withNextCode]
  rfl

/-- A reference to a known entry: `Grow` does nothing (R211, R215). -/
theorem loopRef_of_room {e : Str} {c : Char16} {code : Nat} (h1 : 1 ≤ sc.enlargeIn) (hc : d.get? code = some (.str e))
    (he : e.head? = some c) (hi : full s.caps.dict sc.nextCode = false)
    (ho : overfull s.caps.out (s.cout.length + e.length) = false) : loopRef code s =
      .ok (s.decoded (d.put sc.nextCode (.str (w ++ [c]))) (sc.tick.withNextCode (sc.nextCode + 1)) e) := by
  rw [loopRef, grow, onSched_some _ s sc hs, Sched.grow_of_pos sc h1, setSched_self s _ hs, Res.ok_bind, entryAt_eq code s hd hc,
    Res.ok_bind, common_of_room hs hd hw he hi ho]

/-- A reference to the entry being created (R212). -/
theorem loopRefNext_of_room {c : Char16} (h1 : 1 ≤ sc.enlargeIn) (hc : w.head? = some c)
    (hi : full s.caps.dict sc.nextCode = false) (ho : overfull s.caps.out (s.cout.length + w.length + 1) = false) :
    loopRefNext s =
      .ok (s.decoded (d.put sc.nextCode (.str (w ++ [c]))) (sc.tick.withNextCode (sc.nextCode + 1)) (w ++ [c])) := by
  have he : (w ++ [c]).head? = some c := by rw [List.head?_append, hc]; rfl
  have ho' : overfull s.caps.out (s.cout.length + (w ++ [c]).length) = false := by
    rwa [List.length_append, List.length_singleton, ← Nat.add_assoc]
  rw [loopRefNext, grow, onSched_some _ s sc hs, Sched.grow_of_pos sc h1, setSched_self s _ hs, Res.ok_bind, hw, need_some,
    Res.ok_bind, headOf_of_head? hc, Res.ok_bind, common_of_room hs hd hw he hi ho']

end

/-- A literal of either width runs the rule of its value: the first token (R202, R203). -/
theorem exec_firstLiteral {i : Instr} {v : Char16} (h : (∃ p : BitVec 8, i = .fLit8 p ∧ v = p.setWidth 16) ∨ i = .fLit16 v)
    (s : State) : exec i s = (firstLiteral v s).outcome := by
  rcases h with ⟨p, rfl, rfl⟩ | rfl <;> rfl

/-- And a later one (R208, R209). -/
theorem exec_loopLiteral {i : Instr} {v : Char16} (h : (∃ p : BitVec 8, i = .lit8 p ∧ v = p.setWidth 16) ∨ i = .lit16 v)
    (s : State) : exec i s = (loopLiteral v s).outcome := by
  rcases h with ⟨p, rfl, rfl⟩ | rfl <;> rfl

/-! ### A START -/

/-- The configuration check lets the decompression begin (R243). -/
def State.AcceptsDigits (s : State) : Prop := legalWidth s.cfgDigitW ∧ overfull s.caps.lenMax s.cfgLength = false

/-- The working state of a decompression whose check has passed (R200, R242). -/
def State.unseeded (s : State) : State :=
  srcInit (((beginCall .decompress s).setDigitW (some s.cfgDigitW)).setLength (some s.cfgLength)).initDecompress

/-- An accepted START ends the call of no digits, and waits for the first token of any others (R200). -/
def State.opened (s : State) : State :=
  if s.cfgLength = 0 then s.unseeded.finish else (s.unseeded.setDdict (some DDict.seed)).setPhase .pDFirst

theorem opened_of_no_digits {s : State} (h : s.cfgLength = 0) : s.opened = s.unseeded.finish := if_pos h

theorem opened_of_digits {s : State} (h : s.cfgLength ≠ 0) :
    s.opened = (s.unseeded.setDdict (some DDict.seed)).setPhase .pDFirst := if_neg h

theorem exec_startDecompress {s : State} (h : s.status ≠ .busy) : exec .startDecompress s = (startDecompress s).outcome := if_neg h

theorem startDecompress_of_accepts {s : State} (h : s.AcceptsDigits) : startDecompress s = .ok s.opened := by
  obtain ⟨hl, ho⟩ := h
  have hcheck : configCheck s.cfgDigitW s.cfgLength (beginCall .decompress s) = .ok (beginCall .decompress s) := by
    rcases configCheck_cases s.cfgDigitW s.cfgLength (beginCall .decompress s) with ⟨hl', _⟩ | ⟨_, ho', _⟩ | ⟨_, _, h⟩
    · exact absurd hl hl'
    · exact absurd (ho.symm.trans ho') Bool.false_ne_true
    · exact h
  rw [startDecompress, hcheck, Res.ok_bind, dInit, State.setLength_length, need_some, Res.ok_bind]
  show (if s.cfgLength = 0 then _ else _) = _
  by_cases hn : s.cfgLength = 0
  · rw [opened_of_no_digits hn, if_pos hn]
    rfl
  · rw [opened_of_digits hn, if_neg hn]
    rfl

/-- A START that the check refuses is over at once (R243, R276). -/
theorem startDecompress_of_not_accepts {s : State} (h : ¬ s.AcceptsDigits) :
    ∃ c i, startDecompress s = .error (.raised ((beginCall .decompress s).enterFault c i)) := by
  unfold startDecompress
  rcases configCheck_cases s.cfgDigitW s.cfgLength (beginCall .decompress s) with ⟨_, hc⟩ | ⟨_, _, hc⟩ | ⟨hl, ho, _⟩
  · exact ⟨_, _, by rw [hc]; rfl⟩
  · exact ⟨_, _, by rw [hc]; rfl⟩
  · exact absurd ⟨hl, ho⟩ h

/-! ### The steps of a decompression -/

section
variable {s t : State} {dw : BitVec 5} {len pos : Nat} {din : List Nat}

/-- A token is at least as long as the field that classifies it (R84). -/
theorem headWidth_le_tokenAt (f : Format) (w len : Nat) (din : List Nat) (pos : Nat) :
    headWidth f ≤ (tokenAt f w len din pos).2 :=
  Nat.le_add_right _ _

/-- Before the first token `SRC_POS` is 0 (R200). -/
theorem State.Decoding.phase_eq_loop (h : s.Decoding dw len din) (hb : s.status = .busy) (hp : s.srcPos = some pos)
    (h0 : 0 < pos) : s.phase = .pDLoop := by
  obtain ⟨_, hr⟩ := h.reading hb
  rcases hr.phase with ⟨hph, _⟩ | ⟨hph, _⟩
  · obtain ⟨_, _, hf⟩ := (phaseOk_first hph).mp h.inv.work
    obtain rfl : pos = 0 := Option.some.inj (hp.symm.trans hf.srcPos)
    exact absurd h0 (lt_irrefl 0)
  · exact hph

/-- A running decompression at a loop head, its next token at bit `pos`. -/
structure State.Looping (s : State) (dw : BitVec 5) (len : Nat) (din : List Nat) (pos : Nat) : Prop where
  decoding : s.Decoding dw len din
  status : s.status = .busy
  phase : s.phase = .pDLoop
  srcPos : s.srcPos = some pos

theorem State.Reading.two_le_headWidth (h : s.Reading dw len pos) (hi : s.Inv) : 2 ≤ headWidth s.tokenFormat := by
  rcases h.phase with ⟨_, hs, _⟩ | ⟨hp, sc, hs⟩
  · rw [State.tokenFormat, hs]
    exact le_rfl
  · obtain ⟨_, _, _, sc', _, _, hl⟩ := (phaseOk_loop hp).mp hi.work
    rw [State.tokenFormat, hl.sched]
    exact Nat.le_of_succ_le hl.numBits

/-- A step of a running decompression ends it, or reads a token and leaves a loop head behind it. -/
theorem State.Decoding.step_advances (h : s.Decoding dw len din) (hb : s.status = .busy) (hp : s.srcPos = some pos) :
    ∃ t, step s = .next t ∧ (t.ended ∨
      ∃ stop, t.Looping dw len din stop ∧ pos < len * dw.toNat ∧ pos + headWidth s.tokenFormat ≤ stop) := by
  obtain ⟨t, he, hc⟩ := engineStep_answers h.inv hb
  have hst : step s = .next t := (step_of_no_host h.host).trans he
  have hd := h.after_step hst
  refine ⟨t, hst, ?_⟩
  obtain ⟨pos', hr⟩ := h.reading hb
  obtain rfl : pos' = pos := Option.some.inj (hr.srcPos.symm.trans hp)
  cases hts : t.status with
  | idle => exact absurd hts hc.inCall.begun
  | doneOk => exact .inl (.inl hts)
  | doneFail => exact .inl (.inr hts)
  | busy =>
    rcases hr.cases he with ⟨_, rfl⟩ | ⟨token, hx, htok, hsrc, _⟩
    · cases hts
    have hstop : t.srcPos = some (pos' + token.2) := congrArg BitSource.srcPos hsrc
    have hwidth : headWidth s.tokenFormat ≤ token.2 := htok ▸ headWidth_le_tokenAt _ _ _ _ _
    have htwo := hr.two_le_headWidth h.inv
    exact .inr ⟨_, ⟨hd, hts, hd.phase_eq_loop hts hstop (by omega), hstop⟩, by omega, by omega⟩

/-- At a loop head with budget left a step reads 3 bits or more, or ends the call (R216). -/
theorem State.Looping.step_advances (h : s.Looping dw len din pos) :
    ∃ t, step s = .next t ∧ (t.ended ∨ ∃ stop, t.Looping dw len din stop ∧ pos < len * dw.toNat ∧ pos + 3 ≤ stop) := by
  obtain ⟨_, _, _, sc, _, _, hl⟩ := (phaseOk_loop h.phase).mp h.decoding.inv.work
  have hthree : 3 ≤ headWidth s.tokenFormat := by
    rw [State.tokenFormat, hl.sched]
    exact hl.numBits
  obtain ⟨t, ht, hend⟩ := h.decoding.step_advances h.status h.srcPos
  exact ⟨t, ht, hend.imp_right fun ⟨stop, hlt, hpos, hstop⟩ => ⟨stop, hlt, hpos, by omega⟩⟩

/-- A loop head with at most 3n bits of budget left is at most n + 1 steps from the end (R216). -/
theorem State.Looping.ends {n : Nat} (h : s.Looping dw len din pos) (hn : len * dw.toNat ≤ pos + 3 * n) :
    ∃ k u, k ≤ n + 1 ∧ moves k s = .next u ∧ u.ended := by
  induction n generalizing s pos with
  | zero =>
    obtain ⟨t, ht, hend | ⟨stop, _, hpos, _⟩⟩ := h.step_advances
    · exact ⟨1, t, le_rfl, moves_succ_iff.mpr ⟨t, ht, rfl⟩, hend⟩
    · omega
  | succ n ih =>
    obtain ⟨t, ht, hend | ⟨stop, hl, _, hstop⟩⟩ := h.step_advances
    · exact ⟨1, t, Nat.le_add_left _ _, moves_succ_iff.mpr ⟨t, ht, rfl⟩, hend⟩
    · obtain ⟨k, u, hk, hu, hend⟩ := ih hl (by omega)
      exact ⟨k + 1, u, Nat.succ_le_succ hk, moves_succ_iff.mpr ⟨t, ht, hu⟩, hend⟩

end

/-- An accepted START with a digit to read begins a decompression before its first token. -/
theorem opened_decoding {s : State} (ha : s.AcceptsDigits) (hh : s.host = []) (hn : s.cfgLength ≠ 0) :
    s.opened.Decoding s.cfgDigitW s.cfgLength s.din := by
  have hinv := ((startDecompress_sat s).of_ok (startDecompress_of_accepts ha)).inv
  rw [opened_of_digits hn] at hinv ⊢
  exact ⟨hinv, hh, rfl, rfl, rfl, rfl⟩

/-! ### The statements -/

/-- Settles O58: after the step of the first token, n loop steps read 3n bits or more, so that ⌈`LENGTH` × `DIGIT_W` / 3⌉ of them use up
the budget, and one more step ends the call. -/
theorem decompressionEnds : Obligations.DecompressionEnds := by
  intro s t hs hh ht
  rw [exec_startDecompress hs] at ht
  by_cases ha : s.AcceptsDigits
  · rw [startDecompress_of_accepts ha] at ht
    cases ht
    by_cases hn : s.cfgLength = 0
    · exact ⟨0, _, Nat.zero_le _, rfl, .inl (by rw [opened_of_no_digits hn]; rfl)⟩
    · have hd := opened_decoding ha hh hn
      obtain ⟨t, ht, hend | ⟨stop, hl, -⟩⟩ :=
        hd.step_advances (pos := 0) (by rw [opened_of_digits hn]; rfl) (by rw [opened_of_digits hn]; rfl)
      · exact ⟨1, t, Nat.le_add_left _ _, moves_succ_iff.mpr ⟨t, ht, rfl⟩, hend⟩
      · obtain ⟨k, u, hk, hu, hend⟩ := hl.ends (n := (s.cfgLength * s.cfgDigitW.toNat + 2) / 3) (by omega)
        exact ⟨k + 1, u, Nat.succ_le_succ hk, moves_succ_iff.mpr ⟨t, ht, hu⟩, hend⟩
  · obtain ⟨c, i, hr⟩ := startDecompress_of_not_accepts ha
    rw [hr] at ht
    cases ht
    exact ⟨0, _, Nat.zero_le _, rfl, .inr rfl⟩

/-- Settles O15, by whether there is a digit to read. -/
theorem startDecompressBegins : Obligations.StartDecompressBegins := by
  intro s hs hl ho
  rw [exec_startDecompress hs, startDecompress_of_accepts ⟨hl, ho⟩]
  refine ⟨_, rfl, ?_⟩
  by_cases hn : s.cfgLength = 0
  · rw [opened_of_no_digits hn]
    exact ⟨rfl, rfl, rfl, rfl, rfl, rfl, rfl, rfl, rfl, rfl, fun h => absurd hn h.ne', fun _ => ⟨rfl, rfl⟩,
      rfl, rfl, rfl, rfl, rfl, rfl⟩
  · rw [opened_of_digits hn]
    exact ⟨rfl, rfl, rfl, rfl, rfl, rfl, rfl, rfl, rfl, rfl, fun _ => ⟨rfl, rfl, rfl⟩, fun h => absurd h hn,
      rfl, rfl, rfl, rfl, rfl, rfl⟩

/-- Settles O21: the insertion, its event and the growth check, then the common end, each with room. -/
theorem loopLiterals : Obligations.LoopLiterals := by
  intro s sc d w i v hi hs hd hw hroom hroom' hout
  rw [exec_loopLiteral hi, loopLiteral_of_room hs hd hw v hroom hroom' hout]
  rfl

/-- Settles O22: `Grow` does nothing, the entry is there, and the common end has room. -/
theorem references : Obligations.References := by
  intro s sc d w e c code hs h1 hd hw hc he hroom hout
  show (loopRef code s).outcome = _
  rw [loopRef_of_room hs hd hw h1 hc he hroom hout]
  rfl

/-- Settles O23: the entry is `D_W` and its first character, whose first character is that one again. -/
theorem referencesToTheNextEntry : Obligations.ReferencesToTheNextEntry := by
  intro s sc d w c hs h1 hd hw hc hroom hout
  show (loopRefNext s).outcome = _
  rw [loopRefNext_of_room hs hd hw h1 hc hroom hout]
  rfl

/-- Settles O6: the fetch gives the token at `SRC_POS`, and its meaning runs where its bits end. -/
theorem stepRunsFirstToken : Obligations.StepRunsFirstToken := by
  intro s dw len pos ht hph hw hl hp
  rw [step, advance_of_turn s ht, engineStep_first s.taken hph, runToken_eq .first s.taken hp hw hl]
  rfl

/-- Settles O7: the turn at a loop head by whether the budget is used up. -/
theorem stepRunsLoopToken : Obligations.StepRunsLoopToken := by
  intro s dw len pos sc ht hph hw hl hp hs
  have hr : s.taken.Reading dw len pos := ⟨hw, hl, hp, .inr ⟨hph, sc, hs⟩⟩
  have hf : s.taken.tokenFormat = .loop sc.numBits sc.nextCode := by
    have hst : s.taken.sched = some sc := hs
    rw [State.tokenFormat, hst]
  rw [step, advance_of_turn s ht, hr.engineStep_eq, hf]
  exact ⟨fun hx => if_pos hx, fun hx => if_neg (not_le.mpr hx)⟩

/-- Settles O18, by the first token's rule with room for its entry and its output. -/
theorem firstLiterals : Obligations.FirstLiterals := by
  intro s d i v hi hd hroom hout
  rw [exec_firstLiteral hi, firstLiteral_of_room v hd hroom hout]
  rfl

/-- Settles O19: both rows are `Finish`. -/
theorem endTokensFinish : Obligations.EndTokensFinish :=
  fun _ => ⟨rfl, rfl⟩

/-- Settles O20: both rows are a fault entry and nothing else. -/
theorem illegalTokensFault : Obligations.IllegalTokensFault :=
  fun _ _ => ⟨rfl, rfl⟩

end Sys2Proof.Machine

/-!
SUPPORT and PROOFS. The round trip (O59, R217). The packer as the digits its bits will fill (`Holding`); the decompressor's dictionary as
the table of a compressor's (`CDict.table`), and what a stream's bits make a decompressor know, whatever bits follow (`Decodable`); then
the compression, between any two steps of which every token the current match can lead to is decodable (`Expects`).
-/

namespace Sys2Proof.Machine

/-! ### The packer's digits -/

/-- The digits output and the accumulator stand for the bits put so far: whatever bits follow, the digits of them all are the ones output
and then those of the bits still held (R115). -/
def Holding (w : Nat) (bits : List Bool) (k : Sink) (dout : List Nat) : Prop :=
  ∃ held : List Bool, k = ⟨msbValue 0 held, held.length⟩ ∧ held.length < w ∧
    ∀ more, digitsOf w (bits ++ more) = dout ++ digitsOf w (held ++ more)

theorem Holding.nil {w : Nat} (h1 : 1 ≤ w) : Holding w [] ⟨0, 0⟩ [] := ⟨[], rfl, h1, fun _ => rfl⟩

/-- With no bound on `DOUT` bits go into the packer and nothing else changes (R111). -/
theorem Holding.putBits {bits : List Bool} {s : State} {dw : BitVec 5} {k : Sink} (bs : List Bool)
    (h : Holding dw.toNat bits k s.dout) (hw : s.digitW = some dw) (hk : s.sink = some k) (ho : s.caps.out = none) :
    ∃ k' dout, Machine.putBits bs s = .ok ((s.setDout dout).setSink (some k')) ∧ Holding dw.toNat (bits ++ bs) k' dout := by
  induction bs generalizing s bits k with
  | nil => exact ⟨k, s.dout, by rw [setDout_self s _ rfl, setSink_self s _ hk]; rfl, by rwa [List.append_nil]⟩
  | cons b bs ih =>
    obtain ⟨held, rfl, hlt, hdig⟩ := h
    by_cases hc : held.length = dw.toNat - 1
    · have hput := putBit_of_room hw hk b hc (by rw [ho]; rfl)
      have hfull : (held ++ [b]).length = dw.toNat := by rw [List.length_append, List.length_singleton]; omega
      have hnext : Holding dw.toNat (bits ++ [b]) ⟨0, 0⟩ (s.dout ++ [2 * msbValue 0 held + b.toNat]) :=
        ⟨[], rfl, by simp only [List.length_nil]; omega, fun more => by
          rw [List.append_assoc, hdig, ← List.append_assoc held, digitsOf_append more (by omega) hfull, msbValue_append]
          simp [msbValue]⟩
      obtain ⟨k', dout, hbs, hh⟩ :=
        ih (s := (s.setDout (s.dout ++ [2 * msbValue 0 held + b.toNat])).setSink (some ⟨0, 0⟩)) hnext hw rfl ho
      exact ⟨k', dout, by rw [Machine.putBits, hput, Res.ok_bind, hbs]; rfl, by rwa [List.append_assoc] at hh⟩
    · have hput := putBit_of_cnt_ne hw hk b hc
      have hnext : Holding dw.toNat (bits ++ [b]) ⟨2 * msbValue 0 held + b.toNat, held.length + 1⟩ s.dout :=
        ⟨held ++ [b], by rw [msbValue_append, List.length_append]; rfl,
          by rw [List.length_append, List.length_singleton]; omega, fun more => by
          rw [List.append_assoc, hdig, List.append_assoc]⟩
      obtain ⟨k', dout, hbs, hh⟩ :=
        ih (s := s.setSink (some ⟨2 * msbValue 0 held + b.toNat, held.length + 1⟩)) hnext hw rfl ho
      exact ⟨k', dout, by rw [Machine.putBits, hput, Res.ok_bind, hbs]; rfl, by rwa [List.append_assoc] at hh⟩

/-- The pad completes the digits of the bits (R113). -/
theorem Holding.flush {bits : List Bool} {s : State} {dw : BitVec 5} {k : Sink} (h : Holding dw.toNat bits k s.dout)
    (hw : s.digitW = some dw) (hk : s.sink = some k) (ho : s.caps.out = none) :
    Machine.flush s = .ok ((s.setDout (digitsOf dw.toNat bits)).setSink (some ⟨0, 0⟩)) := by
  obtain ⟨held, rfl, hlt, hdig⟩ := h
  have hall := hdig []
  rw [List.append_nil, List.append_nil, digitsOf_of_length_lt hlt] at hall
  rw [flush_of_room hw hk (by rw [ho]; rfl), hall]

/-! ### The table of a dictionary -/

/-- The decompressor's dictionary when it holds the keys of `d` under their codes (R217). -/
def CDict.table (d : CDict) : DDict := DDict.seed ++ d.map fun e => (e.2, .str e.1)

theorem CDict.codes_of_wf {d : CDict} (h : d.wf = true) : d.map (·.2) = List.range' 3 d.length := by
  simp only [CDict.wf, Bool.and_eq_true, decide_eq_true_eq] at h
  exact h.2

theorem CDict.table_codes {d : CDict} (h : d.wf = true) : d.table.map (·.1) = List.range (d.length + 3) := by
  have hd : (d.map fun e : Str × Nat => ((e.2, .str e.1) : Nat × DEntry)).map (·.1) = List.range' 3 d.length := by
    rw [List.map_map, ← CDict.codes_of_wf h]
    rfl
  rw [CDict.table, List.map_append, hd, List.range_eq_range', Nat.add_comm, ← List.range'_append_1]
  rfl

/-- Inserting under the next code is the same in both dictionaries (R184, R219). -/
theorem CDict.table_insert {d : CDict} (h : d.wf = true) (t : Str) :
    d.table.put (d.length + 3) (.str t) = (d.insert t (d.length + 3)).table := by
  rw [DDict.put_append _ _ _ (by rw [CDict.table_codes h]; simp)]
  simp [CDict.table, CDict.insert]

theorem DDict.get?_of_mem {d : DDict} {k : Nat} {e : DEntry} (h : (d.map (·.1)).Nodup) (hm : (k, e) ∈ d) :
    d.get? k = some e := by
  induction d with
  | nil => cases hm
  | cons x d ih =>
    obtain ⟨j, y⟩ := x
    rw [List.map_cons, List.nodup_cons] at h
    rcases List.mem_cons.mp hm with heq | hm
    · obtain ⟨rfl, rfl⟩ := Prod.mk.inj heq
      exact if_pos rfl
    · have hne : j ≠ k := by
        rintro rfl
        exact h.1 (List.mem_map.mpr ⟨_, hm, rfl⟩)
      exact (if_neg hne).trans (ih h.2 hm)

/-- The table has each key at its code. -/
theorem CDict.get?_table {d : CDict} {t : Str} {c : Nat} (h : d.wf = true) (hc : d.get? t = some c) :
    d.table.get? c = some (.str t) := by
  refine DDict.get?_of_mem (by rw [CDict.table_codes h]; exact List.nodup_range) ?_
  exact List.mem_append_right _ (List.mem_map.mpr ⟨_, CDict.get?_mem d t c hc, rfl⟩)

/-! ### The tokens of a stream of known bits -/

/-- A decompression with no capacity bounded and no move of the host to come, whose stream is `bits` and then zeros within its budget. -/
structure State.Streams (s : State) (dw : BitVec 5) (len : Nat) (bits : List Bool) : Prop where
  host : s.host = []
  caps : s.caps = Config.Caps.unbounded
  digitW : s.digitW = some dw
  length : s.length = some len
  budget : bits.length < len * dw.toNat
  stream : ∀ n, streamBit dw.toNat len s.din n = bits.getD n false

section
variable {s : State} {dw : BitVec 5} {len : Nat} {bits : List Bool}

theorem State.Streams.streamBits_eq (h : s.Streams dw len bits) (pos n : Nat) :
    streamBits dw.toNat len s.din pos n = takeBits n (bits.drop pos) := by
  refine List.ext_getElem (by simp) fun i hi _ => ?_
  rw [getElem_takeBits]
  simp [streamBits, h.stream, List.getD_eq_getElem?_getD]

/-- The token that begins at a position of the stream is the one whose bits stand there (R84). -/
theorem State.Streams.tokenAt_eq {f : Format} {tok : Instr} {rest : List Bool} {pos : Nat} (h : s.Streams dw len bits)
    (hwf : tok.wf f = true) (hbits : bits.drop pos = encode f tok ++ rest) :
    tokenAt f dw.toNat len s.din pos = (tok, (encode f tok).length) := by
  have hlen : (encode f tok).length ≤ headWidth f + 16 := by simp [encode]
  refine decode_of_takeBits_eq_encode hwf ?_
  rw [takeBits_streamBits _ _ _ _ _ _ hlen, h.streamBits_eq, hbits, takeBits_append]

/-- A step at a position of the stream executes the token whose bits stand there (R201, R206). -/
theorem State.Streams.step_eq {before rest : List Bool} {tok : Instr} (f : Format)
    (h : s.Streams dw len (before ++ (encode f tok ++ rest))) (hr : s.Reading dw len before.length) (hf : s.tokenFormat = f)
    (hwf : tok.wf f = true) : step s = exec tok (s.setSrcPos (some (before ++ encode f tok).length)) := by
  have hlt := h.budget
  rw [List.length_append] at hlt
  rw [step_of_no_host h.host, hr.engineStep_eq, if_neg (by omega), hf, h.tokenAt_eq hwf (List.drop_left' rfl), List.length_append]

end

/-! ### What a decompressor knows -/

/-- At a loop head, the dictionary of the keys of `d`, the match w as `D_W`, a compressor's width and count, and the text so far (R157,
R217). -/
structure State.CaughtUp (s : State) (pos : Nat) (d : CDict) (w : Str) (sc : Sched) (out : Str) : Prop where
  phase : s.phase = .pDLoop
  srcPos : s.srcPos = some pos
  sched : s.sched = some (sc.withNextCode (d.length + 3))
  dW : s.dW = some w
  ddict : s.ddict = some d.table
  cout : s.cout = out

/-- A decompression of such a stream before its first token (R200). -/
structure State.AtFirst (s : State) (dw : BitVec 5) (len : Nat) (bits : List Bool) : Prop where
  streams : s.Streams dw len bits
  phase : s.phase = .pDFirst
  sched : s.sched = none
  srcPos : s.srcPos = some 0
  ddict : s.ddict = some DDict.seed
  cout : s.cout = []

/-- From the bits a decompressor gets to know the dictionary, the match, the schedule and the text, whatever bits follow them. -/
def Decodable (dw : BitVec 5) (bits : List Bool) (d : CDict) (w : Str) (sc : Sched) (out : Str) : Prop :=
  ∀ (s : State) (len : Nat) (rest : List Bool), s.AtFirst dw len (bits ++ rest) →
    ∃ k u, moves k s = .next u ∧ u.Streams dw len (bits ++ rest) ∧ u.CaughtUp bits.length d w sc out

/-- The next code of the schedule is the dictionary's. -/
theorem Decodable.of_withNextCode {dw : BitVec 5} {bits : List Bool} {d : CDict} {w out : Str} {sc : Sched} (n : Nat)
    (h : Decodable dw bits d w sc out) : Decodable dw bits d w (sc.withNextCode n) out := by
  intro s len rest hs
  obtain ⟨k, u, hk, hst, hu⟩ := h s len rest hs
  exact ⟨k, u, hk, hst, { hu with }⟩

theorem State.CaughtUp.reading {s : State} {dw : BitVec 5} {len pos : Nat} {bits : List Bool} {d : CDict} {w out : Str} {sc : Sched}
    (h : s.CaughtUp pos d w sc out) (hs : s.Streams dw len bits) : s.Reading dw len pos :=
  ⟨hs.digitW, hs.length, h.srcPos, .inr ⟨h.phase, _, h.sched⟩⟩

theorem State.CaughtUp.tokenFormat_eq {s : State} {pos : Nat} {d : CDict} {w out : Str} {sc : Sched}
    (h : s.CaughtUp pos d w sc out) : s.tokenFormat = .loop sc.numBits (d.length + 3) := by
  rw [State.tokenFormat, h.sched]
  rfl

theorem State.CaughtUp.moveTo {s : State} {pos : Nat} {d : CDict} {w out : Str} {sc : Sched} (h : s.CaughtUp pos d w sc out)
    (p : Nat) : (s.setSrcPos (some p)).CaughtUp p d w sc out := { h with srcPos := rfl }

/-- A capacity that is not bounded has room. -/
theorem full_of_unbounded {s : State} (h : s.caps = Config.Caps.unbounded) (n : Nat) : full s.caps.dict n = false := by
  rw [h]
  rfl

theorem overfull_of_unbounded {s : State} (h : s.caps = Config.Caps.unbounded) (n : Nat) : overfull s.caps.out n = false := by
  rw [h]
  rfl

section
variable {dw : BitVec 5} {bits : List Bool} {d : CDict} {v out : Str} {sc : Sched}

/-- One more token, whose rule makes the decompressor know more. -/
theorem Decodable.token {tok : Instr} {d' : CDict} {entry : Str} {sc' : Sched} (h : Decodable dw bits d v sc out)
    (hwf : tok.wf (.loop sc.numBits (d.length + 3)) = true)
    (hx : ∀ u pos, u.CaughtUp pos d v sc out → u.caps = Config.Caps.unbounded →
      exec tok u = .next (u.decoded d'.table (sc'.withNextCode (d'.length + 3)) entry)) :
    Decodable dw (bits ++ encode (.loop sc.numBits (d.length + 3)) tok) d' entry sc' (out ++ entry) := by
  intro s len rest hs
  rw [List.append_assoc] at hs ⊢
  obtain ⟨k, u, hk, hst, hu⟩ := h s len _ hs
  have hstep := hst.step_eq _ (hu.reading hst) hu.tokenFormat_eq hwf
  rw [hx _ _ (hu.moveTo _) hst.caps] at hstep
  exact ⟨k + 1, _, moves_succ_iff_last.mpr ⟨u, hk, hstep⟩, { hst with }, hu.phase, rfl, rfl, rfl, rfl,
    congrArg (· ++ entry) hu.cout⟩

/-- The literal of a character (R86). -/
def literalToken (v : Char16) : Instr := if v.toNat < 128 then .lit8 (v.setWidth 8) else .lit16 v

theorem literalToken_cases (v : Char16) :
    (v.toNat < 128 ∧ literalToken v = .lit8 (v.setWidth 8) ∧ v = (v.setWidth 8).setWidth 16) ∨
      (¬ v.toNat < 128 ∧ literalToken v = .lit16 v) := by
  by_cases hv : v.toNat < 128
  · refine .inl ⟨hv, if_pos hv, BitVec.eq_of_toNat_eq ?_⟩
    rw [BitVec.toNat_setWidth, BitVec.toNat_setWidth]
    omega
  · exact .inr ⟨hv, if_neg hv⟩

theorem exec_literalToken (v : Char16) (s : State) : exec (literalToken v) s = (loopLiteral v s).outcome := by
  refine exec_loopLiteral ?_ s
  rcases literalToken_cases v with ⟨_, h, hv⟩ | ⟨_, h⟩
  · exact .inl ⟨_, h, hv⟩
  · exact .inr h

theorem literalToken_wf (v : Char16) {m : Nat} (n : Nat) (h : 1 < 2 ^ m) : (literalToken v).wf (.loop m n) = true := by
  rcases literalToken_cases v with ⟨_, hl, _⟩ | ⟨_, hl⟩ <;> rw [hl]
  · rfl
  · exact decide_eq_true h

/-- A literal under the compressor's first width is a first token with the same bits (R81, R153). -/
theorem exists_firstToken (v : Char16) (n : Nat) : ∃ tok, tok.wf .first = true ∧
    encode .first tok = encode (.loop 2 n) (literalToken v) ∧ ∀ s, exec tok s = (firstLiteral v s).outcome := by
  rcases literalToken_cases v with ⟨_, hl, hv⟩ | ⟨_, hl⟩ <;> rw [hl]
  · exact ⟨.fLit8 (v.setWidth 8), rfl, rfl, exec_firstLiteral (.inl ⟨_, rfl, hv⟩)⟩
  · exact ⟨.fLit16 v, rfl, rfl, exec_firstLiteral (.inr rfl)⟩

/-- The first token (R202, R203). -/
theorem decodable_first (dw : BitVec 5) (c : Char16) (n : Nat) :
    Decodable dw (encode (.loop 2 n) (literalToken c)) (CDict.insert [] [c] 3) [c] Sched.decompressorSeed [c] := by
  intro s len rest hs
  obtain ⟨tok, hwf, henc, hx⟩ := exists_firstToken c n
  rw [← henc] at hs ⊢
  obtain ⟨hst, hph, hsch, hpos, hdd, hout⟩ := hs
  have hb : 0 < len * dw.toNat := Nat.zero_lt_of_lt hst.budget
  have hstep := State.Streams.step_eq (before := []) .first hst ⟨hst.digitW, hst.length, hpos, .inl ⟨hph, hsch, hb⟩⟩
    (by rw [State.tokenFormat, hsch]) hwf
  rw [hx, firstLiteral_of_room (s := s.setSrcPos (some _)) c hdd (full_of_unbounded hst.caps 3) (overfull_of_unbounded hst.caps _)] at hstep
  exact ⟨1, _, moves_succ_iff.mpr ⟨_, hstep, rfl⟩, { hst with }, rfl, rfl, rfl, rfl, rfl, congrArg (· ++ [c]) hout⟩

/-- A literal of the loop: its character and then the candidate become known (R208, R209). -/
theorem Decodable.literal {c : Char16} (h : Decodable dw bits d v sc out) (hd : d.wf = true) (hc : d.isKey [c] = false)
    (hm : 1 < 2 ^ sc.numBits) :
    Decodable dw (bits ++ encode (.loop sc.numBits (d.length + 3)) (literalToken c))
      ((d.insert [c] (d.length + 3)).insert (v ++ [c]) (d.length + 4)) [c] (Sched.ticks 2 sc) (out ++ [c]) := by
  have hput : (d.table.put (d.length + 3) (.str [c])).put (d.length + 4) (.str (v ++ [c])) =
      ((d.insert [c] (d.length + 3)).insert (v ++ [c]) (d.length + 4)).table := by
    have hnext := CDict.table_insert (CDict.insert_wf d [c] hd hc) (v ++ [c])
    rw [CDict.insert_length] at hnext
    rw [CDict.table_insert hd]
    exact hnext
  refine h.token (literalToken_wf c _ hm) fun u pos hu hcap => ?_
  have hroom := full_of_unbounded hcap
  rw [exec_literalToken, loopLiteral_of_room hu.sched hu.ddict hu.dW c (hroom _) (hroom _) (overfull_of_unbounded hcap _),
    Sched.ticks_withNextCode, CDict.insert_length, CDict.insert_length, ← hput]
  rfl

/-- A reference to a known key: the candidate becomes known (R211). -/
theorem Decodable.ref {c : Char16} {w : Str} {code : Nat} (h : Decodable dw bits d v sc out) (hd : d.wf = true)
    (h1 : 1 ≤ sc.enlargeIn) (hw : w.head? = some c) (hcode : d.get? w = some code) (hm : code < 2 ^ sc.numBits) :
    Decodable dw (bits ++ bitsOf Config.codeOrder sc.numBits code) (d.insert (v ++ [c]) (d.length + 3)) w sc.tick (out ++ w) := by
  obtain ⟨h3, hlt⟩ := CDict.get?_bounds d w code hd hcode
  rw [← encode_ref sc.numBits (d.length + 3) code]
  refine h.token (decide_eq_true ⟨h3, hlt, hm⟩) fun u pos hu hcap => ?_
  show (loopRef code u).outcome = _
  rw [loopRef_of_room hu.sched hu.ddict hu.dW h1 (CDict.get?_table hd hcode) hw (full_of_unbounded hcap _)
    (overfull_of_unbounded hcap _), Sched.tick_withNextCode, CDict.insert_length, ← CDict.table_insert hd]
  rfl

/-- A reference to the candidate itself, which it makes known (R212). -/
theorem Decodable.refNext {c : Char16} (h : Decodable dw bits d v sc out) (hd : d.wf = true) (h1 : 1 ≤ sc.enlargeIn)
    (hv : v.head? = some c) (hm : d.length + 3 < 2 ^ sc.numBits) :
    Decodable dw (bits ++ bitsOf Config.codeOrder sc.numBits (d.length + 3)) (d.insert (v ++ [c]) (d.length + 3)) (v ++ [c])
      sc.tick (out ++ (v ++ [c])) := by
  rw [← encode_ref sc.numBits (d.length + 3) (d.length + 3)]
  refine h.token (tok := .refNext) (decide_eq_true ⟨Nat.le_add_left 3 _, hm⟩) fun u pos hu hcap => ?_
  show (loopRefNext u).outcome = _
  rw [loopRefNext_of_room hu.sched hu.ddict hu.dW h1 hv (full_of_unbounded hcap _) (overfull_of_unbounded hcap _),
    Sched.tick_withNextCode, CDict.insert_length, ← CDict.table_insert hd]
  rfl

/-- The end code: the text is the output (R210). -/
theorem Decodable.finish {s : State} {len : Nat} (h : Decodable dw bits d v sc out) (hm : 2 < 2 ^ sc.numBits)
    (hs : s.AtFirst dw len (bits ++ bitsOf Config.codeOrder sc.numBits 2)) :
    ∃ k u, moves k s = .next u ∧ u.status = .doneOk ∧ u.host = [] ∧ u.cout = out := by
  have henc : bitsOf Config.codeOrder sc.numBits 2 = encode (.loop sc.numBits (d.length + 3)) .eos ++ [] :=
    ((List.append_nil _).trans (List.append_nil _)).symm
  rw [henc] at hs
  obtain ⟨k, u, hk, hst, hu⟩ := h s len _ hs
  have hstep := hst.step_eq _ (hu.reading hst) hu.tokenFormat_eq (decide_eq_true hm)
  exact ⟨k + 1, _, moves_succ_iff_last.mpr ⟨u, hk, hstep⟩, rfl, hst.host, hu.cout⟩

end

/-! ### What a match leads to -/

/-- The dictionary after a character is registered (R171). -/
def CDict.register (d : CDict) (c : Char16) : CDict := if d.isKey [c] then d else d.insert [c] (d.length + 3)

/-- The dictionary after a step that sends the match v (R173). -/
def CDict.learn (d : CDict) (v : Str) (c : Char16) : CDict := (d.register c).insert (v ++ [c]) ((d.register c).length + 3)

theorem CDict.register_of_key {d : CDict} {c : Char16} (h : d.isKey [c] = true) : d.register c = d := if_pos h

theorem CDict.register_of_new {d : CDict} {c : Char16} (h : d.isKey [c] = false) : d.register c = d.insert [c] (d.length + 3) :=
  if_neg (by simp [h])

/-- Whatever the match w grows to, its token makes a decompressor know the dictionary and that match, and the text with it: a
decompressor is never more than the candidate and its last character behind (R157, R217). -/
def Expects (dw : BitVec 5) (bits : List Bool) (out : Str) (sc : Sched) (d : CDict) (p : Pending) (w : Str) : Prop :=
  ∀ t tok n, matchToken p d (w ++ t) = some tok →
    Decodable dw (bits ++ encode (.loop sc.numBits n) tok) d (w ++ t) (Sched.ticks (tokenEvents tok) sc) (out ++ (w ++ t))

section
variable {dw : BitVec 5} {bits : List Bool} {d : CDict} {p : Pending} {v w out : Str} {sc : Sched} {c : Char16}

theorem Expects.extend (h : Expects dw bits out sc d p w) (c : Char16) : Expects dw bits out sc d p (w ++ [c]) := by
  intro t tok n ht
  rw [List.append_assoc] at ht ⊢
  exact h _ tok n ht

/-- The token of a pending character is its literal (R175). -/
theorem matchToken_of_mem (d : CDict) (h : c ∈ p) : matchToken p d [c] = some (literalToken c) := by
  have hp : p.has [c] = true := decide_eq_true h
  rw [matchToken, hp, if_pos rfl, literalToken]

/-- The token of any other key is the reference to its code (R175). -/
theorem matchToken_of_not_has (h : p.has w = false) : matchToken p d w = (d.get? w).map .ref := by
  simp [matchToken, h]

theorem tokenEvents_literalToken (c : Char16) : tokenEvents (literalToken c) = 2 := by
  rcases literalToken_cases c with ⟨_, h, _⟩ | ⟨_, h⟩ <;> rw [h] <;> rfl

/-- The words of a match do not depend on the next code (R83). -/
theorem encode_literalToken (c : Char16) (m n n' : Nat) : encode (.loop m n) (literalToken c) = encode (.loop m n') (literalToken c) := by
  rcases literalToken_cases c with ⟨_, h, _⟩ | ⟨_, h⟩ <;> rw [h] <;> rfl

/-- While a character is pending, its match leads to its literal only (R186). -/
theorem Expects.of_literal (hp : PendingOk p d [c]) (hc : c ∈ p)
    (h : ∀ n, Decodable dw (bits ++ encode (.loop sc.numBits n) (literalToken c)) d [c] (Sched.ticks 2 sc) (out ++ [c])) :
    Expects dw bits out sc d p [c] := by
  intro t tok n ht
  cases t with
  | nil =>
    rw [List.append_nil, matchToken_of_mem d hc] at ht
    cases ht
    rw [List.append_nil, tokenEvents_literalToken]
    exact h n
  | cons x t =>
    have hnone : d.get? ([c] ++ x :: t) = none := by
      cases hk : d.get? ([c] ++ x :: t) with
      | none => rfl
      | some code => cases hp.unextended c hc (x :: t) (by simpa [CDict.isKey] using congrArg Option.isSome hk)
    rw [matchToken_of_not_has rfl, hnone] at ht
    cases ht

/-- With nothing pending a match leads to references only. -/
theorem Expects.of_refs (h : ∀ t code, d.get? (w ++ t) = some code →
      Decodable dw (bits ++ bitsOf Config.codeOrder sc.numBits code) d (w ++ t) sc.tick (out ++ (w ++ t))) :
    Expects dw bits out sc d [] w := by
  intro t tok n ht
  have hnot : Pending.has [] (w ++ t) = false := by
    rcases w ++ t with _ | ⟨y, _ | ⟨z, l⟩⟩ <;> rfl
  rw [matchToken_of_not_has hnot, Option.map_eq_some_iff] at ht
  obtain ⟨code, hcode, rfl⟩ := ht
  rw [encode_ref]
  exact h t code hcode

/-- After the first character (R171, R183). -/
theorem expects_first (dw : BitVec 5) (c : Char16) (hp : PendingOk [c] (CDict.insert [] [c] 3) [c]) :
    Expects dw [] [] ⟨2, 2, 4⟩ (CDict.insert [] [c] 3) [c] [c] :=
  .of_literal hp (List.mem_singleton.mpr rfl) (decodable_first dw c)

/-- After a step that registered a character and sent the match: its literal is next (R176, R177). -/
theorem Decodable.expects_new (h : Decodable dw bits d v sc out) (hd : d.wf = true) (hc : d.isKey [c] = false)
    (hm : 1 < 2 ^ sc.numBits) (hp : PendingOk p (d.learn v c) [c]) (hmem : c ∈ p) (n : Nat) :
    Expects dw bits out (sc.withNextCode n) (d.learn v c) p [c] := by
  refine .of_literal hp hmem fun m => ?_
  have hnext := (h.literal hd hc hm).of_withNextCode n
  rw [Sched.ticks_withNextCode]
  rw [encode_literalToken c _ _ m] at hnext
  rw [CDict.learn, CDict.register_of_new hc, CDict.insert_length]
  exact hnext

/-- After a step that sent the match before a known character: a reference is next, to a key the decompressor knows or to the candidate
(R211, R212). -/
theorem Decodable.expects_known (h : Decodable dw bits d v sc out) (hd : d.wf = true) (hc : d.isKey [c] = true) (hv : v ≠ [])
    (h1 : 1 ≤ sc.enlargeIn) (hm : (d.learn v c).length + 3 ≤ 2 ^ sc.numBits) (n : Nat) :
    Expects dw bits out (sc.withNextCode n) (d.learn v c) [] [c] := by
  refine .of_refs fun t code hcode => ?_
  rw [Sched.tick_withNextCode]
  refine Decodable.of_withNextCode n ?_
  rw [CDict.learn, CDict.register_of_key hc] at hcode hm ⊢
  rw [CDict.insert_length] at hm
  rw [CDict.get?_insert] at hcode
  split at hcode
  · have hlt := (CDict.get?_bounds d _ code hd hcode).2
    exact h.ref hd h1 rfl hcode (show code < 2 ^ sc.numBits by omega)
  · split at hcode
    · rename_i heq
      cases hcode
      obtain ⟨x, l, rfl⟩ := List.exists_cons_of_ne_nil hv
      obtain rfl : x = c := (List.cons.inj heq).1
      rw [← heq]
      exact h.refNext hd h1 rfl (show d.length + 3 < 2 ^ sc.numBits by omega)
    · cases hcode

end

/-! ### A compression and what it has sent -/

theorem CompOk.of_fields {s : State} {dw : BitVec 5} {i : Nat} {sc : Sched} {k : Sink} {w : Str} {d : CDict}
    {p : Pending} (h : ∃ dw sc k w d p, CompOk s dw i sc k w d p) (hw : s.digitW = some dw) (hs : s.sched = some sc)
    (hk : s.sink = some k) (hcw : s.cW = some w) (hd : s.cdict = some d) (hp : s.pending = some p) :
    CompOk s dw i sc k w d p := by
  obtain ⟨dw', sc', k', w', d', p', hc⟩ := h
  obtain rfl := Option.some.inj (hc.digitW.symm.trans hw)
  obtain rfl := Option.some.inj (hc.sched.symm.trans hs)
  obtain rfl := Option.some.inj (hc.sink.symm.trans hk)
  obtain rfl := Option.some.inj (hc.cW.symm.trans hcw)
  obtain rfl := Option.some.inj (hc.cdict.symm.trans hd)
  obtain rfl := Option.some.inj (hc.pending.symm.trans hp)
  exact hc

/-- What is pending after a character is registered (R171). -/
def CDict.registerPending (d : CDict) (p : Pending) (c : Char16) : Pending := if d.isKey [c] then p else p.add c

theorem CDict.registerPending_of_key {d : CDict} {c : Char16} (p : Pending) (h : d.isKey [c] = true) :
    d.registerPending p c = p := if_pos h

theorem CDict.registerPending_of_new {d : CDict} {c : Char16} (p : Pending) (h : d.isKey [c] = false) :
    d.registerPending p c = p.add c := if_neg (by simp [h])

/-- The state in which the character of a step is registered (R171, R185). -/
def State.registered (s : State) (sc : Sched) (d : CDict) (p : Pending) (c : Char16) : State :=
  { s with
    cdict := some (d.register c), pending := some (d.registerPending p c),
    sched := some (sc.withNextCode ((d.register c).length + 3)) }

theorem Sched.withNextCode_self {sc : Sched} {n : Nat} (h : sc.nextCode = n) : sc.withNextCode n = sc := by
  subst h
  rfl

section
variable {s t : State} {dw : BitVec 5} {text : Str} {i : Nat} {bits : List Bool} {out : Str} {sc : Sched} {k : Sink} {w : Str}
  {d : CDict} {p : Pending} {c : Char16}

theorem CompOk.midOk (h : CompOk s dw i sc k w d p) (c : Char16) :
    MidOk (sc.withNextCode ((d.register c).length + 3)) (d.register c) (d.registerPending p c) w c (!d.isKey [c]) := by
  have hcur : (w = [] ∧ d = [] ∧ p = []) ∨ d.isKey w = true := h.current.imp And.right And.right
  cases hk : d.isKey [c] with
  | true =>
    have hw : d.isKey w = true := hcur.resolve_left fun ⟨_, hd, _⟩ => by simp [hd] at hk
    rw [CDict.register_of_key hk, CDict.registerPending_of_key p hk, Sched.withNextCode_self h.dictOk.next]
    exact .of_known c h.dictOk h.pendingOk h.schedOk hw hk
  | false =>
    have hnew := MidOk.of_new c h.dictOk h.pendingOk h.schedOk hcur hk
    rw [Sched.bump, h.dictOk.next] at hnew
    rw [CDict.register_of_new hk, CDict.registerPending_of_new p hk, CDict.insert_length]
    exact hnew

/-- After the match is sent nothing is pending but a character that has just been registered (R186). -/
theorem MidOk.sentPending_of_known (h : MidOk sc d p w c false) : sentPending p w = [] := by
  refine List.eq_nil_iff_forall_not_mem.mpr fun v hv => ?_
  obtain ⟨hv, hw⟩ := (mem_sentPending p w v).mp hv
  rcases h.current v hv with hc | ⟨hf, _⟩
  · exact hw hc
  · cases hf

theorem MidOk.mem_sentPending_of_new (h : MidOk sc d p w c true) : c ∈ sentPending p w :=
  (mem_sentPending p w c).mpr (h.freshMem rfl)

/-- The token of a match stays its token when a character is registered (R185). -/
theorem matchToken_register (p : Pending) (c : Char16) (hw : d.isKey w = true) :
    matchToken (d.registerPending p c) (d.register c) w = matchToken p d w := by
  cases hk : d.isKey [c] with
  | true => rw [CDict.register_of_key hk, CDict.registerPending_of_key p hk]
  | false =>
    have hne : w ≠ [c] := by
      rintro rfl
      rw [hw] at hk
      cases hk
    have hhas : Pending.has (p.add c) w = p.has w := by
      rw [Bool.eq_iff_iff, Pending.has_iff, Pending.has_iff]
      refine exists_congr fun v => and_congr_right fun hv => ?_
      rw [Pending.mem_add]
      exact or_iff_right fun hvc => hne (hv.trans (by rw [hvc]))
    have hget : (d.insert [c] (d.length + 3)).get? w = d.get? w := by
      rw [CDict.get?_insert]
      exact if_pos hw
    rw [CDict.register_of_new hk, CDict.registerPending_of_new p hk]
    unfold matchToken
    rw [hhas, hget]

theorem exists_matchToken (p : Pending) (hw : d.isKey w = true) : ∃ tok, matchToken p d w = some tok := by
  cases hp : p.has w with
  | true =>
    obtain ⟨v, rfl, hv⟩ := (Pending.has_iff p w).mp hp
    exact ⟨_, matchToken_of_mem d hv⟩
  | false =>
    obtain ⟨code, hcode⟩ := Option.isSome_iff_exists.mp hw
    exact ⟨.ref code, by rw [matchToken_of_not_has hp, hcode]; rfl⟩

/-- A compression with no capacity bounded that has read i characters and put `bits`: they stand for the text `out`, and the match w for
the rest of what was read. -/
structure State.Sending (s : State) (dw : BitVec 5) (text : Str) (i : Nat) (bits : List Bool) (out : Str) (sc : Sched) (k : Sink)
    (w : Str) (d : CDict) (p : Pending) : Prop where
  scanning : s.Scanning text i
  caps : s.caps = Config.Caps.unbounded
  cfgDigitW : s.cfgDigitW = dw
  comp : CompOk s dw i sc k w d p
  holding : Holding dw.toNat bits k s.dout
  read : out ++ w = text.take i

theorem State.Sending.after (h : s.Sending dw text i bits out sc k w d p) (hi : i < text.length) (ht : step s = .next t) :
    t.caps = Config.Caps.unbounded ∧ t.Scanning text (i + 1) := by
  obtain ⟨hcaps, hst⟩ := (h.scanning.scan hi).of_next ht
  have hunb := hcaps.trans h.caps
  exact ⟨hunb, hst.resolve_right fun hf => hf.2 hunb⟩

/-- A step that reads a character is the step of the state in which it is registered (R171). -/
theorem State.Sending.step_registered (h : s.Sending dw text i bits out sc k w d p) (hc : text[i]? = some c) :
    step s = step (s.registered sc d p c) := by
  have hi : i < text.length := (List.getElem?_eq_some_iff.mp hc).1
  cases hk : d.isKey [c] with
  | true =>
    rw [State.registered, CDict.register_of_key hk, CDict.registerPending_of_key p hk, Sched.withNextCode_self h.comp.dictOk.next,
      ← h.comp.cdict, ← h.comp.pending, ← h.comp.sched]
  | false =>
    have hstep := (scanRegistersANewCharacter s i s.inBuf.length c d p sc (.inl h.scanning.host)
      (h.scanning.phase.trans (if_pos hi)) h.comp.ii h.comp.n (by rwa [h.scanning.inBuf]) (by rwa [h.scanning.inBuf]) h.comp.cdict
      h.comp.pending h.comp.sched hk).1 (full_of_unbounded h.caps _)
    rw [hstep, State.registered, CDict.register_of_new hk, CDict.registerPending_of_new p hk, CDict.insert_length,
      h.comp.dictOk.next]
    rfl

/-- A step that extends the match puts nothing (R172). -/
theorem State.Sending.extends (h : s.Sending dw text i bits out sc k w d p) (hc : text[i]? = some c)
    (hext : (d.register c).isKey (w ++ [c]) = true) : ∃ t, step s = .next t ∧
      t.Sending dw text (i + 1) bits out (sc.withNextCode ((d.register c).length + 3)) k (w ++ [c]) (d.register c)
        (d.registerPending p c) := by
  have hi : i < text.length := (List.getElem?_eq_some_iff.mp hc).1
  have hstep := scanExtendsTheMatch (s.registered sc d p c) i s.inBuf.length c w (d.register c) (.inl h.scanning.host)
    (h.scanning.phase.trans (if_pos hi)) h.comp.ii h.comp.n (by rwa [h.scanning.inBuf])
    (show s.inBuf[i]? = _ by rwa [h.scanning.inBuf]) h.comp.cW rfl (h.comp.midOk c).char hext
  rw [← h.step_registered hc] at hstep
  obtain ⟨hcaps, hscan⟩ := h.after hi hstep
  refine ⟨_, hstep, hscan, hcaps, h.cfgDigitW, .of_fields hscan.comp h.comp.digitW rfl h.comp.sink rfl rfl rfl, h.holding, ?_⟩
  rw [← List.append_assoc, h.read, List.take_add_one, hc]
  rfl

/-- A step that does not extend the match puts the bits of its token (R173). -/
theorem State.Sending.sends {tok : Instr} (h : s.Sending dw text i bits out sc k w d p) (hc : text[i]? = some c)
    (hext : (d.register c).isKey (w ++ [c]) = false) (htok : matchToken p d w = some tok) (hw : d.isKey w = true) :
    ∃ t k' n, step s = .next t ∧ t.Sending dw text (i + 1)
      (bits ++ encode (.loop sc.numBits ((d.register c).length + 3)) tok) (out ++ w)
      ((Sched.ticks (tokenEvents tok) sc).withNextCode n) k' [c] (d.learn w c) (sentPending (d.registerPending p c) w) := by
  have hi : i < text.length := (List.getElem?_eq_some_iff.mp hc).1
  obtain ⟨k', dout, hput, hhold⟩ := h.holding.putBits (s := { (s.registered sc d p c).taken with ii := some (i + 1) })
    (encode (.loop sc.numBits ((d.register c).length + 3)) tok) h.comp.digitW h.comp.sink (congrArg Config.Caps.out h.caps)
  have hstep := ((scanSendsTheMatch (s.registered sc d p c) i s.inBuf.length c w (d.register c) (d.registerPending p c) _ tok
    (.inl h.scanning.host) (h.scanning.phase.trans (if_pos hi)) h.comp.ii h.comp.n (by rwa [h.scanning.inBuf])
    (show s.inBuf[i]? = _ by rwa [h.scanning.inBuf]) h.comp.cW rfl rfl rfl (h.comp.midOk c).char hext
    ((matchToken_register p c hw).trans htok)).1 _ hput).1 (full_of_unbounded h.caps _)
  rw [← h.step_registered hc, Sched.ticks_withNextCode] at hstep
  obtain ⟨hcaps, hscan⟩ := h.after hi hstep
  refine ⟨_, k', (d.register c).length + 3 + 1, hstep, hscan, hcaps, h.cfgDigitW,
    .of_fields hscan.comp h.comp.digitW rfl rfl rfl rfl rfl, hhold, ?_⟩
  rw [h.read, List.take_add_one, hc]
  rfl

/-- After the first step, a compression whose every next token is decodable. -/
def State.Sent (s : State) (dw : BitVec 5) (text : Str) (i : Nat) : Prop :=
  ∃ bits out sc k w d p, s.Sending dw text i bits out sc k w d p ∧ Expects dw bits out sc d p w

/-- A step of the scan keeps this (R157, R217). -/
theorem State.Sending.step_sent (h : s.Sending dw text i bits out sc k w d p) (he : Expects dw bits out sc d p w) (h0 : 0 < i)
    (hi : i < text.length) : ∃ t, step s = .next t ∧ t.Sent dw text (i + 1) := by
  obtain ⟨c, hc⟩ : ∃ c, text[i]? = some c := ⟨_, List.getElem?_eq_getElem hi⟩
  have hw : d.isKey w = true := (h.comp.current.resolve_left fun ⟨hz, _⟩ => h0.ne' hz).2
  have hw0 : w ≠ [] := by
    rintro rfl
    rw [h.comp.dictOk.nonempty] at hw
    cases hw
  have hmid := h.comp.midOk c
  cases hext : (d.register c).isKey (w ++ [c]) with
  | true =>
    have hk : d.isKey [c] = true := by
      by_contra hn
      exact hw0 (hmid.freshOnly (by simpa using hn) w hext)
    obtain ⟨t, ht, hs⟩ := h.extends hc hext
    rw [CDict.register_of_key hk, CDict.registerPending_of_key p hk, Sched.withNextCode_self h.comp.dictOk.next] at hs
    exact ⟨t, ht, _, _, _, _, _, _, _, hs, he.extend c⟩
  | false =>
    obtain ⟨tok, htok⟩ := exists_matchToken p hw
    obtain ⟨t, k', n, ht, hs⟩ := h.sends hc hext htok hw
    refine ⟨t, ht, _, _, _, _, _, _, _, hs, ?_⟩
    have hdec := he [] tok ((d.register c).length + 3) (by rwa [List.append_nil])
    rw [List.append_nil] at hdec
    have hbits : 2 ≤ (Sched.ticks (tokenEvents tok) sc).numBits := hs.comp.schedOk.numBits
    cases hk : d.isKey [c] with
    | true =>
      rw [hk] at hmid
      rw [hmid.sentPending_of_known] at hs ⊢
      have hnext : n = (d.learn w c).length + 3 := hs.comp.dictOk.next
      have henl : 1 ≤ (Sched.ticks (tokenEvents tok) sc).enlargeIn := hs.comp.schedOk.enlargeIn
      have hbal : n + (Sched.ticks (tokenEvents tok) sc).enlargeIn = 2 ^ (Sched.ticks (tokenEvents tok) sc).numBits + 1 :=
        hs.comp.schedOk.balance
      exact hdec.expects_known h.comp.dictOk.wf hk hw0 henl (by omega) n
    | false =>
      rw [hk] at hmid
      exact hdec.expects_new h.comp.dictOk.wf hk (Nat.one_lt_two_pow (by omega)) hs.comp.pendingOk hmid.mem_sentPending_of_new n

/-- The stream of a text: none for the empty one (R180), and else bits from which the text is decodable, and the end code (R179). -/
inductive StreamOf (dw : BitVec 5) (text : Str) : List Nat → Prop
  | empty (h : text = []) : StreamOf dw text []
  | tokens (bits : List Bool) (d : CDict) (w : Str) (sc : Sched) (hd : Decodable dw bits d w sc text) (hm : 2 < 2 ^ sc.numBits) :
      StreamOf dw text (digitsOf dw.toNat (bits ++ bitsOf Config.codeOrder sc.numBits 2))

/-- A compression that is over, with its text's stream as its result. -/
structure State.Compressed (s : State) (dw : BitVec 5) (text : Str) : Prop where
  status : s.status = .doneOk
  host : s.host = []
  caps : s.caps = Config.Caps.unbounded
  cfgDigitW : s.cfgDigitW = dw
  dout : StreamOf dw text s.dout

/-- The final step puts the last token, the end code and the pad (R179). -/
theorem State.Sending.final (h : s.Sending dw text text.length bits out sc k w d p) (he : Expects dw bits out sc d p w)
    (hn : text ≠ []) : ∃ t, step s = .next t ∧ t.Compressed dw text := by
  have hw : d.isKey w = true := (h.comp.current.resolve_left fun ⟨hz, _⟩ => hn (List.length_eq_zero_iff.mp hz)).2
  obtain ⟨tok, htok⟩ := exists_matchToken p hw
  have hread : out ++ w = text := h.read.trans List.take_length
  have hdec := he [] tok sc.nextCode (by rwa [List.append_nil])
  rw [List.append_nil, hread] at hdec
  obtain ⟨k', dout, hput, hhold⟩ := h.holding.putBits
    (encode (.loop sc.numBits sc.nextCode) tok ++ bitsOf Config.codeOrder (Sched.ticks (tokenEvents tok) sc).numBits 2)
    h.comp.digitW h.comp.sink (congrArg Config.Caps.out h.caps)
  have hflush := hhold.flush (s := (s.setDout dout).setSink (some k')) h.comp.digitW rfl (congrArg Config.Caps.out h.caps)
  have hph : s.phase = .pCFinal := h.scanning.phase.trans (if_neg (lt_irrefl _))
  have hstep : engineStep s = _ := engineStep_final s hph
  rw [cFinal_eq h.comp.sched h.comp.cdict h.comp.pending h.comp.cW htok hput hflush, outcome_ok, ← List.append_assoc] at hstep
  have hin := (engineStep_grows hstep).inputs
  have hbits : 2 ≤ (Sched.ticks (tokenEvents tok) sc).numBits := h.comp.schedOk.numBits.trans (Sched.numBits_le_ticks _ sc)
  have hfit : 2 ^ 2 ≤ 2 ^ (Sched.ticks (tokenEvents tok) sc).numBits := Nat.pow_le_pow_right two_pos hbits
  exact ⟨_, (step_of_no_host h.scanning.host).trans hstep, rfl, hin.host.trans h.scanning.host, hin.caps.trans h.caps,
    hin.cfgDigitW.trans h.cfgDigitW, .tokens _ _ _ _ hdec (lt_of_lt_of_le (by decide) hfit)⟩

/-- The first step registers the first character and puts nothing (R183). -/
theorem State.Sending.first (h : s.Sending dw text 0 [] [] Sched.compressorSeed k [] [] []) (hn : text ≠ []) :
    ∃ t, step s = .next t ∧ t.Sent dw text 1 := by
  obtain ⟨c, rest, rfl⟩ := List.exists_cons_of_ne_nil hn
  obtain ⟨t, ht, hs⟩ := h.extends (c := c) rfl (by simp [CDict.register])
  exact ⟨t, ht, _, _, _, _, _, _, _, hs, expects_first dw c hs.comp.pendingOk⟩

theorem State.Sending.moves {j : Nat} (h : s.Sending dw text 0 [] [] Sched.compressorSeed k [] [] []) (hj : j < text.length) :
    ∃ u, Machine.moves (j + 1) s = .next u ∧ u.Sent dw text (j + 1) := by
  induction j with
  | zero =>
    obtain ⟨t, ht, hs⟩ := h.first (List.ne_nil_of_length_pos hj)
    exact ⟨t, moves_succ_iff.mpr ⟨t, ht, rfl⟩, hs⟩
  | succ j ih =>
    obtain ⟨u, hu, _, _, _, _, _, _, _, hs, he⟩ := ih (Nat.lt_of_succ_lt hj)
    obtain ⟨t, ht, hs'⟩ := hs.step_sent he (Nat.succ_pos j) hj
    exact ⟨t, moves_succ_iff_last.mpr ⟨u, hu, ht⟩, hs'⟩

/-- With no capacity bounded an accepted START leads to the text's stream (R170 to R180). -/
theorem started_compresses (hl : legalWidth s.cfgDigitW) (hh : s.host = []) (hc : s.caps = Config.Caps.unbounded) :
    ∃ k t, Machine.moves k s.started = .next t ∧ t.Compressed s.cfgDigitW s.inBuf := by
  by_cases hn : s.inBuf = []
  · rw [started_of_empty hn]
    exact ⟨0, _, rfl, rfl, hh, hc, rfl, .empty hn⟩
  · have hscan := started_scanning hl hh hn
    rw [started_of_text hn] at hscan ⊢
    have hsend : (s.seeded.setPhase .pCScan).Sending s.cfgDigitW s.inBuf 0 [] [] Sched.compressorSeed ⟨0, 0⟩ [] [] [] :=
      ⟨hscan, hc, rfl, (compOk_init rfl rfl hl rfl rfl rfl).setPhase _, Holding.nil hl.1, rfl⟩
    have hlen : s.inBuf.length - 1 + 1 = s.inBuf.length := Nat.sub_add_cancel (List.length_pos_iff.mpr hn)
    obtain ⟨u, hu, hs⟩ := hsend.moves (j := s.inBuf.length - 1) (by omega)
    rw [hlen] at hu hs
    obtain ⟨_, _, _, _, _, _, _, hs, he⟩ := hs
    obtain ⟨t, ht, hcomp⟩ := hs.final he hn
    exact ⟨_, t, moves_succ_iff_last.mpr ⟨u, hu, ht⟩, hcomp⟩

end

/-! ### A decompression of what was sent -/

section
variable {s : State} {dw : BitVec 5} {text : Str}

/-- Digits that the host has written are the ones the engine reads, whatever stands after them. -/
theorem sameDigits_append (w : Nat) (digits rest : List Nat) : sameDigits w digits.length digits (digits ++ rest) := by
  intro j hj
  rw [dinAt, dinAt, List.getElem?_append_left hj]

/-- A START on the digits of some bits begins a decompression whose stream is those bits (R115, R200). -/
theorem opened_atFirst {bits : List Bool} {rest : List Nat} (hl : legalWidth s.cfgDigitW) (hh : s.host = [])
    (hc : s.caps = Config.Caps.unbounded) (hd : s.din = digitsOf s.cfgDigitW.toNat bits ++ rest)
    (hlen : s.cfgLength = (digitsOf s.cfgDigitW.toNat bits).length) : s.opened.AtFirst s.cfgDigitW s.cfgLength bits := by
  rw [opened_of_digits (by simp [hlen])]
  refine ⟨⟨hh, hc, rfl, rfl, ?_, fun n => ?_⟩, rfl, rfl, rfl, rfl, rfl⟩
  · rw [hlen, digitsOf_length, Nat.mul_comm]
    exact Nat.lt_mul_div_succ _ hl.1
  · show streamBit s.cfgDigitW.toNat s.cfgLength s.din n = _
    rw [hd, hlen, streamBit_of_sameDigits_self (sameDigits_append _ _ rest), streamBit_digitsOf bits n hl.1]

/-- A START on a text's stream leads to the text (R217). -/
theorem opened_decompresses {rest : List Nat} {digits : List Nat} (h : StreamOf s.cfgDigitW text digits)
    (hl : legalWidth s.cfgDigitW) (hh : s.host = []) (hc : s.caps = Config.Caps.unbounded) (hd : s.din = digits ++ rest)
    (hlen : s.cfgLength = digits.length) :
    ∃ k u, moves k s.opened = .next u ∧ u.status = .doneOk ∧ u.host = [] ∧ u.cout = text := by
  cases h with
  | empty ht =>
    rw [opened_of_no_digits hlen]
    exact ⟨0, _, rfl, rfl, hh, ht.symm⟩
  | tokens bits d w sc hdec hm => exact hdec.finish hm (opened_atFirst hl hh hc hd hlen)

end

/-! ### The host's moves -/

section
variable {s t : State} {rest : List HostMove} {k : Nat} (hs : s.status ≠ .busy)
include hs

/-! A write of an engine that is not `BUSY` (R240, R305). -/

theorem step_writeIn (text : Str) :
    step (s.setHost (.writeIn text :: rest)) = .next ((s.setInBuf text).setHost rest) := if_neg hs

theorem step_writeDin (digits : List Nat) :
    step (s.setHost (.writeDin digits :: rest)) = .next ((s.setDin (digits ++ s.din.drop digits.length)).setHost rest) := if_neg hs

theorem step_writeDigitW (dw : BitVec 5) :
    step (s.setHost (.writeDigitW dw :: rest)) = .next ((s.setCfgDigitW dw).setHost rest) := if_neg hs

theorem step_writeLength (len : Nat) :
    step (s.setHost (.writeLength len :: rest)) = .next ((s.setCfgLength len).setHost rest) := if_neg hs

/-! A START that is accepted (R241, R242). -/

theorem step_issue_startCompress (ha : (s.setHost rest).Accepts) :
    step (s.setHost (.issue 1 :: rest)) = .next (s.setHost rest).started := by
  rw [stepRunsIssuedCommand _ 1 rest rfl]
  show exec .startCompress (s.setHost rest) = _
  rw [exec_startCompress (s := s.setHost rest) hs, startCompress_of_accepts ha, outcome_ok]

theorem step_issue_startDecompress (ha : (s.setHost rest).AcceptsDigits) :
    step (s.setHost (.issue 2 :: rest)) = .next (s.setHost rest).opened := by
  rw [stepRunsIssuedCommand _ 2 rest rfl]
  show exec .startDecompress (s.setHost rest) = _
  rw [exec_startDecompress (s := s.setHost rest) hs, startDecompress_of_accepts ha, outcome_ok]

/-- The host writes the text and the width and issues START_COMPRESS (R251). -/
theorem moves_startCompress {text : Str} {dw : BitVec 5} (ha : (((s.setInBuf text).setCfgDigitW dw).setHost []).Accepts)
    (h : moves k (((s.setInBuf text).setCfgDigitW dw).setHost []).started = .next t) :
    moves (k + 3) (s.setHost [.writeIn text, .writeDigitW dw, .issue 1]) = .next t := by
  have htext := step_writeIn (rest := [.writeDigitW dw, .issue 1]) hs text
  have hwidth := step_writeDigitW (s := s.setInBuf text) (rest := [.issue 1]) hs dw
  have hstart := step_issue_startCompress (s := (s.setInBuf text).setCfgDigitW dw) hs ha
  exact moves_succ_iff.mpr ⟨_, htext, moves_succ_iff.mpr ⟨_, hwidth, moves_succ_iff.mpr ⟨_, hstart, h⟩⟩⟩

/-- The host writes digits and their number and issues START_DECOMPRESS (R251). -/
theorem moves_startDecompress {digits : List Nat} {len : Nat}
    (ha : (((s.setDin (digits ++ s.din.drop digits.length)).setCfgLength len).setHost []).AcceptsDigits)
    (h : moves k (((s.setDin (digits ++ s.din.drop digits.length)).setCfgLength len).setHost []).opened = .next t) :
    moves (k + 3) (s.setHost [.writeDin digits, .writeLength len, .issue 2]) = .next t := by
  have hdigits := step_writeDin (rest := [.writeLength len, .issue 2]) hs digits
  have hlength := step_writeLength (s := s.setDin (digits ++ s.din.drop digits.length)) (rest := [.issue 2]) hs len
  have hstart := step_issue_startDecompress (s := (s.setDin (digits ++ s.din.drop digits.length)).setCfgLength len) hs ha
  exact moves_succ_iff.mpr ⟨_, hdigits, moves_succ_iff.mpr ⟨_, hlength, moves_succ_iff.mpr ⟨_, hstart, h⟩⟩⟩

end

/-! ### The statement -/

/-- Settles O59: between any two steps of the compression every token its match can lead to is decodable, so the whole stream is, and the
end code ends the decompression with the text. -/
theorem decompressionInvertsCompression : Obligations.DecompressionInvertsCompression := by
  intro s text dw hs hunb hl
  have hcaps : s.caps = Config.Caps.unbounded := hunb
  have hacc : (((s.setInBuf text).setCfgDigitW dw).setHost []).Accepts := ⟨hl, by simp [hcaps, Config.Caps.unbounded]⟩
  obtain ⟨m, t, hm, ht⟩ := started_compresses hacc.1 rfl hcaps
  refine ⟨m + 3, t, moves_startCompress hs hacc hm, ht.status, ht.host, ?_⟩
  have hw : legalWidth t.cfgDigitW := ht.cfgDigitW ▸ hl
  have hstream : StreamOf t.cfgDigitW text t.dout := ht.cfgDigitW ▸ ht.dout
  obtain ⟨k, u, hk, hend⟩ := opened_decompresses
    (s := ((t.setDin (t.dout ++ t.din.drop t.dout.length)).setCfgLength t.dout.length).setHost []) hstream hw rfl ht.caps rfl rfl
  exact ⟨k + 3, u, moves_startDecompress (by simp [ht.status]) ⟨hw, by simp [ht.caps, Config.Caps.unbounded]⟩ hk, hend⟩

end Sys2Proof.Machine

/-!
SUPPORT and PROOFS. The host interface of 45_host_interface.md: the commands that change nothing or everything (O10, O12, O13), the refusal
of a START (O16), the host's writes (O9), and the engine that waits while no call runs (O8, O52); then, said of every operation of a call
(`Leaves`), that a compression leaves `COUT` and a decompression `DOUT` (O53).
-/

namespace Sys2Proof.Machine

/-! ### The configuration check -/

/-- A width outside 1 to 16 is refused whatever the length (R243, R277). -/
theorem configCheck_of_width {dw : BitVec 5} (len : Nat) (s : State) (hw : dw.toNat < 1 ∨ 16 < dw.toNat) :
    configCheck dw len s = .error (.raised (s.enterFault .badConfig dw.toNat)) := if_pos hw

/-- A length over `LEN_MAX` is refused after the width has passed (R243, R274). -/
theorem configCheck_of_length {dw : BitVec 5} {len : Nat} {s : State} (hw : legalWidth dw)
    (ho : overfull s.caps.lenMax len = true) : configCheck dw len s = .error (.raised (s.enterFault .capacity 4)) := by
  obtain ⟨hmin, hmax⟩ := hw
  rw [configCheck, if_neg (by omega), if_pos ho, raise_eq]

/-! ### The host's writes -/

theorem setHost_self {s : State} {l : List HostMove} (h : s.host = l) : s.setHost l = s := by subst h; rfl

/-- A write of `DIN` gives the first entries, and the later ones stay (log entry 8). -/
theorem dinAt_written (digits din : List Nat) (j : Nat) :
    dinAt (digits ++ din.drop digits.length) j = if h : j < digits.length then digits[j] else dinAt din j := by
  split
  · rename_i h
    rw [dinAt, List.getElem?_append_left h, List.getElem?_eq_getElem h, Option.getD_some]
  · rename_i h
    rw [dinAt, List.getElem?_append_right (by omega), List.getElem?_drop, Nat.add_sub_cancel' (by omega), dinAt]

/-! ### A move of a running call -/

/-- A move of a running call that is no RESET is the engine's turn, or leaves the engine as it is. -/
theorem turn_of_busy {s t : State} (hb : s.status = .busy) (hc : s.cmdPort ≠ 3) (ht : step s = .next t) :
    engineStep s.taken = .next t ∨ t = s.taken := by
  cases step_moved ht with
  | engine _ he => exact .inl he
  | ignored _ ht => exact .inr ht
  | startCompress _ waits _ => exact absurd hb waits
  | startDecompress _ waits _ => exact absurd hb waits
  | reset cmd _ => exact absurd cmd hc
  | write waits _ _ _ _ _ => exact absurd hb waits

/-! ### What an operation leaves alone -/

/-- Wherever the operation ends, what `g` reads of the state is as it was. -/
abbrev Leaves {α : Type} (g : State → α) (f : State → Res State) : Prop :=
  ∀ s, (f s).Sat True (fun t => g t = g s) fun t => g t = g s

namespace Leaves
variable {α β : Type} {g : State → α} {f h : State → Res State}

theorem write {w : State → State} (hw : ∀ s, g (w s) = g s := by intros; rfl) : Leaves g fun s => .ok (w s) := hw

theorem raise {c : Cause} {i : Nat} (hw : ∀ s, g (s.enterFault c i) = g s := by intros; rfl) : Leaves g (Machine.raise c i) := hw

theorem bind (hf : Leaves g f) (hh : Leaves g h) : Leaves g fun s => f s >>= h := fun s =>
  (hf s).bind fun t ht => (hh t).mono (fun _ hu => hu.trans ht) fun _ hu => hu.trans ht

/-- A write, and then an operation. -/
theorem after (w : State → State) (hf : Leaves g f) (hw : ∀ s, g (w s) = g s := by intros; rfl) : Leaves g fun s => f (w s) :=
  (write hw).bind hf

theorem read {r : State → Res β} {k : β → State → Res State} (hr : ∀ s, (r s).Sat True (fun _ => False) fun _ => True)
    (hk : ∀ b, Leaves g (k b)) : Leaves g fun s => r s >>= fun b => k b s := fun s =>
  .of_read (hr s) fun b => hk b s

theorem need {e : Element} {o : State → Option β} {k : β → State → Res State} (hk : ∀ b, Leaves g (k b)) :
    Leaves g fun s => Machine.need e (o s) >>= fun b => k b s := fun s =>
  .of_need fun b _ => hk b s

theorem ite {c : State → Prop} [∀ s, Decidable (c s)] (hf : Leaves g f) (hh : Leaves g h) :
    Leaves g fun s => if c s then f s else h s := by
  intro s
  show (if c s then f s else h s).Sat _ _ _
  split
  · exact hf s
  · exact hh s

/-- What the operation leaves is as it was in the next state its outcome answers. -/
theorem of_outcome {s t : State} (hf : Leaves g f) (ht : (f s).outcome = .next t) : g t = g s := (hf s).of_outcome ht

end Leaves

/-! ### A compression leaves `COUT` -/

theorem digitOut_leavesCout (d : Nat) : Leaves State.cout (digitOut d) := .ite .raise .write

theorem putBit_leavesCout (b : Bool) : Leaves State.cout (putBit b) :=
  .need fun k => .need fun _ =>
    .ite (((digitOut_leavesCout _).after (·.setSink (some ⟨2 * k.acc + b.toNat, k.cnt⟩))).bind .write) .write

theorem putBits_leavesCout (bs : List Bool) : Leaves State.cout (putBits bs) := by
  induction bs with
  | nil => exact .write
  | cons b bs ih => exact (putBit_leavesCout b).bind ih

theorem putValue_leavesCout (v n : Nat) : Leaves State.cout (putValue v n) := putBits_leavesCout _

theorem flush_leavesCout : Leaves State.cout flush := .need fun _ => .need fun _ => (digitOut_leavesCout _).bind .write

theorem cInsert_leavesCout (t : Str) : Leaves State.cout (cInsert t) := .need fun _ => .need fun _ => .ite .raise .write

theorem tick_leavesCout : Leaves State.cout tick := .need fun _ => .write

theorem literalSent_leavesCout (v : Char16) : Leaves State.cout (literalSent v) :=
  .need fun p => (tick_leavesCout.after (·.setPending (some (p.remove v)))).bind tick_leavesCout

/-- The two literal forms (R176, R177). -/
theorem literalToken_leavesCout (v : Char16) (code m n : Nat) :
    Leaves State.cout fun s => putValue code m s >>= fun t => putValue v.toNat n t >>= literalSent v :=
  (putValue_leavesCout _ _).bind <| (putValue_leavesCout _ _).bind (literalSent_leavesCout v)

theorem emitRef_leavesCout (t : Str) : Leaves State.cout (emitRef t) :=
  .read (codeOf_reads t) fun _ => .need fun _ => (putValue_leavesCout _ _).bind tick_leavesCout

theorem emit_leavesCout (t : Str) : Leaves State.cout (emit t) :=
  .need fun _ => .ite
    (.read (fun _ => headOf_reads t) fun v => .ite
      (.need fun sc => literalToken_leavesCout v 0 sc.numBits 8) (.need fun sc => literalToken_leavesCout v 1 sc.numBits 16))
    (emitRef_leavesCout t)

theorem registerChar_leavesCout (c : Char16) : Leaves State.cout (registerChar c) :=
  .need fun _ => .ite .write <| (cInsert_leavesCout [c]).bind <| .need fun _ => .write

theorem extendMatch_leavesCout (c : Char16) : Leaves State.cout (extendMatch c) :=
  .need fun _ => .need fun w => .ite .write <| (emit_leavesCout w).bind <| (cInsert_leavesCout _).bind .write

theorem cScan_leavesCout : Leaves State.cout cScan :=
  .need fun i => .need fun _ => .read (charIn_reads i) fun c =>
    ((registerChar_leavesCout c).after (·.setIi (some (i + 1)))).bind <| (extendMatch_leavesCout c).bind <| .ite .write .write

theorem cFinal_leavesCout : Leaves State.cout cFinal :=
  .need fun w => (emit_leavesCout w).bind <| .need fun _ =>
    (putValue_leavesCout _ _).bind <| flush_leavesCout.bind .write

/-- A running compression has output no text, and its turn outputs none (R52, R249). -/
theorem State.Inv.turn_cout {s : State} (h : s.Inv) (hb : s.status = .busy) (hm : s.mode = some .compress) :
    s.cout = [] ∧ ∀ t, engineStep s = .next t → t.cout = [] := by
  rcases h.work_of_busy hb with ⟨_, _, _, _, _, _, _, hc⟩ | ⟨_, _, hf⟩ | ⟨_, _, _, _, _, _, hl⟩
  · refine ⟨hc.cout, fun t ht => ?_⟩
    rcases (h.compression hb hc.cdict hc.pending).1 with hp | hp
    · exact (cScan_leavesCout.of_outcome (engineStep_scan s hp ▸ ht)).trans hc.cout
    · exact (cFinal_leavesCout.of_outcome (engineStep_final s hp ▸ ht)).trans hc.cout
  · simp [hf.mode] at hm
  · simp [hl.mode] at hm

/-! ### A decompression leaves `DOUT` -/

theorem charOut_leavesDout (t : Str) : Leaves State.dout (charOut t) := .ite .raise .write

theorem dInsert_leavesDout (t : Str) : Leaves State.dout (dInsert t) := .need fun _ => .need fun _ => .ite .raise .write

theorem dInsertAt3_leavesDout (t : Str) : Leaves State.dout (dInsertAt3 t) := .need fun _ => .ite .raise .write

theorem onSched_leavesDout (f : Sched → Sched) : Leaves State.dout (onSched f) := .need fun _ => .write

theorem firstLiteral_leavesDout (v : Char16) : Leaves State.dout (firstLiteral v) :=
  (dInsertAt3_leavesDout [v]).bind <| ((charOut_leavesDout [v]).after (·.setDW (some [v]))).bind .write

theorem common_leavesDout (e : Str) : Leaves State.dout (common e) :=
  (charOut_leavesDout e).bind <| .need fun _ => .read (fun _ => headOf_reads e) fun _ =>
    (dInsert_leavesDout _).bind <| (onSched_leavesDout _).bind .write

theorem loopLiteral_leavesDout (v : Char16) : Leaves State.dout (loopLiteral v) :=
  .need fun sc => (dInsert_leavesDout [v]).bind <| (onSched_leavesDout _).bind <| (onSched_leavesDout _).bind <|
    .read (entryAt_reads sc.nextCode) common_leavesDout

theorem loopRef_leavesDout (code : Nat) : Leaves State.dout (loopRef code) :=
  (onSched_leavesDout _).bind <| .read (entryAt_reads code) common_leavesDout

theorem loopRefNext_leavesDout : Leaves State.dout loopRefNext :=
  (onSched_leavesDout _).bind <| .need fun w => .read (fun _ => headOf_reads w) fun _ => common_leavesDout _

theorem exec_firstToken_dout {sel payload : Nat} {s t : State} (h : exec (firstToken sel payload) s = .next t) :
    t.dout = s.dout := by
  rcases exec_firstToken sel payload s with ⟨v, hx⟩ | hx | hx <;> rw [hx] at h
  · exact (firstLiteral_leavesDout v).of_outcome h
  · cases h; rfl
  · cases h; rfl

theorem exec_loopToken_dout {nextCode code payload : Nat} {s t : State} (h : exec (loopToken nextCode code payload) s = .next t) :
    t.dout = s.dout := by
  rcases exec_loopToken nextCode code payload s with ⟨v, hx⟩ | hx | ⟨_, _, hx⟩ | hx | ⟨_, hx⟩ <;> rw [hx] at h
  · exact (loopLiteral_leavesDout v).of_outcome h
  · cases h; rfl
  · exact (loopRef_leavesDout code).of_outcome h
  · exact loopRefNext_leavesDout.of_outcome h
  · cases h; rfl

theorem exec_tokenAt_dout {s t u : State} {w len pos : Nat} {din : List Nat}
    (h : exec (tokenAt s.tokenFormat w len din pos).1 u = .next t) : t.dout = u.dout := by
  unfold State.tokenFormat at h
  split at h
  · exact exec_firstToken_dout h
  · exact exec_loopToken_dout h

/-- A turn that reads the stream ends the call or runs a token, and neither outputs a digit (R53, R249). -/
theorem State.Reading.dout_eq {s t : State} {dw : BitVec 5} {len pos : Nat} (h : s.Reading dw len pos)
    (ht : engineStep s = .next t) : t.dout = s.dout := by
  rw [h.engineStep_eq] at ht
  split at ht
  · cases ht; rfl
  · exact (exec_tokenAt_dout ht).trans (State.setSrcPos_dout s _)

/-- A running decompression has output no digit, and its turn outputs none. -/
theorem State.Inv.turn_dout {s : State} (h : s.Inv) (hb : s.status = .busy) (hm : s.mode = some .decompress) :
    s.dout = [] ∧ ∀ t, engineStep s = .next t → t.dout = [] := by
  obtain ⟨dw, len, hw, hl, hd⟩ : ∃ dw len, s.digitW = some dw ∧ s.length = some len ∧ s.dout = [] := by
    rcases h.work_of_busy hb with ⟨_, _, _, _, _, _, _, hc⟩ | ⟨dw, len, hf⟩ | ⟨dw, len, _, _, _, _, hl⟩
    · simp [hc.mode] at hm
    · exact ⟨dw, len, hf.digitW, hf.length, hf.dout⟩
    · exact ⟨dw, len, hl.digitW, hl.length, hl.dout⟩
  have hdec : (s.setHost []).Decoding dw len s.din := ⟨h.setHost [], rfl, hm, hw, hl, rfl⟩
  obtain ⟨pos, hr⟩ := hdec.reading hb
  have hrs : s.Reading dw len pos := { hr with }
  exact ⟨hd, fun t ht => (hrs.dout_eq ht).trans hd⟩

/-! ### The statements -/

/-- Settles O16: both STARTs run the check on the state that `beginCall` leaves, and a refusal ends them there. -/
theorem configCheckRefuses : Obligations.ConfigCheckRefuses := by
  intro s m len i hi hs
  have hrefused : ∀ u, configCheck s.cfgDigitW len (beginCall m s) = .error (.raised u) → exec i s = .next u := by
    intro u hu
    rcases hi with ⟨rfl, rfl, rfl⟩ | ⟨rfl, rfl, rfl⟩
    · rw [exec_startCompress hs, startCompress, hu, Res.error_bind, outcome_raised]
    · rw [exec_startDecompress hs, startDecompress, hu, Res.error_bind, outcome_raised]
  exact ⟨fun hw => hrefused _ (configCheck_of_width len _ hw), fun hw ho => hrefused _ (configCheck_of_length hw ho)⟩

/-- Settles O52, by the cases of a move: the engine waits, `NONE` does nothing, and a host write is no part of what the engine shows. -/
theorem endedCallsStayEnded : Obligations.EndedCallsStayEnded := by
  intro s t h hend hcmd ht
  have hp : s.phase = .pHalt := h.control.ended.mpr hend
  cases step_moved ht with
  | engine _ he =>
    obtain rfl : s.taken = t := by simpa [engineStep_halt s.taken hp] using he
    exact ⟨rfl, hp⟩
  | ignored _ ht => subst ht; exact ⟨rfl, hp⟩
  | startCompress cmd _ _ => simp [hcmd] at cmd
  | startDecompress cmd _ _ => simp [hcmd] at cmd
  | reset cmd _ => simp [hcmd] at cmd
  | write _ _ _ _ _ ht => subst ht; exact ⟨rfl, hp⟩

/-- Settles O53: the buffer is empty in a running call, and neither a turn of the call nor an ignored command writes it. -/
theorem otherBufferStaysEmpty : Obligations.OtherBufferStaysEmpty := by
  intro s t h hb hc ht
  have hturn := turn_of_busy hb hc ht
  refine ⟨fun hm => ?_, fun hm => ?_⟩
  · obtain ⟨hempty, hstep⟩ := h.taken.turn_cout hb hm
    exact hturn.elim (hstep t) fun heq => heq ▸ hempty
  · obtain ⟨hempty, hstep⟩ := h.taken.turn_dout hb hm
    exact hturn.elim (hstep t) fun heq => heq ▸ hempty

/-- Settles O8: the engine's turn in both phases is `NONE`. -/
theorem engineWaitsWithoutACall : Obligations.EngineWaitsWithoutACall := by
  intro s ht hp
  rw [step, advance_of_turn s ht]
  rcases hp with hp | hp
  · exact engineStep_idle s.taken hp
  · exact engineStep_halt s.taken hp

/-- Settles O9, by the host's move: the write alone while no call runs, and the refusal by name while one does. -/
theorem hostWritesOnlyWhileNotBusy : Obligations.HostWritesOnlyWhileNotBusy := by
  intro s rest text digits w len
  refine ⟨fun hs => ⟨fun h => ?_, fun h => ⟨_, ?_, dinAt_written digits s.din⟩, fun h => ?_, fun h => ?_⟩, fun hb h => ?_⟩
  · exact setHost_self h ▸ step_writeIn (rest := rest) hs text
  · exact setHost_self h ▸ step_writeDin (rest := rest) hs digits
  · exact setHost_self h ▸ step_writeDigitW (rest := rest) hs w
  · exact setHost_self h ▸ step_writeLength (rest := rest) hs len
  · rw [step, advance]
    rcases h with h | h | h | h <;> rw [h] <;> exact if_pos hb

/-- Settles O10: the row is `execCmdNone`, which answers its state. -/
theorem cmdNoneChangesNothing : Obligations.CmdNoneChangesNothing :=
  fun _ => rfl

/-- Settles O12: the row is `State.powerOn`, which is written from the power-on state. -/
theorem resetReturnsToPowerOn : Obligations.ResetReturnsToPowerOn :=
  fun _ => rfl

/-- Settles O13, by the test of `BUSY` that both rows begin with. -/
theorem startWhileBusyIsIgnored : Obligations.StartWhileBusyIsIgnored :=
  fun _ hb => ⟨if_pos hb, if_pos hb⟩

end Sys2Proof.Machine

/-!
SUPPORT and PROOFS. The exceptions of 60_exceptions.md. The fault entry (O38) and the capacity checks (O39); which capacity a decompressor
token finds used up first (O24); and, said once of every operation of a call (`RaisesCapacity`), that it raises nothing but `CAPACITY`, so
that each of the other three causes has one place where it is raised (O40).
-/

namespace Sys2Proof.Machine

/-! ### The capacity checks -/

theorem full_of_bound_le {cap : Option Nat} {bound used : Nat} (hc : cap = some bound) (h : bound ≤ used) : full cap used = true := by
  rw [hc, full_some, decide_eq_true h]

theorem not_full_of_lt_bound {cap : Option Nat} {used : Nat} (h : ∀ bound, cap = some bound → used < bound) :
    full cap used = false := by
  cases cap with
  | none => rfl
  | some bound => exact decide_eq_false (not_le.mpr (h bound rfl))

theorem overfull_of_bound_lt {cap : Option Nat} {bound asked : Nat} (hc : cap = some bound) (h : bound < asked) :
    overfull cap asked = true := by
  rw [hc, overfull_some, decide_eq_true h]

theorem not_overfull_of_le_bound {cap : Option Nat} {asked : Nat} (h : ∀ bound, cap = some bound → asked ≤ bound) :
    overfull cap asked = false := by
  cases cap with
  | none => rfl
  | some bound => exact decide_eq_false (not_lt.mpr (h bound rfl))

theorem dInsert_of_full {s : State} {sc : Sched} {d : DDict} (t : Str) (hs : s.sched = some sc) (hd : s.ddict = some d)
    (hf : full s.caps.dict sc.nextCode = true) : dInsert t s = .error (.raised (s.enterFault .capacity 1)) :=
  ((dInsert_cases t s hs hd).resolve_right fun h => by simp [hf] at h).2

theorem dInsertAt3_of_full {s : State} {d : DDict} (t : Str) (hd : s.ddict = some d) (hf : full s.caps.dict 3 = true) :
    dInsertAt3 t s = .error (.raised (s.enterFault .capacity 1)) :=
  ((dInsertAt3_cases t s hd).resolve_right fun h => by simp [hf] at h).2

theorem digitOut_of_room {s : State} (x : Nat) (hr : full s.caps.out s.dout.length = false) :
    digitOut x s = .ok (s.setDout (s.dout ++ [x])) :=
  ((digitOut_cases x s).resolve_left fun h => by simp [hr] at h).2

theorem digitOut_of_full {s : State} (x : Nat) (hf : full s.caps.out s.dout.length = true) :
    digitOut x s = .error (.raised (s.enterFault .capacity 2)) :=
  ((digitOut_cases x s).resolve_right fun h => by simp [hf] at h).2

theorem charOut_of_overfull {s : State} (t : Str) (ho : overfull s.caps.out (s.cout.length + t.length) = true) :
    charOut t s = .error (.raised (s.enterFault .capacity 3)) :=
  ((charOut_cases t s).resolve_right fun h => by simp [ho] at h).2

theorem configCheck_of_room {dw : BitVec 5} {len : Nat} {s : State} (hw : legalWidth dw)
    (ho : overfull s.caps.lenMax len = false) : configCheck dw len s = .ok s := by
  obtain ⟨hmin, hmax⟩ := hw
  rw [configCheck, if_neg (by omega), if_neg (by simp [ho])]

/-! ### A token rule without the room it needs -/

/-- The first token's entry is registered before it is output (R219, R277). -/
theorem firstLiteral_of_full {s : State} {d : DDict} (v : Char16) (hd : s.ddict = some d) (hf : full s.caps.dict 3 = true) :
    firstLiteral v s = .error (.raised (s.enterFault .capacity 1)) := by
  rw [firstLiteral, dInsertAt3_of_full [v] hd hf, Res.error_bind]

/-- Its entry and `D_W` are there when its output has no room (R276, R277). -/
theorem firstLiteral_of_overfull {s : State} {d : DDict} (v : Char16) (hd : s.ddict = some d) (hi : full s.caps.dict 3 = false)
    (ho : overfull s.caps.out (s.cout.length + 1) = true) : firstLiteral v s =
      .error (.raised (((s.setDdict (some (d.put 3 (.str [v])))).setDW (some [v])).enterFault .capacity 3)) := by
  have hout := charOut_of_overfull (s := (s.setDdict (some (d.put 3 (.str [v])))).setDW (some [v])) [v] ho
  rw [firstLiteral, dInsertAt3_of_room [v] hd hi, Res.ok_bind, hout, Res.error_bind]

/-- A loop literal with its entry registered and its event made: where its common end begins (R208, R209). -/
def State.literalRegistered (s : State) (d : DDict) (sc : Sched) (v : Char16) : State :=
  (s.setDdict (some (d.put sc.nextCode (.str [v])))).setSched (some (sc.tick.withNextCode (sc.nextCode + 1)))

/-- The common end outputs the entry before anything else (R214, R220). -/
theorem common_of_overfull {s : State} {e : Str} (ho : overfull s.caps.out (s.cout.length + e.length) = true) :
    common e s = .error (.raised (s.enterFault .capacity 3)) := by
  rw [common, charOut_of_overfull e ho, Res.error_bind]

section
variable {s : State} {sc : Sched} {d : DDict} {w : Str} (hs : s.sched = some sc) (hd : s.ddict = some d)
include hs

/-- A reference at `NEXT_CODE` outputs `D_W` with its first character: `Grow` does nothing (R212, R215). -/
theorem loopRefNext_eq_common {c : Char16} (h1 : 1 ≤ sc.enlargeIn) (hw : s.dW = some w) (hc : w.head? = some c) :
    loopRefNext s = common (w ++ [c]) s := by
  rw [loopRefNext, grow, onSched_some _ s sc hs, Sched.grow_of_pos sc h1, setSched_self s _ hs, Res.ok_bind, hw, need_some,
    Res.ok_bind, headOf_of_head? hc, Res.ok_bind]

include hd

/-- A reference below it outputs the entry at its code (R211). -/
theorem loopRef_eq_common {e : Str} {code : Nat} (h1 : 1 ≤ sc.enlargeIn) (hc : d.get? code = some (.str e)) :
    loopRef code s = common e s := by
  rw [loopRef, grow, onSched_some _ s sc hs, Sched.grow_of_pos sc h1, setSched_self s _ hs, Res.ok_bind, entryAt_eq code s hd hc,
    Res.ok_bind]

/-- The output is there when the insertion has no code left (R214, R276). -/
theorem common_of_full {e : Str} {c : Char16} (hw : s.dW = some w) (he : e.head? = some c)
    (ho : overfull s.caps.out (s.cout.length + e.length) = false) (hf : full s.caps.dict sc.nextCode = true) :
    common e s = .error (.raised ((s.setCout (s.cout ++ e)).enterFault .capacity 1)) := by
  rw [common, charOut_of_room e ho, Res.ok_bind, State.setCout_dW, hw, need_some, Res.ok_bind, headOf_of_head? he, Res.ok_bind,
    dInsert_of_full (s := s.setCout (s.cout ++ e)) _ hs hd hf, Res.error_bind]

/-- A loop literal is registered before everything else (R208, R277). -/
theorem loopLiteral_of_full (v : Char16) (hf : full s.caps.dict sc.nextCode = true) :
    loopLiteral v s = .error (.raised (s.enterFault .capacity 1)) := by
  rw [loopLiteral, hs, need_some, Res.ok_bind, dInsert_of_full [v] hs hd hf, Res.error_bind]

/-- With a code left for it, the rest is the common end of the entry it registered (R208, R209). -/
theorem loopLiteral_eq_common (v : Char16) (hi : full s.caps.dict sc.nextCode = false) :
    loopLiteral v s = common [v] (s.literalRegistered d sc v) := by
  have hgrow : sc.bump.dec.grow = sc.tick.withNextCode (sc.nextCode + 1) := Sched.tick_withNextCode sc _
  rw [loopLiteral, hs, need_some, Res.ok_bind, dInsert_of_room [v] hs hd hi, Res.ok_bind, dec, onSched_some _ _ sc.bump rfl,
    Res.ok_bind, setSched_setSched, grow, onSched_some _ _ sc.bump.dec rfl, Res.ok_bind, setSched_setSched, hgrow,
    entryAt_eq sc.nextCode _ (d := d.put sc.nextCode (.str [v])) (t := [v]) rfl (by simp), Res.ok_bind,
    State.literalRegistered]

end

/-! ### What an operation of a call can raise -/

/-- The state in which a `CAPACITY` fault ended a step: its number is one of the four, and some capacity is bounded (R274, R275). -/
structure State.OutOfRoom (t : State) : Prop where
  cause : t.cause = .capacity
  bounded : t.caps ≠ Config.Caps.unbounded
  least : 1 ≤ t.faultInfo
  most : t.faultInfo ≤ 4

/-- An operation that raises nothing but `CAPACITY`, from any state. -/
abbrev RaisesCapacity (f : State → Res State) : Prop := ∀ s, (f s).Sat True State.OutOfRoom fun _ => True

/-- A check that no unbounded capacity fails (R274). -/
theorem check_raisesCapacity {b : Bool} {s u : State} {i : Nat} (hb : s.caps = Config.Caps.unbounded → b = false) (h1 : 1 ≤ i)
    (h4 : i ≤ 4) : (if b then raise .capacity i s else .ok u : Res State).Sat True State.OutOfRoom fun _ => True := by
  split
  · rename_i h
    exact ⟨rfl, fun hc => by simp [hb hc] at h, h1, h4⟩
  · trivial

theorem digitOut_raisesCapacity (x : Nat) : RaisesCapacity (digitOut x) := fun _ =>
  check_raisesCapacity (fun h => by rw [h]; rfl) (by decide) (by decide)

theorem charOut_raisesCapacity (t : Str) : RaisesCapacity (charOut t) := fun _ =>
  check_raisesCapacity (fun h => by rw [h]; rfl) (by decide) (by decide)

theorem cInsert_raisesCapacity (t : Str) : RaisesCapacity (cInsert t) := fun _ =>
  .of_need fun _ _ => .of_need fun _ _ => check_raisesCapacity (fun h => by rw [h]; rfl) (by decide) (by decide)

theorem dInsert_raisesCapacity (t : Str) : RaisesCapacity (dInsert t) := fun _ =>
  .of_need fun _ _ => .of_need fun _ _ => check_raisesCapacity (fun h => by rw [h]; rfl) (by decide) (by decide)

theorem dInsertAt3_raisesCapacity (t : Str) : RaisesCapacity (dInsertAt3 t) := fun _ =>
  .of_need fun _ _ => check_raisesCapacity (fun h => by rw [h]; rfl) (by decide) (by decide)

theorem onSched_raisesCapacity (f : Sched → Sched) : RaisesCapacity (onSched f) := fun _ => .of_need fun _ _ => trivial

/-! The compressor. -/

theorem putBit_raisesCapacity (b : Bool) : RaisesCapacity (putBit b) := by
  intro s
  refine .of_need fun k _ => .of_need fun w _ => ?_
  split
  · exact (digitOut_raisesCapacity _ _).bind fun _ _ => trivial
  · trivial

theorem putBits_raisesCapacity (bs : List Bool) : RaisesCapacity (putBits bs) := by
  induction bs with
  | nil => exact fun _ => trivial
  | cons b bs ih => exact fun s => (putBit_raisesCapacity b s).bind fun t _ => ih t

theorem putValue_raisesCapacity (v n : Nat) : RaisesCapacity (putValue v n) := putBits_raisesCapacity _

theorem flush_raisesCapacity : RaisesCapacity flush := fun s =>
  .of_need fun _ _ => .of_need fun _ _ => (digitOut_raisesCapacity _ s).bind fun _ _ => trivial

theorem literalSent_raisesCapacity (v : Char16) : RaisesCapacity (literalSent v) := fun _ =>
  .of_need fun _ _ => (onSched_raisesCapacity _ _).bind fun t _ => onSched_raisesCapacity _ t

/-- The two literal forms (R176, R177). -/
theorem literalToken_raisesCapacity (v : Char16) (code m n : Nat) :
    RaisesCapacity fun s => putValue code m s >>= fun t => putValue v.toNat n t >>= literalSent v := fun s =>
  (putValue_raisesCapacity _ _ s).bind fun t _ => (putValue_raisesCapacity _ _ t).bind fun u _ => literalSent_raisesCapacity v u

theorem emitRef_raisesCapacity (t : Str) : RaisesCapacity (emitRef t) := fun s =>
  .of_read (codeOf_reads t s) fun _ => .of_need fun _ _ =>
    (putValue_raisesCapacity _ _ s).bind fun u _ => onSched_raisesCapacity _ u

theorem emit_raisesCapacity (t : Str) : RaisesCapacity (emit t) := by
  intro s
  refine .of_need fun p _ => ?_
  split
  · refine .of_read (headOf_reads t) fun v => ?_
    split
    · exact .of_need fun sc _ => literalToken_raisesCapacity v 0 sc.numBits 8 s
    · exact .of_need fun sc _ => literalToken_raisesCapacity v 1 sc.numBits 16 s
  · exact emitRef_raisesCapacity t s

theorem registerChar_raisesCapacity (c : Char16) : RaisesCapacity (registerChar c) := by
  intro s
  refine .of_need fun d _ => ?_
  split
  · trivial
  · exact (cInsert_raisesCapacity [c] s).bind fun _ _ => .of_need fun _ _ => trivial

theorem extendMatch_raisesCapacity (c : Char16) : RaisesCapacity (extendMatch c) := by
  intro s
  refine .of_need fun d _ => .of_need fun w _ => ?_
  split
  · trivial
  · exact (emit_raisesCapacity w s).bind fun t _ => (cInsert_raisesCapacity _ t).bind fun _ _ => trivial

theorem cScan_raisesCapacity : RaisesCapacity cScan := by
  intro s
  refine .of_need fun i _ => .of_need fun n _ => .of_read (charIn_reads i s) fun c => ?_
  refine (registerChar_raisesCapacity c _).bind fun t _ => (extendMatch_raisesCapacity c t).bind fun u _ => ?_
  split <;> trivial

theorem cFinal_raisesCapacity : RaisesCapacity cFinal := fun s =>
  .of_need fun w _ => (emit_raisesCapacity w s).bind fun t _ => .of_need fun _ _ =>
    (putValue_raisesCapacity _ _ t).bind fun u _ => (flush_raisesCapacity u).bind fun _ _ => trivial

/-! The decompressor. -/

theorem firstLiteral_raisesCapacity (v : Char16) : RaisesCapacity (firstLiteral v) := fun s =>
  (dInsertAt3_raisesCapacity [v] s).bind fun _ _ => (charOut_raisesCapacity [v] _).bind fun _ _ => trivial

theorem common_raisesCapacity (e : Str) : RaisesCapacity (common e) := fun s =>
  (charOut_raisesCapacity e s).bind fun t _ => .of_need fun _ _ => .of_read (headOf_reads e) fun _ =>
    (dInsert_raisesCapacity _ t).bind fun u _ => (onSched_raisesCapacity _ u).bind fun _ _ => trivial

theorem loopLiteral_raisesCapacity (v : Char16) : RaisesCapacity (loopLiteral v) := fun s =>
  .of_need fun _ _ => (dInsert_raisesCapacity [v] s).bind fun t _ => (onSched_raisesCapacity _ t).bind fun u _ =>
    (onSched_raisesCapacity _ u).bind fun x _ => .of_read (entryAt_reads _ x) fun e => common_raisesCapacity e x

theorem loopRef_raisesCapacity (code : Nat) : RaisesCapacity (loopRef code) := fun s =>
  (onSched_raisesCapacity _ s).bind fun t _ => .of_read (entryAt_reads code t) fun e => common_raisesCapacity e t

theorem loopRefNext_raisesCapacity : RaisesCapacity loopRefNext := fun s =>
  (onSched_raisesCapacity _ s).bind fun t _ => .of_need fun w _ => .of_read (headOf_reads w) fun _ => common_raisesCapacity _ t

/-! ### Where a running call can fail -/

/-- Why a turn of a running call can end it in failure: the two illegal tokens in their phases, or a capacity (R271, R272, R274). -/
inductive FailedBy (s t : State) : Prop
  | corruptCode (cause : t.cause = .corruptCode) (phase : s.phase = .pDLoop)
      (code : ∃ sc, s.sched = some sc ∧ sc.nextCode < t.faultInfo)
  | badSelector (cause : t.cause = .badSelector) (phase : s.phase = .pDFirst) (info : t.faultInfo = 3)
  | capacity (room : t.OutOfRoom)

/-- Where completing does not fail, a step that failed was ended by a fault entry. -/
theorem Res.Sat.of_failed {M : Prop} {Q P : State → Prop} {r : Res State} {t : State} (h : r.Sat M Q P)
    (hP : ∀ x, P x → x.status ≠ .doneFail) (ht : r.outcome = .next t) (hfail : t.status = .doneFail) : Q t :=
  (h.mono (P' := fun x => x.status = .doneFail → Q x) (Q' := fun x => x.status = .doneFail → Q x)
    (fun x hx hs => absurd hs (hP x hx)) fun _ hx _ => hx).of_outcome ht hfail

/-- An operation that raises nothing but `CAPACITY`, and that does not fail where it completes. -/
theorem RaisesCapacity.failedBy {f : State → Res State} {M : Prop} {Q P : State → Prop} {s u t : State} (hf : RaisesCapacity f)
    (h : (f u).Sat M Q P) (hP : ∀ x, P x → x.status ≠ .doneFail) (ht : (f u).outcome = .next t) (hfail : t.status = .doneFail) :
    FailedBy s t :=
  .capacity ((h.and (hf u)).of_failed (fun x hx => hP x hx.1) ht hfail).2

theorem Looped.not_failed {s t : State} {dw : BitVec 5} {len pos : Nat} (h : Looped s dw len pos t) (hr : s.Running) :
    t.status ≠ .doneFail := by
  obtain ⟨_, _, hc⟩ := h
  simp [hc.status, hr.status]

theorem scan_failedBy {s t : State} {dw : BitVec 5} {i : Nat} {sc : Sched} {k : Sink} {w : Str} {d : CDict} {p : Pending}
    (hr : s.Running) (h : CompOk s dw i sc k w d p) (hi : i < s.inBuf.length) (ht : (cScan s).outcome = .next t)
    (hfail : t.status = .doneFail) : FailedBy s t := by
  refine cScan_raisesCapacity.failedBy (cScan_sat h hi) ?_ ht hfail
  rintro x ⟨_, _, _, _, _, _, _, hst, _⟩
  simp [hst, hr.status]

theorem final_failedBy {s t : State} {dw : BitVec 5} {i : Nat} {sc : Sched} {k : Sink} {w : Str} {d : CDict} {p : Pending}
    (h : CompOk s dw i sc k w d p) (hi : 0 < i) (ht : (cFinal s).outcome = .next t) (hfail : t.status = .doneFail) :
    FailedBy s t := by
  refine cFinal_raisesCapacity.failedBy (cFinal_sat h hi) ?_ ht hfail
  rintro _ ⟨u, rfl, _⟩
  simp

theorem first_failedBy {s t : State} {dw : BitVec 5} {len : Nat} (hr : s.Running) (hp : s.phase = .pDFirst) (h : FirstOk s dw len)
    (ht : runToken .first s = .next t) (hfail : t.status = .doneFail) : FailedBy s t := by
  rw [runToken_eq .first s h.srcPos h.digitW h.length] at ht
  generalize (tokenAt .first dw.toNat len s.din 0).2 = width at ht
  rcases exec_firstToken _ _ (s.setSrcPos (some (0 + width))) with ⟨v, hx⟩ | hx | hx <;> replace ht := hx.symm.trans ht
  · refine (firstLiteral_raisesCapacity v).failedBy (firstLiteral_sat v _ h) ?_ ht hfail
    rintro _ ⟨u, rfl, hl⟩
    exact hl.not_failed hr
  · cases ht
    simp at hfail
  · cases ht
    exact .badSelector rfl hp rfl

theorem loop_failedBy {s t : State} {dw : BitVec 5} {len pos : Nat} {sc : Sched} {w : Str} {d : DDict} (hr : s.Running)
    (hp : s.phase = .pDLoop) (h : LoopOk s dw len pos sc w d) (ht : runToken (.loop sc.numBits sc.nextCode) s = .next t)
    (hfail : t.status = .doneFail) : FailedBy s t := by
  rw [runToken_eq _ s h.srcPos h.digitW h.length] at ht
  generalize pos + (tokenAt (.loop sc.numBits sc.nextCode) dw.toNat len s.din pos).2 = stop at ht
  have hm := h.moveTo stop
  have hnf : ∀ x, Looped (s.setSrcPos (some stop)) dw len stop x → x.status ≠ .doneFail := fun _ hx => hx.not_failed { hr with }
  rcases exec_loopToken sc.nextCode _ _ (s.setSrcPos (some stop)) with ⟨v, hx⟩ | hx | ⟨h3, hlt, hx⟩ | hx | ⟨hgt, hx⟩ <;>
    replace ht := hx.symm.trans ht
  · exact (loopLiteral_raisesCapacity v).failedBy (loopLiteral_sat v hm) hnf ht hfail
  · cases ht
    simp at hfail
  · exact (loopRef_raisesCapacity _).failedBy (loopRef_sat _ hm h3 hlt) hnf ht hfail
  · exact loopRefNext_raisesCapacity.failedBy (loopRefNext_sat hm) hnf ht hfail
  · cases ht
    exact .corruptCode rfl hp ⟨sc, h.sched, hgt⟩

theorem dLoop_failedBy {s t : State} {dw : BitVec 5} {len pos : Nat} {sc : Sched} {w : Str} {d : DDict} (hr : s.Running)
    (hp : s.phase = .pDLoop) (h : LoopOk s dw len pos sc w d) (ht : dLoop s = .next t) (hfail : t.status = .doneFail) :
    FailedBy s t := by
  rw [dLoop, exhausted_eq s h.srcPos h.digitW h.length, h.sched, need_some] at ht
  cases hx : decide (len * dw.toNat ≤ pos) with
  | true => rw [hx] at ht; cases ht; simp at hfail
  | false => rw [hx] at ht; exact loop_failedBy hr hp h ht hfail

/-- The engine's turn from a state with the invariant fails for one of these reasons. -/
theorem engineStep_failedBy {s t : State} (h : s.Inv) (hs : s.status ≠ .doneFail) (ht : engineStep s = .next t)
    (hfail : t.status = .doneFail) : FailedBy s t := by
  by_cases hb : s.status = .busy
  · obtain ⟨hi, hh⟩ := h.phase_of_busy hb
    obtain ⟨_, hcause, hinfo⟩ := h.running hi hh
    have hr : s.Running := ⟨hb, hcause, hinfo⟩
    cases hp : s.phase with
    | pIdle => exact absurd hp hi
    | pHalt => exact absurd hp hh
    | pCScan =>
      obtain ⟨_, _, _, _, _, _, _, hc, hlt⟩ := (phaseOk_scan hp).mp h.work
      exact scan_failedBy hr hc hlt (engineStep_scan s hp ▸ ht) hfail
    | pCFinal =>
      obtain ⟨_, _, _, _, _, _, _, hc, _, hpos⟩ := (phaseOk_final hp).mp h.work
      exact final_failedBy hc hpos (engineStep_final s hp ▸ ht) hfail
    | pDFirst =>
      obtain ⟨_, _, hf⟩ := (phaseOk_first hp).mp h.work
      exact first_failedBy hr hp hf (engineStep_first s hp ▸ ht) hfail
    | pDLoop =>
      obtain ⟨_, _, _, _, _, _, hl⟩ := (phaseOk_loop hp).mp h.work
      exact dLoop_failedBy hr hp hl (engineStep_loop s hp ▸ ht) hfail
  · rw [engineStep_waits h hb] at ht
    cases ht
    exact absurd hfail hs

/-! ### Where a START can fail -/

/-- Why a START can be refused: its width, or its length over a bounded `LEN_MAX` (R273, R274). -/
def RefusedBy (dw : BitVec 5) (t : State) : Prop :=
  (t.cause = .badConfig ∧ t.faultInfo = dw.toNat ∧ ¬ legalWidth dw) ∨ t.OutOfRoom

theorem configCheck_refusedBy (dw : BitVec 5) (len : Nat) (s : State) :
    (configCheck dw len s).Sat True (RefusedBy dw) fun t => t = s := by
  rcases configCheck_cases dw len s with ⟨hl, h⟩ | ⟨_, ho, h⟩ | ⟨_, _, h⟩ <;> rw [h]
  · exact .inl ⟨rfl, rfl, hl⟩
  · have hb : s.caps ≠ Config.Caps.unbounded := by
      intro hc
      rw [hc] at ho
      cases ho
    exact .inr ⟨rfl, hb, by simp, by simp⟩
  · rfl

theorem cInit_not_failed {s : State} (hs : s.status ≠ .doneFail) :
    (cInit s).Sat True (fun _ => False) fun t => t.status ≠ .doneFail := by
  refine .of_need fun n _ => ?_
  split
  · simp
  · exact hs

theorem dInit_not_failed {s : State} (hs : s.status ≠ .doneFail) :
    (dInit s).Sat True (fun _ => False) fun t => t.status ≠ .doneFail := by
  refine .of_need fun len _ => ?_
  split
  · simp
  · exact hs

/-- Both STARTs fail only at the check, which runs on a busy engine (R241, R242). -/
theorem start_refusedBy {m : Mode} {dw : BitVec 5} {len : Nat} {init : State → Res State} (s : State)
    (hi : ∀ u, u.status ≠ .doneFail → (init u).Sat True (fun _ => False) fun t => t.status ≠ .doneFail) :
    (configCheck dw len (beginCall m s) >>= init).Sat True (RefusedBy dw) fun t => t.status ≠ .doneFail := by
  refine (configCheck_refusedBy dw len _).bind ?_
  rintro _ rfl
  exact (hi _ (by simp)).mono (fun _ h => h) fun _ h => h.elim

theorem startCompress_refusedBy (s : State) :
    (startCompress s).Sat True (RefusedBy s.cfgDigitW) fun t => t.status ≠ .doneFail :=
  start_refusedBy s fun u hu => cInit_not_failed (s := (u.setDigitW _).setN _) hu

theorem startDecompress_refusedBy (s : State) :
    (startDecompress s).Sat True (RefusedBy s.cfgDigitW) fun t => t.status ≠ .doneFail :=
  start_refusedBy s fun u hu => dInit_not_failed (s := (u.setDigitW _).setLength _) hu

/-! ### The statements -/

/-- Settles O24, by the token and by the first check it fails: a first token's insertion, then its output; a loop literal's own insertion,
and then, of a loop literal as of a reference, the output and the insertion of the common end. -/
theorem capacityFaultOrder : Obligations.CapacityFaultOrder := by
  refine ⟨fun s d v i hi hd => ⟨fun hf => ?_, fun hroom ho => ?_⟩, fun s sc d w e c v code i hi hs h1 hd hw hc he => ?_⟩
  · rw [exec_firstLiteral hi, firstLiteral_of_full v hd hf]
    rfl
  · rw [exec_firstLiteral hi, firstLiteral_of_overfull v hd hroom ho]
    rfl
  · have href : exec (.ref code) s = (common e s).outcome := congrArg Res.outcome (loopRef_eq_common hs hd h1 hc)
    have hnext (x : Char16) (hx : w.head? = some x) : exec .refNext s = (common (w ++ [x]) s).outcome :=
      congrArg Res.outcome (loopRefNext_eq_common hs h1 hw hx)
    refine ⟨fun hf => ?_, fun hroom ho => ?_, fun hroom ho hf => ?_, fun ho => ?_, fun ho hf => ?_, fun x hx ho => ?_,
      fun x hx ho hf => ?_⟩
    · rw [exec_loopLiteral hi, loopLiteral_of_full hs hd v hf]
      rfl
    · rw [exec_loopLiteral hi, loopLiteral_eq_common hs hd v hroom,
        common_of_overfull (s := s.literalRegistered d sc v) (e := [v]) ho]
      rfl
    · rw [exec_loopLiteral hi, loopLiteral_eq_common hs hd v hroom,
        common_of_full (s := s.literalRegistered d sc v) (e := [v]) rfl rfl hw rfl ho hf]
      rfl
    · rw [href, common_of_overfull ho]
      rfl
    · rw [href, common_of_full hs hd hw he ho hf]
      rfl
    · rw [hnext x hx, common_of_overfull (by rwa [List.length_append, ← Nat.add_assoc])]
      rfl
    · rw [hnext x hx, common_of_full hs hd hw (by rw [List.head?_append, hx]; rfl)
        (by rwa [List.length_append, ← Nat.add_assoc]) hf]
      rfl

/-- Settles O40, by the cases of a move: the engine's turn in a running call and the check of a START are the only places a fault is
raised, and no move writes a capacity. -/
theorem faultsHaveTheirCauses : Obligations.FaultsHaveTheirCauses := by
  intro s t h ht hs hfail
  obtain ⟨_, _, _, _, hcaps, _⟩ := onlyTheHostWritesItsInputs s t ht
  have hroom : t.OutOfRoom → t.cause = .capacity ∧ s.caps ≠ Config.Caps.unbounded ∧ 1 ≤ t.faultInfo ∧ t.faultInfo ≤ 4 :=
    fun ⟨hc, hb, hleast, hmost⟩ => ⟨hc, hcaps ▸ hb, hleast, hmost⟩
  have hstart (hcmd : s.cmdPort = 1 ∨ s.cmdPort = 2) (hr : RefusedBy s.cfgDigitW t) :=
    hr.imp (fun ⟨hc, hinfo⟩ => And.intro hc (And.intro hcmd hinfo)) hroom
  cases step_moved ht with
  | engine _ he =>
    cases engineStep_failedBy h.taken hs he hfail with
    | corruptCode hc hp hcode => exact .inl ⟨hc, hp, hcode⟩
    | badSelector hc hp hinfo => exact .inr <| .inl ⟨hc, hp, hinfo⟩
    | capacity hr => exact .inr <| .inr <| .inr (hroom hr)
  | ignored _ ht => subst ht; exact absurd hfail hs
  | startCompress cmd _ hst =>
    exact .inr <| .inr <| hstart (.inl cmd) ((startCompress_refusedBy s.taken).of_failed (fun _ => id) hst hfail)
  | startDecompress cmd _ hst =>
    exact .inr <| .inr <| hstart (.inr cmd) ((startDecompress_refusedBy s.taken).of_failed (fun _ => id) hst hfail)
  | reset _ ht => subst ht; cases hfail
  | write _ _ _ _ _ ht => subst ht; exact absurd hfail hs

/-- Settles O38: `raise` is an error, and an error is passed on past whatever stands after it. -/
theorem faultEntryEndsTheStep : Obligations.FaultEntryEndsTheStep :=
  fun _ _ _ _ => rfl

/-- Settles O39, one check after another, each by whether its bound is reached. -/
theorem capacityChecksGuardTheWrite : Obligations.CapacityChecksGuardTheWrite := by
  refine fun s => ⟨fun sc d t hs hd => ⟨fun b hb h => ?_, fun h => ?_⟩, fun sc d t hs hd => ⟨fun b hb h => ?_, fun h => ?_⟩,
    fun d t hd => ⟨fun b hb h => ?_, fun h => ?_⟩, fun x => ⟨fun b hb h => ?_, fun h => ?_⟩,
    fun t => ⟨fun b hb h => ?_, fun h => ?_⟩, fun dw len hw => ⟨fun b hb h => ?_, fun h => ?_⟩⟩
  · exact cInsert_of_full t hs hd (full_of_bound_le hb h)
  · exact cInsert_of_room t hs hd (not_full_of_lt_bound h)
  · exact dInsert_of_full t hs hd (full_of_bound_le hb h)
  · exact dInsert_of_room t hs hd (not_full_of_lt_bound h)
  · exact dInsertAt3_of_full t hd (full_of_bound_le hb h)
  · exact dInsertAt3_of_room t hd (not_full_of_lt_bound h)
  · exact digitOut_of_full x (full_of_bound_le hb h)
  · exact digitOut_of_room x (not_full_of_lt_bound h)
  · exact charOut_of_overfull t (overfull_of_bound_lt hb h)
  · exact charOut_of_room t (not_overfull_of_le_bound h)
  · exact configCheck_of_length hw (overfull_of_bound_lt hb h)
  · exact configCheck_of_room hw (not_overfull_of_le_bound h)

end Sys2Proof.Machine

/-!
SUPPORT and PROOFS. Reset and hazards of 70_reset_and_hazards.md. Power-on (O11) meets the invariant (O41); an accepted START leaves what it
would leave after RESET, and so nothing of an earlier call (O17); and from the invariant every move of a host that keeps its duty answers a
next state (O43).
-/

namespace Sys2Proof.Machine

/-! ### A START after RESET -/

/-- The power-on state is a function of what the host owns and the parameters (R302). -/
theorem SameInputs.powerOn_eq {s t : State} (h : SameInputs s t) : t.powerOn = s.powerOn := by
  obtain ⟨hin, hdin, hwidth, hlen, hcaps, hhost⟩ := h
  rw [State.powerOn, State.powerOn, hin, hdin, hwidth, hlen, hcaps, hhost]

/-- `C_INIT` writes every element but those of the host, so a RESET before the START makes no difference (R303). -/
theorem powerOn_started (s : State) : s.powerOn.started = s.started := rfl

/-- Nor does it before a decompression (R303). -/
theorem powerOn_opened (s : State) : s.powerOn.opened = s.opened := rfl

theorem SameInputs.started_eq {s t : State} (h : SameInputs s t) : t.started = s.started := by
  rw [← powerOn_started t, h.powerOn_eq, powerOn_started]

theorem SameInputs.opened_eq {s t : State} (h : SameInputs s t) : t.opened = s.opened := by
  rw [← powerOn_opened t, h.powerOn_eq, powerOn_opened]

theorem SameInputs.accepts {s t : State} (h : SameInputs s t) (ha : s.Accepts) : t.Accepts := by
  rwa [State.Accepts, h.cfgDigitW, h.caps, h.inBuf]

theorem SameInputs.acceptsDigits {s t : State} (h : SameInputs s t) (ha : s.AcceptsDigits) : t.AcceptsDigits := by
  rwa [State.AcceptsDigits, h.cfgDigitW, h.caps, h.cfgLength]

/-! ### Every move answers -/

/-- The engine's turn answers, whether a call runs or not (R309). -/
theorem State.Inv.engineStep_next {s : State} (h : s.Inv) : ∃ t, engineStep s = .next t := by
  by_cases hb : s.status = .busy
  · obtain ⟨t, ht, _⟩ := engineStep_answers h hb
    exact ⟨t, ht⟩
  · exact ⟨s, engineStep_waits h hb⟩

/-- A command answers in any state (R241 to R246). -/
theorem exec_command_next (c : BitVec 2) (s : State) : ∃ t, exec (decodeCmd c) s = .next t := by
  rcases cmd_cases c with rfl | rfl | rfl | rfl
  · exact ⟨s, rfl⟩
  · show ∃ t, exec .startCompress s = .next t
    by_cases hb : s.status = .busy
    · exact ⟨s, (startWhileBusyIsIgnored s hb).1⟩
    · obtain ⟨t, ht, _⟩ := (startCompress_sat s).answers
      exact ⟨t, (exec_startCompress hb).trans ht⟩
  · show ∃ t, exec .startDecompress s = .next t
    by_cases hb : s.status = .busy
    · exact ⟨s, (startWhileBusyIsIgnored s hb).2⟩
    · obtain ⟨t, ht, _⟩ := (startDecompress_sat s).answers
      exact ⟨t, (exec_startDecompress hb).trans ht⟩
  · exact ⟨s.powerOn, rfl⟩

/-! ### The statements -/

/-- Settles O43, by the host's move: the engine's turn and a command answer, and a host that keeps its duty writes only while no call
runs. -/
theorem invStepAnswersNext : Obligations.InvStepAnswersNext := by
  intro s h hduty
  have hturn : s.engineTurn → ∃ t, step s = .next t := fun ht => by
    rw [step, advance_of_turn s ht]
    exact h.taken.engineStep_next
  cases hh : s.host with
  | nil => exact hturn (.inl hh)
  | cons m rest =>
    rw [State.hostKeepsDuty, hh] at hduty
    cases m with
    | yield => exact hturn (.inr (by rw [hh]; rfl))
    | issue c => exact stepRunsIssuedCommand s c rest hh ▸ exec_command_next c (s.setHost rest)
    | writeIn text => exact ⟨_, setHost_self hh ▸ step_writeIn (rest := rest) hduty text⟩
    | writeDin digits => exact ⟨_, setHost_self hh ▸ step_writeDin (rest := rest) hduty digits⟩
    | writeDigitW w => exact ⟨_, setHost_self hh ▸ step_writeDigitW (rest := rest) hduty w⟩
    | writeLength len => exact ⟨_, setHost_self hh ▸ step_writeLength (rest := rest) hduty len⟩

/-- Settles O17: an accepted START leaves what it leaves after RESET, and RESET keeps only what the two states agree on. -/
theorem startForgetsHistory : Obligations.StartForgetsHistory := by
  intro s r hs hr hin hdin hwidth hlen hcaps hhost hl
  have hsame : SameInputs s r := ⟨hin, hdin, hwidth, hlen, hcaps, hhost⟩
  refine ⟨fun ho => ?_, fun ho => ?_⟩
  · have ha : s.Accepts := ⟨hl, ho⟩
    rw [exec_startCompress hr, exec_startCompress hs, startCompress_of_accepts ha, startCompress_of_accepts (hsame.accepts ha),
      hsame.started_eq]
  · have ha : s.AcceptsDigits := ⟨hl, ho⟩
    rw [exec_startDecompress hr, exec_startDecompress hs, startDecompress_of_accepts ha,
      startDecompress_of_accepts (hsame.acceptsDigits ha), hsame.opened_eq]

/-- Settles O41: RESET leaves the invariant from any state, and the power-on state is its own RESET. -/
theorem resetHasInv : Obligations.ResetHasInv :=
  powerOn_inv State.reset

/-- Settles O11, one element after another, each as `State.reset` gives it. -/
theorem powerOnState : Obligations.PowerOnState :=
  ⟨reset_status, reset_cause, reset_faultInfo, reset_phase, rfl, rfl, rfl, rfl, rfl, rfl, rfl, rfl, rfl, rfl, rfl, rfl, rfl, rfl, rfl⟩

end Sys2Proof.Machine
